-- ==== Sys2Proof/Word.lean ====
section
/-! DEFINITION. The words of the LF2-LZSS codec engine and the names of its two engines (00_scope.md R1, R7, R14). -/

namespace Sys2Proof

/-- "byte size | 8 bits" (R7): a cell of every space (R60). -/
abbrev Byte := BitVec 8

/-- A 12-bit ring address or ring cursor (R7 `RING_AW`, R29); its arithmetic is modulo 4096 (R61). -/
abbrev RingAddr := BitVec 12

/-- One word of the 32-bit register interface (R52). -/
abbrev Word := BitVec 32

/-- The two engines of the block (R1). -/
inductive Engine where
  | dec
  | enc
deriving DecidableEq, Repr

end Sys2Proof
end

