-- ==== Sys2Proof/Config.lean ====
section
/-! DEFINITION. What every conforming engine fixes (R3, R7) and the free values: constants with no body, of which no proof
can know a value (log entries 5, 6, 7, 16). -/

namespace Sys2Proof

/-- `RING_SIZE` (R7). -/
def Config.ringSize : Nat := 4096

/-- `RING_FILL`: the pre-seed byte (R3, R7). -/
def Config.ringFill : Byte := 0x20#8

/-- `RING_CURSOR_INIT` (R3, R7). -/
def Config.cursorInit : RingAddr := 0xFEE#12

/-- `OPS_PER_BLOCK` (R7). -/
def Config.opsPerBlock : Nat := 8

/-- `WIRE_MASK` (R3, R7, R68). -/
def Config.wireMask : Byte := 0xFF#8

/-- FREE VALUE: the `n`-th draw of `w` bits (93 U11, U12; R58, R144, R186). -/
opaque Config.freeBits (w n : Nat) : BitVec w

/-- FREE VALUE within a bound the spec keeps: the `n`-th draw of a number 0 to `m` (93 U11, U16). -/
opaque Config.freeUpTo (m n : Nat) : Fin (m + 1)

/-- FREE VALUE: what ring cell `a` holds when the ring content is the `n`-th unspecified one (93 U10, U11; R28, R36). -/
opaque Config.freeRingByte (n : Nat) (a : RingAddr) : Byte

/-- FREE VALUE: the sixteen bytes of `ENC.QB` where the spec leaves them unspecified (93 U14; R37). -/
opaque Config.freeQueue (n : Nat) : Vector Byte 16

end Sys2Proof
end

