-- ==== Sys2Proof/Syntax.lean ====
section
/-! DEFINITION. The five rows of spec/opcode_table.json, one constructor each. The fields are LOGICAL values: the wire
mask is the decoder's and the encoder's business (R68, R97). -/

namespace Sys2Proof

/-- The operations of the compressed record (R2, R107) and the two host commands (R108). -/
inductive Instr where
  /-- `FLAG` (R91): eight kind bits, bit `7 - j` is the kind of operation `j` of the block, 1 = LIT, 0 = REF. -/
  | flag (kinds : Byte)
  /-- `LIT` (R92): the byte to emit. -/
  | lit (data : Byte)
  /-- `REF` (R93, R94): a 12-bit absolute ring index and a length of 3 to 18. -/
  | ref (position : RingAddr) (length : BitVec 5)
  /-- `START` (R108): a write of `CTRL` of `engine` with bit 1 = 0 and bit 0 = 1; bit 2 is `IE`, bits 31:3 are unused. -/
  | start (engine : Engine) (unused : BitVec 29) (ie : Bool)
  /-- `ABORT` (R108): a write of `CTRL` of `engine` with bit 1 = 1; bit 0 is the ignored START bit. -/
  | abort (engine : Engine) (unused : BitVec 29) (ie : Bool) (startBit : Bool)
deriving DecidableEq, Repr

end Sys2Proof
end

