-- ==== Sys2Proof/WellFormed.lean ====
section
/-! DEFINITION. Which terms of `Instr` are instructions: the only bound the format sets is the length of a REF (R94, R95). -/

namespace Sys2Proof

/-- R94: "`length` is an unsigned 5-bit value, never 0, 1 or 2, never above 18". Every other field takes every value
of its width (R91, R92, R99, R108). -/
def Instr.wellFormed : Instr → Bool
  | .ref _ length => decide (3 ≤ length.toNat) && decide (length.toNat ≤ 18)
  | .flag _ => true
  | .lit _ => true
  | .start _ _ _ => true
  | .abort _ _ _ _ => true

end Sys2Proof
end

