-- ==== Sys2Proof/Decode.lean ====
section
/-! DEFINITION. From stored bytes and CTRL words to instructions and back (30_encoding.md R90 to R109). After the decoder
and the encoder: the numbering of spec/opcode_table.json, and the assembler of the spec's stream notation (R105, R106). -/

namespace Sys2Proof

/-- What the byte at the stream index is: a stream operation does not tell its own kind (R98). `FCNT = 0` makes a flag
byte due, a kind bit of 1 a LIT, a kind bit of 0 a REF (R107). -/
inductive Due where
  | flag
  | lit
  | ref
deriving DecidableEq, Repr

/-- Where an instruction comes from: raw (wire) bytes of the stream with the kind that is due, or a host write of the
`CTRL` register of an engine (R107, R108). -/
inductive Source where
  | stream (due : Due) (wire : List Byte)
  | ctrl (engine : Engine) (value : Word)
deriving DecidableEq, Repr

/-- Why no instruction is there. No VALUE of a byte is ever refused (R99). -/
inductive DecodeError where
  /-- The stream is exhausted where the first byte is due (R202, R203). -/
  | noByte
  /-- `U` is there and `L` is missing (R203). -/
  | refCutShort
  /-- A `CTRL` write with neither the START nor the ABORT bit (R108): no command. -/
  | noCommand
deriving DecidableEq, Repr

/-- R68, R97: wire byte from logical byte and back, `^ 0xFF`. -/
def mask (b : Byte) : Byte := b ^^^ Config.wireMask

/-- R94: `length = (U & 0x0F) + 3`. -/
def refLength (u : Byte) : BitVec 5 := (u &&& 0x0F#8).setWidth 5 + 3#5

/-- R94: `position = (U >> 4) | (L << 4)`. -/
def refPosition (u l : Byte) : RingAddr := (u.setWidth 12 >>> 4) ||| (l.setWidth 12 <<< 4)

/-- R95: `U = ((position & 0x0F) << 4) | (length - 3)`. -/
def refU (position : RingAddr) (length : BitVec 5) : Byte :=
  ((position &&& 0x00F#12).setWidth 8 <<< 4) ||| (length - 3#5).setWidth 8

/-- R95: `L = position >> 4`. -/
def refL (position : RingAddr) : Byte := (position >>> 4).setWidth 8

/-- How many stream bytes a stream operation occupies (R107); a host command occupies none (R108). -/
def Instr.streamBytes : Instr → Nat
  | .flag _ => 1
  | .lit _ => 1
  | .ref _ _ => 2
  | .start _ _ _ => 0
  | .abort _ _ _ _ => 0

/-- The operation at the head of the wire bytes, given its kind (R91 to R94, R97). -/
def decodeStream : Due → List Byte → Except DecodeError Instr
  | _, [] => .error .noByte
  | .flag, b :: _ => .ok (.flag (mask b))
  | .lit, b :: _ => .ok (.lit (mask b))
  | .ref, [_] => .error .refCutShort
  | .ref, u :: l :: _ => .ok (.ref (refPosition (mask u) (mask l)) (refLength (mask u)))

/-- The command of a `CTRL` write (R52, R53, R108): bit 1 is ABORT and wins over bit 0, START. -/
def decodeCtrl (engine : Engine) (value : Word) : Except DecodeError Instr :=
  let unused := value.extractLsb' 3 29
  let ie := value.getLsbD 2
  if value.getLsbD 1 then .ok (.abort engine unused ie (value.getLsbD 0))
  else if value.getLsbD 0 then .ok (.start engine unused ie)
  else .error .noCommand

/-- The decoder, total. -/
def decode : Source → Except DecodeError Instr
  | .stream due wire => decodeStream due wire
  | .ctrl engine value => decodeCtrl engine value

/-- A `CTRL` word from its fields (R52, table rows START and ABORT). -/
def ctrlWord (unused : BitVec 29) (ie abortBit startBit : Bool) : Word :=
  unused ++ BitVec.ofBool ie ++ BitVec.ofBool abortBit ++ BitVec.ofBool startBit

/-- The encoder: what the spec says an instruction is stored or written as (R91, R92, R95, R97, R108). -/
def encode : Instr → Source
  | .flag kinds => .stream .flag [mask kinds]
  | .lit data => .stream .lit [mask data]
  | .ref position length => .stream .ref [mask (refU position length), mask (refL position)]
  | .start engine unused ie => .ctrl engine (ctrlWord unused ie false true)
  | .abort engine unused ie startBit => .ctrl engine (ctrlWord unused ie true startBit)

/-! ## The numbering of spec/opcode_table.json -/

/-- The table's patterns are logical bits (its field `wire`), and a REF's pattern is "U (bits 15:8) then L (bits 7:0) in
stream order": the wire bytes as stored, first byte first. Log entry 17. -/
def tableWire (nbits w : Nat) : List Byte :=
  if nbits = 8 then [mask (BitVec.ofNat 8 w)]
  else if nbits = 16 then [mask (BitVec.ofNat 8 (w / 256)), mask (BitVec.ofNat 8 w)]
  else []

/-- Which kind a stream word of that width is taken to be. FLAG and LIT have the same width and no fixed bit, so the
width cannot tell them apart; the first byte of every stream is a flag byte (R72, R131). Log entry 17. -/
def tableDue (nbits : Nat) : Due := if nbits = 16 then .ref else .flag

/-- The host's question: what the decoder reads from a table word. A 32-bit word is a write of `DEC.CTRL`. -/
def decodeTableWord (nbits w : Nat) : Option Instr :=
  let source : Source :=
    if nbits = 32 then .ctrl .dec (BitVec.ofNat 32 w) else .stream (tableDue nbits) (tableWire nbits w)
  match decode source with
  | .ok i => some i
  | .error _ => none

/-! ## The assembler of the stream notation (R105, R106) -/

/-- One line of a listing. `.end` needs no line: a listing is a finite list (R106). -/
inductive AsmLine where
  | lit (data : Byte)
  | ref (position : RingAddr) (length : BitVec 5)
  /-- `REFD distance, length`: position `(cursor_0 - distance) mod 4096`. -/
  | refd (distance : RingAddr) (length : BitVec 5)
  /-- `.flag byte`: the flag byte of the block that starts here. -/
  | forceFlag (kinds : Byte)
  /-- `.raw byte …`: logical bytes inserted verbatim; what that does to an open block is log entry 23. -/
  | raw (bytes : List Byte)
deriving DecidableEq, Repr

/-- The block being assembled: how many operations it has, its computed flag, the forced one, its bytes, what stands
before it, and the ring cursor the decoder will have here. -/
structure AsmState where
  count  : Nat
  kinds  : Byte
  forced : Option Byte
  bytes  : List Byte
  done   : List Byte
  cursor : RingAddr
deriving DecidableEq, Repr

/-- Closes the block that is open, if any: flag byte, then the operation bytes (R90, R91). -/
def AsmState.close (s : AsmState) : AsmState :=
  if s.count = 0 ∧ s.forced = none then s
  else { s with count := 0, kinds := 0, forced := none, bytes := [],
                done := s.done ++ s.forced.getD s.kinds :: s.bytes }

/-- Adds one operation: its kind bit goes to bit `7 - k` (R67, R91); the eighth closes the block. -/
def AsmState.push (s : AsmState) (isLit : Bool) (bytes : List Byte) (emitted : RingAddr) : AsmState :=
  let s' : AsmState :=
    { s with count := s.count + 1, bytes := s.bytes ++ bytes, cursor := s.cursor + emitted
             kinds := if isLit then s.kinds ||| (0x80#8 >>> s.count) else s.kinds }
  if s'.count = Config.opsPerBlock then s'.close else s'

/-- One line of the listing (R105, R106). DESIGN CHOICE: `.raw` closes a block that is open with a computed flag byte; after
`.flag` it adds its bytes to the open block and counts no operation (log entry 23). -/
def AsmState.line (s : AsmState) : AsmLine → AsmState
  | .lit data => s.push true [data] 1
  | .ref position length => s.push false [refU position length, refL position] (length.setWidth 12)
  | .refd distance length =>
    s.push false [refU (s.cursor - distance) length, refL (s.cursor - distance)] (length.setWidth 12)
  | .forceFlag kinds => { s.close with forced := some kinds }
  | .raw bytes =>
    if s.forced = none then { s.close with done := s.close.done ++ bytes }
    else { s with bytes := s.bytes ++ bytes }

/-- The logical bytes of a listing (`log:`). -/
def assembleLogical (lines : List AsmLine) : List Byte :=
  (lines.foldl AsmState.line ⟨0, 0, none, [], [], Config.cursorInit⟩).close.done

/-- The wire bytes of a listing (`wire:`). -/
def assemble (lines : List AsmLine) : List Byte := (assembleLogical lines).map mask

end Sys2Proof
end

