-- ==== Sys2Proof/Machine/State.lean ====
section
/-! DEFINITION. The state of the block as plain data: the two engines (10_state.md R20 to R51), the four host spaces they
read and write (20_memory.md R60), what the host is about to do, and why a step can stop. -/

namespace Sys2Proof.Machine

/-! ## Codes -/

/-- Run states (R21, R33, R218). -/
inductive RunState where
  | idle
  | init
  | run
  | done
  | fault
deriving DecidableEq, Repr

/-- Phases of DEC (R30). -/
inductive DecPhase where
  | guard
  | flag
  | bit
  | lit
  | refU
  | refL
  | copy
deriving DecidableEq, Repr

/-- Phases of ENC (R42). -/
inductive EncPhase where
  | guard
  | search
  | select
  | commit
  | pack
  | flush
deriving DecidableEq, Repr

/-- Fault causes held in `ERR` (R201). -/
inductive Cause where
  | none
  | unexpectedEnd
  | corrupt
  | roundTripMismatch
deriving DecidableEq, Repr

/-- Phase codes held in `ERRPH` (R206). -/
inductive FaultPhase where
  | none
  | atFlag
  | atLit
  | atRefU
  | atRefL
deriving DecidableEq, Repr

/-- The decision of phase SELECT, used by phase COMMIT (R166). -/
inductive Kind where
  | ref
  | lit
deriving DecidableEq, Repr

/-! ## Memory -/

/-- Bytes at indices, in canonical form: indices strictly rising (`Memory.wf`). An index that is not listed has been
written by nobody: it has no value (R63, 93 U15; log entry 19). -/
abbrev Memory := List Host.Cell

/-- What the cells of a ring hold that are not listed. -/
inductive RingFill where
  /-- The pre-seed: `0x20` each (R28, R121, R153). -/
  | seed
  /-- Unspecified content, the `n`-th one: a free value per cell (R28, R144, R241; log entry 6). -/
  | drawn (n : Nat)
deriving DecidableEq, Repr

/-- A ring buffer of 4096 bytes (R28, R36, R61), in canonical form: no listed cell holds what it would hold unlisted. -/
structure Ring where
  fill  : RingFill
  cells : Memory
deriving DecidableEq, Repr

/-! ## The decoder engine (R21 to R32) -/

structure Dec where
  /-- R21 -/
  st    : RunState
  /-- R22 -/
  p     : BitVec 32
  /-- R23 -/
  slen  : BitVec 40
  /-- R24, the program counter -/
  iptr  : BitVec 40
  /-- R25 -/
  ocnt  : BitVec 32
  /-- R26 -/
  flags : Byte
  /-- R27 -/
  fcnt  : BitVec 4
  /-- R28 -/
  ring  : Ring
  /-- R29 -/
  rcur  : RingAddr
  /-- R30 -/
  ph    : DecPhase
  /-- R31 -/
  u     : Byte
  /-- R31 -/
  l     : Byte
  /-- R31 -/
  pos   : RingAddr
  /-- R31 -/
  len   : BitVec 5
  /-- R31 -/
  ci    : BitVec 5
  /-- R32 -/
  err   : Cause
  /-- R32 -/
  errph : FaultPhase
  /-- R32 -/
  ie    : Bool
deriving DecidableEq, Repr

/-! ## The encoder engine (R33 to R51) -/

/-- A best-candidate register set (R39): `BV, BSCORE, BDIST, BLEN`, and likewise `NV, NSCORE, NDIST, NLEN`. -/
structure Best where
  valid : Bool
  score : BitVec 37
  dist  : BitVec 12
  len   : BitVec 5
deriving DecidableEq, Repr

/-- The shadow decoder `ENC.SD` of the self-check (R43, R182). -/
structure Shadow where
  dec      : Dec
  /-- R43: `SD.P = ENC.N`, as wide as `N` (log entry 9) -/
  p        : BitVec 33
  /-- the bytes it has emitted, as wide as `N` (log entry 9) -/
  count    : BitVec 33
  /-- R43: `SD.MISMATCH` -/
  mismatch : Bool
deriving DecidableEq, Repr

structure Enc where
  /-- R33 -/
  st     : RunState
  /-- R34 -/
  n      : BitVec 33
  /-- R34 -/
  spos   : BitVec 33
  /-- R35 -/
  optr   : BitVec 34
  /-- R36 -/
  ring   : Ring
  /-- R36 -/
  rcur   : RingAddr
  /-- R37 -/
  qn     : BitVec 4
  /-- R37 -/
  qflag  : Byte
  /-- R37 -/
  qb     : Vector Byte 16
  /-- R37 -/
  qbn    : BitVec 5
  /-- R38 -/
  litops : BitVec 33
  /-- R38 -/
  totops : BitVec 33
  /-- R39: `BV, BSCORE, BDIST, BLEN` -/
  best   : Best
  /-- R39: `BPOS` -/
  bpos   : RingAddr
  /-- R39: `NV, NSCORE, NDIST, NLEN` -/
  next   : Best
  /-- R166: the decision between SELECT and COMMIT (log entry 11) -/
  kind   : Kind
  /-- R41 -/
  err    : Cause
  /-- R41: always none -/
  errph  : FaultPhase
  /-- R41 -/
  ie     : Bool
  /-- R42 -/
  ph     : EncPhase
  /-- R43: present exactly in an engine built with SELFCHECK (log entry 8) -/
  shadow : Option Shadow
  /-- R44 -/
  tlr    : BitVec 17
  /-- R45 -/
  minlen : BitVec 5
  /-- R46 -/
  maxlen : BitVec 5
  /-- R47 -/
  depth  : BitVec 13
  /-- R48 -/
  lw     : Vector (BitVec 16) 16
  /-- R49 -/
  dw     : Vector (BitVec 16) 12
  /-- R50 -/
  lazy   : Bool
deriving DecidableEq, Repr

/-! ## What moves next (log entry 2) -/

/-- What the host can do to the block (R219, R227, R240, R245, R247). -/
inductive HostAction where
  /-- The hardware reset input (R240, R219). -/
  | hardwareReset
  /-- A register write (R52, R53). -/
  | write (engine : Engine) (offset : BitVec 16) (value : Word)
  /-- A register read (R52, R53, R58). -/
  | read (engine : Engine) (offset : BitVec 16)
  /-- The stream slice `S` is made available to DEC (R245). -/
  | bindStream (bytes : List Byte)
  /-- The pixel slice `X` is made available to ENC (R247). -/
  | bindPixels (bytes : List Byte)
deriving DecidableEq, Repr

/-- Who moves and how far. -/
inductive Event where
  /-- The host acts. -/
  | host (action : HostAction)
  /-- An engine takes one phase step (D4). -/
  | phase (engine : Engine)
  /-- DEC runs the whole operation that is due, the coarser step of D4. -/
  | operation
deriving DecidableEq, Repr

/-! ## The whole block -/

structure State where
  dec    : Dec
  enc    : Enc
  /-- `S`, the compressed stream slice, raw (wire) bytes (R62) -/
  inS    : List Byte
  /-- `O`, the decoded pixels (R63) -/
  outO   : Memory
  /-- `X`, the pixel slice (R64) -/
  inX    : List Byte
  /-- `Y`, the compressed stream written, raw (wire) bytes (R65) -/
  outY   : Memory
  /-- The model's own: what moves next, oldest first (log entry 2) -/
  agenda : List Event
  /-- The model's own: the word the last register read returned to the host (log entry 16) -/
  rdata  : Word
  /-- The model's own: how many free values have been drawn (log entry 5) -/
  draws  : Nat
deriving DecidableEq, Repr

/-! ## Why a step can stop -/

/-- Stops of the model. A fault of an ENGINE (`UnexpectedEnd`, `Corrupt`, `RoundTripMismatch`) is not among them: it is
a next state with `ST = FAULT` (R205). -/
inductive Fault where
  /-- Raised by a phase step of DEC in `RUN` whose registers hold values that no rule produces (93 U16, R59): the spec's
  "stuck" case. Safe: no run reaches it. -/
  | decOutOfRange
  /-- The same for ENC. Safe. -/
  | encOutOfRange
deriving DecidableEq, Repr

/-- What the spec says a model refuses, and instructions without a meaning. -/
inductive Refusal where
  /-- Answered by an arm of `exec` that has no meaning yet. Safe. -/
  | notModelled (mnemonic : String)
  /-- Answered by START of DEC, and by its phase steps, when `SLEN` is larger than the slice bound (93 U13, R255). Safe. -/
  | streamSliceTooShort
  /-- Answered by START of ENC, and by its phase steps, when `N` is larger than the slice bound (93 U13, R255). Safe. -/
  | pixelSliceTooShort
  /-- Answered by START of ENC when `N` is above 2^32 (R34, 93 U9). Safe. -/
  | pixelCountAboveLimit
  /-- Answered by a host that changes `S` or `X` during a run (93 U13, R78, R255). Safe. -/
  | sliceChangedDuringRun
  /-- Answered by a host access to an offset that R52 and R53 do not list (log entry 15). Safe. -/
  | noSuchRegister
deriving DecidableEq, Repr

/-! ## Reset -/

/-- DEC after hardware reset (R241); its ring holds the `n`-th unspecified content. -/
def Dec.reset (n : Nat) : Dec :=
  { st := .idle, p := 0, slen := 0, iptr := 0, ocnt := 0, flags := 0, fcnt := 0
    ring := ⟨.drawn n, []⟩, rcur := Config.cursorInit, ph := .guard
    u := 0, l := 0, pos := 0, len := 0, ci := 0, err := .none, errph := .none, ie := false }

/-- An empty best-candidate register set (R39, R242). -/
def Best.none : Best := { valid := false, score := 0, dist := 0, len := 0 }

/-- ENC after hardware reset (R242, R243); its ring holds the `n`-th unspecified content, `qb` the unspecified bytes of
`QB`, and `shadow` the shadow decoder, if there is one. -/
def Enc.reset (n : Nat) (qb : Vector Byte 16) (shadow : Option Shadow) : Enc :=
  { st := .idle, n := 0, spos := 0, optr := 0, ring := ⟨.drawn n, []⟩, rcur := Config.cursorInit
    qn := 0, qflag := 0, qb := qb, qbn := 0, litops := 0, totops := 0
    best := Best.none, bpos := 0, next := Best.none, kind := .ref
    err := .none, errph := .none, ie := false, ph := .guard, shadow := shadow
    tlr := 0, minlen := 3, maxlen := 18, depth := 4096
    lw := Vector.replicate 16 256, dw := Vector.replicate 12 256, lazy := false }

/-- The block after power-on, with or without the self-check (R9 `SELFCHECK`; log entries 5, 7, 8, 19). -/
def State.resetWith (selfCheck : Bool) : State :=
  { dec := Dec.reset 0
    enc := Enc.reset 1 (Vector.replicate 16 0) (if selfCheck then some ⟨Dec.reset 2, 0, 0, false⟩ else none)
    inS := [], outO := [], inX := [], outY := [], agenda := [], rdata := 0, draws := 3 }

/-- The machine right after reset. `SELFCHECK` is false, as D23 suggests (log entry 8). -/
def State.reset : State := State.resetWith false

end Sys2Proof.Machine
end

