-- ==== Sys2Proof/Machine/Ops.lean ====
section
/-! DEFINITION. The named operations over memory and registers that the meanings share: the byte spaces, the ring, Emit,
the stream fetch, free values, and taking a fault. -/

namespace Sys2Proof.Machine

/-! ## Byte spaces -/

/-- The canonical form of a space with `bits`-bit indices: indices strictly rising and inside the space (R60). -/
abbrev Memory.wf (bits : Nat) (m : Memory) : Prop :=
  m.Pairwise (fun a b => a.1 < b.1) ∧ ∀ c ∈ m, c.1 < 2 ^ bits

/-- The byte at an index, if anything has been written there. -/
def Memory.read : Memory → Nat → Option Byte
  | [], _ => none
  | (b, w) :: t, a => if a = b then some w else Memory.read t a

/-- Writes a byte, keeping the indices strictly rising. -/
def Memory.write : Memory → Nat → Byte → Memory
  | [], a, v => [(a, v)]
  | (b, w) :: t, a, v =>
    if a < b then (a, v) :: (b, w) :: t
    else if a = b then (a, v) :: t
    else (b, w) :: Memory.write t a v

/-- Takes an index off the list. -/
def Memory.erase : Memory → Nat → Memory
  | [], _ => []
  | (b, w) :: t, a => if a = b then t else (b, w) :: Memory.erase t a

/-- Consecutive bytes from an index on. -/
def Memory.writeAll : Memory → Nat → List Byte → Memory
  | m, _, [] => m
  | m, a, v :: vs => Memory.writeAll (m.write a v) (a + 1) vs

/-! ## The ring (R61) -/

/-- The ring that `INIT` leaves: every byte `0x20` (R121, R153, R244). -/
def Ring.seeded : Ring := ⟨.seed, []⟩

/-- What an unlisted ring cell holds: the pre-seed (R28), or a free value where the content is unspecified (R241). -/
def Ring.unlisted (r : Ring) (a : RingAddr) : Byte :=
  match r.fill with
  | .seed => Config.ringFill
  | .drawn n => Config.freeRingByte n a

/-- `MemRead(RING:a, 1)` (R15). -/
def Ring.read (r : Ring) (a : RingAddr) : Byte := (r.cells.read a.toNat).getD (r.unlisted a)

/-- `MemWrite(RING:a, 1, v)` (R15). A cell that gets what it would hold unlisted is taken off the list. -/
def Ring.write (r : Ring) (a : RingAddr) (v : Byte) : Ring :=
  if v = r.unlisted a then { r with cells := r.cells.erase a.toNat }
  else { r with cells := r.cells.write a.toNat v }

/-- The canonical form of a ring: 12-bit addresses strictly rising, and no cell listed that holds its unlisted value. -/
abbrev Ring.wf (r : Ring) : Prop :=
  Memory.wf 12 r.cells ∧ ∀ c ∈ r.cells, c.2 ≠ r.unlisted (BitVec.ofNat 12 c.1)

/-! ## Run states (R218, R219) -/

/-- The states in which the host may program and start the engine: `IDLE`, `DONE`, `FAULT` (R219). -/
def RunState.stopped : RunState → Bool
  | .idle => true
  | .done => true
  | .fault => true
  | .init => false
  | .run => false

/-- R210: `irq = IE and (ST = DONE or ST = FAULT)`. -/
def Dec.irq (d : Dec) : Bool := d.ie && (d.st == .done || d.st == .fault)

/-- R210 for ENC. -/
def Enc.irq (e : Enc) : Bool := e.ie && (e.st == .done || e.st == .fault)

/-! ## Taking a fault (R205), shared by both engines -/

/-- `raise K(ph)` in an engine (R205): the cause, the phase and `ST`, "and nothing else". There is no return from a fault:
the engine stays in `FAULT` until START (`Dec.init`, `Enc.init`) or ABORT (R211). -/
def raiseFault (engine : Engine) (cause : Cause) (phase : FaultPhase) (s : State) : State :=
  match engine with
  | .dec => { s with dec := { s.dec with err := cause, errph := phase, st := .fault } }
  | .enc => { s with enc := { s.enc with err := cause, errph := phase, st := .fault } }

/-! ## The stream (R62) -/

/-- The stream bytes DEC has not read yet: `S[IPTR .. SLEN)` (R24, R62). -/
def State.streamRest (s : State) : List Byte := (s.inS.take s.dec.slen.toNat).drop s.dec.iptr.toNat

/-- `IPTR = SLEN`: the test for exhaustion (R23). -/
def Dec.exhausted (d : Dec) : Bool := d.iptr == d.slen

/-- One byte consumed: `IPTR <- IPTR + 1` (R24, R142). -/
def Dec.advance (d : Dec) : Dec := { d with iptr := d.iptr + 1 }

/-! ## Emit (R129) -/

/-- The engine's half of `Emit(v)` (R129): the ring at the cursor, the count and the cursor. -/
def Dec.emit (v : Byte) (d : Dec) : Dec :=
  { d with ring := d.ring.write d.rcur v, ocnt := d.ocnt + 1, rcur := d.rcur + 1 }

/-- `Emit(v)` (R129), "the single place where output is produced". -/
def emit (v : Byte) (s : State) : State :=
  { s with outO := s.outO.write s.dec.ocnt.toNat v, dec := s.dec.emit v }

/-! ## The encoder's ring and output -/

/-- `RingWrite(b)` (R171). -/
def Enc.ringWrite (b : Byte) (e : Enc) : Enc := { e with ring := e.ring.write e.rcur b, rcur := e.rcur + 1 }

/-- `RingWrite` of several bytes in order (R168). -/
def Enc.ringWriteAll (bs : List Byte) (e : Enc) : Enc := bs.foldl (fun e b => e.ringWrite b) e

/-! ## Free values (93 Part 1) -/

/-- `k` values have been drawn. -/
def State.drew (k : Nat) (s : State) : State := { s with draws := s.draws + k }

/-- A DEC phase that is not specified (R144): one of the seven (93 U16). -/
def freeDecPhase (n : Nat) : DecPhase :=
  match (Config.freeUpTo 6 n).val with
  | 0 => .guard
  | 1 => .flag
  | 2 => .bit
  | 3 => .lit
  | 4 => .refU
  | 5 => .refL
  | _ => .copy

/-- An ENC phase that is not specified (R186): one of the six (93 U16). -/
def freeEncPhase (n : Nat) : EncPhase :=
  match (Config.freeUpTo 5 n).val with
  | 0 => .guard
  | 1 => .search
  | 2 => .select
  | 3 => .commit
  | 4 => .pack
  | _ => .flush

/-- A free register value of at most `m`, the bound the spec keeps (93 U16). -/
def freeWithin (w m n : Nat) : BitVec w := BitVec.ofNat w (Config.freeUpTo m n).val

/-- A free bit. -/
def freeBit (n : Nat) : Bool := (Config.freeBits 1 n).getLsbD 0

/-- A best-candidate register set that is not specified; it uses four draws (R186). -/
def freeBest (n : Nat) : Best :=
  { valid := freeBit n, score := Config.freeBits 37 (n + 1), dist := Config.freeBits 12 (n + 2)
    len := freeWithin 5 18 (n + 3) }

end Sys2Proof.Machine
end

