-- ==== Sys2Proof/Machine/Flags.lean ====
section
/-! DEFINITION. The format's flag bits (R54): the kind bits of a flag byte as DEC consumes them and as ENC builds them. -/

namespace Sys2Proof.Machine

/-- `rotl8(v, 1) = {v[6:0], v[7]}` (R15). -/
def rotl8 (v : Byte) : Byte := (v <<< 1) ||| (v >>> 7)

/-- The kind bit of the next operation, bit 7 of the flag register (R26, R124): true = LIT. -/
def Dec.kindBit (d : Dec) : Bool := d.flags.getLsbD 7

/-- The flag register and the counter after a kind bit is taken (R124). -/
def Dec.takeKindBit (d : Dec) : Dec := { d with flags := rotl8 d.flags, fcnt := d.fcnt - 1 }

/-- The flag register and the counter after a flag byte is loaded (R123). -/
def Dec.loadKindBits (kinds : Byte) (d : Dec) : Dec := { d with flags := kinds, fcnt := 8 }

/-- The kind bit of the `k`-th pending operation set in the flag byte under construction:
`QFLAG | (1 << (7 - QN))` (R167, R169). -/
def setKindBit (qflag : Byte) (qn : BitVec 4) : Byte := qflag ||| (1#8 <<< (7 - qn.toNat))

end Sys2Proof.Machine
end

