-- ==== Sys2Proof/Machine/Operands.lean ====
section
/-! DEFINITION. The operands of a REF as DEC uses them (R94, R126 to R128, R135, R137), the distance (R96), and the
operands of ENC's search: effective configuration (R51), replay and match length (R155, R156), validity (R157), score
(R160 to R162), best candidate (R163), ratio bias (R164) and lazy rule (R165). -/

namespace Sys2Proof.Machine

/-! ## REF in DEC -/

/-- `distance = (cursor_0 - position) mod 4096` (R96). -/
def distance (cursor position : RingAddr) : BitVec 12 := cursor - position

/-- The first byte of a REF latched (R127, REFU). -/
def Dec.latchU (u : Byte) (d : Dec) : Dec := { d.advance with u := u, ph := .refL }

/-- The second byte latched and both fields unpacked (R127, REFL). -/
def Dec.latchL (l : Byte) (d : Dec) : Dec :=
  { d.advance with l := l, len := refLength d.u, pos := refPosition d.u l, ci := 0, ph := .copy }

/-- The byte the copy reads next: `RING[(POS + CI) mod 4096]` (R128, R135). -/
def Dec.copySource (d : Dec) : Byte := d.ring.read (d.pos + d.ci.setWidth 12)

/-- The engine's half of one copied byte (R128). -/
def Dec.copyByte (d : Dec) : Dec :=
  let d' := d.emit d.copySource
  { d' with ci := d'.ci + 1 }

/-- `CI = LEN or OCNT = P`: the copy is over (R128). -/
def Dec.copyDone (d : Dec) : Bool := d.ci == d.len || d.ocnt == d.p

/-- How many bytes a REF copies: `n <- min(length, P - OCNT)` (R126, clip of R137). -/
def Dec.copyCount (d : Dec) : Nat := min d.len.toNat (d.p.toNat - d.ocnt.toNat)

/-- One byte copied: the read first, then `Emit`, then `CI <- CI + 1` (R74, R128). -/
def copyByte (s : State) : State :=
  let s' := emit s.dec.copySource s
  { s' with dec := { s'.dec with ci := s'.dec.ci + 1 } }

/-- `k` bytes copied one after another, each read seeing every earlier write (R126, R249). -/
def copyBytes : Nat → State → State
  | 0, s => s
  | k + 1, s => copyBytes k (copyByte s)

/-! ## ENC: effective configuration (R51) -/

/-- `MINLEN_eff = max(MINLEN, 3)`. -/
def Enc.minLenEff (e : Enc) : Nat := max e.minlen.toNat 3

/-- `MAXLEN_eff = min(MAXLEN, 18)`. -/
def Enc.maxLenEff (e : Enc) : Nat := min e.maxlen.toNat 18

/-- `DEPTH_eff = min(DEPTH, 4095)`. -/
def Enc.depthEff (e : Enc) : Nat := min e.depth.toNat 4095

/-! ## ENC: replay and match length -/

/-- R155: the `i`-th byte a decoder would emit for distance `d` from ring `r` and cursor `c`. `e[i] = e[i - d]` for
`i >= d`, so the ring byte read is the one at offset `i mod d` from the position. -/
def replayByte (r : Ring) (c : RingAddr) (d i : Nat) : Byte :=
  r.read (c - BitVec.ofNat 12 d + BitVec.ofNat 12 (i % d))

/-- The leading bytes of `xs` that the replay reproduces from index `i` on, at most `lim` of them (R156). -/
def matchFrom (r : Ring) (c : RingAddr) (d : Nat) : List Byte → Nat → Nat → Nat
  | _, _, 0 => 0
  | [], _, _ + 1 => 0
  | x :: xs, i, lim + 1 => if replayByte r c d i = x then matchFrom r c d xs (i + 1) lim + 1 else 0

/-- `L(d)` (R156), `xs` being the input from the source position on. -/
def matchLength (r : Ring) (c : RingAddr) (d : Nat) (xs : List Byte) (lim : Nat) : Nat :=
  matchFrom r c d xs 0 lim

/-! ## ENC: score -/

/-- `band(d) = floor_log2(d)`, 0 to 11 (R161). -/
def band (d : Nat) : Fin 12 := ⟨min (Nat.log2 d) 11, by omega⟩

/-- `ENC.LW[l - 3]`, the weight of length `l` (R48). DESIGN CHOICE: the index of a length outside 3 to 18, which no valid
candidate has, is clamped to the table (log entry 22). -/
def Enc.lengthWeight (e : Enc) (l : Nat) : BitVec 16 := e.lw[min (l - 3) 15]'(by omega)

/-- `ENC.DW[band(d)]`, the weight of distance `d` (R49). -/
def Enc.distanceWeight (e : Enc) (d : Nat) : BitVec 16 := e.dw[(band d).val]'(band d).isLt

/-- `score(d, l) = l * LW[l - 3] * DW[band(d)]`, below 2^37 (R162). -/
def Enc.score (e : Enc) (d l : Nat) : BitVec 37 :=
  BitVec.ofNat 37 (l * (e.lengthWeight l).toNat * (e.distanceWeight d).toNat)

/-! ## ENC: the match table and the best candidate -/

/-- One entry of the match table `MT[d]` (R40, R159). -/
structure MatchEntry where
  len   : Nat
  valid : Bool
  score : BitVec 37
deriving DecidableEq, Repr

/-- `MT[d] = (L(d), L(d) >= MINLEN_eff, score)` for a ring, a cursor, the remaining input and its cap (R157, R159). DESIGN
CHOICE: where the entry is not valid, and R40 gives no score, it is what `Enc.score` computes there (log entry 22). -/
def Enc.matchEntry (e : Enc) (r : Ring) (c : RingAddr) (xs : List Byte) (lim d : Nat) : MatchEntry :=
  let l := matchLength r c d xs lim
  { len := l, valid := decide (e.minLenEff ≤ l), score := e.score d l }

/-- One probe of the scan: a valid candidate replaces the best one if there is none or its score is strictly greater
(R163). -/
def Best.probe (b : Best) (d : Nat) (m : MatchEntry) : Best :=
  if m.valid && (!b.valid || decide (b.score < m.score)) then
    { valid := true, score := m.score, dist := BitVec.ofNat 12 d, len := BitVec.ofNat 5 m.len }
  else b

/-- The best candidate: distances `1 .. DEPTH_eff` in ascending order (R158, R163). -/
def Enc.bestCandidate (e : Enc) (r : Ring) (c : RingAddr) (xs : List Byte) (lim : Nat) : Best :=
  (List.range' 1 e.depthEff).foldl (fun b d => b.probe d (e.matchEntry r c xs lim d)) Best.none

/-- `lim = min(MAXLEN_eff, N - s)` (R156). -/
def Enc.matchLimit (e : Enc) (s : Nat) : Nat := min e.maxLenEff (e.n.toNat - s)

/-- The best candidate at the source position (R155 to R163). -/
def Enc.bestHere (e : Enc) (x : List Byte) : Best :=
  e.bestCandidate e.ring e.rcur (x.drop e.spos.toNat) (e.matchLimit e.spos.toNat)

/-! ## ENC: ratio bias and lazy rule -/

/-- `below = (LITOPS * 65536 < TLR * TOTOPS)` (R164). -/
def Enc.below (e : Enc) : Bool := decide (e.litops.toNat * 65536 < e.tlr.toNat * e.totops.toNat)

/-- When the lazy rule is evaluated, given the best candidate at `s` (R165). -/
def Enc.lazyApplies (e : Enc) (b : Best) : Bool :=
  e.lazy && b.valid && !e.below && decide (b.len.toNat < e.maxLenEff) && decide (e.spos.toNat + 1 < e.n.toNat)

/-- The best candidate at `s + 1` on the ring as it would be after a literal `X[s]` (R165). The real ring is not written. -/
def Enc.bestNext (e : Enc) (x : List Byte) : Best :=
  match x.drop e.spos.toNat with
  | [] => Best.none
  | b :: xs => e.bestCandidate (e.ring.write e.rcur b) (e.rcur + 1) xs (e.matchLimit (e.spos.toNat + 1))

/-- `defer = (NV = 1 and NSCORE > BSCORE)` where the lazy rule is evaluated (R165). -/
def Enc.defer (e : Enc) : Bool :=
  e.lazyApplies e.best && e.next.valid && decide (e.best.score < e.next.score)

/-- The ordered rule set of SELECT, first match wins (R166). -/
def Enc.decision (e : Enc) : Kind :=
  if !e.best.valid then .lit
  else if e.below then .lit
  else if e.defer then .lit
  else .ref

end Sys2Proof.Machine
end

