-- ==== Sys2Proof/Machine/DecoderOps.lean ====
section
/-! DEFINITION. The stream operations FLAG, LIT and REF as DEC executes them, and the phase steps of DEC that execute no
operation whole (40_decoder_ops.md R121 to R132). -/

namespace Sys2Proof.Machine

/-! ## Phase steps inside DEC -/

/-- START initialisation, the action of `INIT` (R121, R241, R244): everything but `P`, `SLEN` and `IE`. -/
def Dec.init (d : Dec) : Dec :=
  { d with ring := Ring.seeded, rcur := Config.cursorInit, iptr := 0, ocnt := 0, flags := 0, fcnt := 0, ph := .guard
           u := 0, l := 0, pos := 0, len := 0, ci := 0, err := .none, errph := .none, st := .run }

/-- Phase GUARD (R122, R130): the count test comes before any stream access. -/
def Dec.guardStep (d : Dec) : Dec :=
  if d.ocnt = d.p then { d with st := .done }
  else if d.fcnt = 0 then { d with ph := .flag }
  else { d with ph := .bit }

/-- Phase FLAG once the byte is there (R123). -/
def Dec.loadFlag (kinds : Byte) (d : Dec) : Dec := { d.advance.loadKindBits kinds with ph := .bit }

/-- Phase BIT (R124). -/
def Dec.bitStep (d : Dec) : Dec := { d.takeKindBit with ph := if d.kindBit then .lit else .refU }

/-- Phase COPY (R128), one byte or the exit. -/
def copyStep (s : State) : State :=
  if s.dec.copyDone then { s with dec := { s.dec with ph := .guard } } else copyByte s

/-! ## FLAG (R131) -/

/-- `FLAG` (R123, R131): the eight kind bits are loaded; nothing is emitted. -/
def execFlag (kinds : Byte) (s : State) : Host.Outcome State Fault Refusal :=
  if s.dec.exhausted then .next (raiseFault .dec .unexpectedEnd .atFlag s)
  else .next { s with dec := s.dec.loadFlag kinds }

/-! ## LIT (R132) -/

/-- A literal once its byte is there (R125): `IPTR + 1`, `Emit(data)`, back to GUARD. -/
def literal (data : Byte) (s : State) : State :=
  let s' := emit data { s with dec := s.dec.advance }
  { s' with dec := { s'.dec with ph := .guard } }

/-- `LIT` (R125, R132). -/
def execLit (data : Byte) (s : State) : Host.Outcome State Fault Refusal :=
  if s.dec.exhausted then .next (raiseFault .dec .corrupt .atLit s)
  else .next (literal data s)

/-! ## REF (R126) -/

/-- The whole copy of a REF whose bytes are latched (R126, R137): `min(LEN, P - OCNT)` bytes, then back to GUARD. -/
def copyAll (s : State) : State :=
  let s' := copyBytes s.dec.copyCount s
  { s' with dec := { s'.dec with ph := .guard } }

/-- `REF` (R126): `U` is consumed first; if `L` is missing then, `U` stays consumed and latched (R127, R207). -/
def execRef (position : RingAddr) (length : BitVec 5) (s : State) : Host.Outcome State Fault Refusal :=
  if s.dec.exhausted then .next (raiseFault .dec .corrupt .atRefU s)
  else
    let s₁ : State := { s with dec := s.dec.latchU (refU position length) }
    if s₁.dec.exhausted then .next (raiseFault .dec .corrupt .atRefL s₁)
    else .next (copyAll { s₁ with dec := s₁.dec.latchL (refL position) })

end Sys2Proof.Machine
end

