-- ==== Sys2Proof/Machine/ShadowOps.lean ====
section
/-! DEFINITION. The shadow decoder of the self-check (R43, R182, R204): DEC's rules applied to each byte ENC writes to `Y`,
with `P = N`, comparing each byte emitted with `X`. Log entry 9. -/

namespace Sys2Proof.Machine

/-- START initialisation of the shadow decoder with `P = N` (R153, R242). -/
def Shadow.init (n : BitVec 33) (sh : Shadow) : Shadow :=
  { dec := { sh.dec.init with slen := 0, p := n.setWidth 32 }, p := n, count := 0, mismatch := false }

/-- Every byte wanted has been emitted: `OCNT = P` (R122, R128). -/
def Shadow.complete (sh : Shadow) : Bool := sh.count == sh.p

/-- `Emit(v)` (R129), with the comparison of R182: the `k`-th byte against `X[k]`. -/
def Shadow.emit (x : List Byte) (v : Byte) (sh : Shadow) : Shadow :=
  { sh with dec := sh.dec.emit v, count := sh.count + 1
            mismatch := sh.mismatch || (x[sh.count.toNat]? != some v) }

/-- A step that needs no stream byte (R122, R124, R128), or none if a byte is due or the shadow does not run. -/
def Shadow.quietStep (x : List Byte) (sh : Shadow) : Option Shadow :=
  if sh.dec.st = .run then
    match sh.dec.ph with
    | .guard =>
      if sh.complete then some { sh with dec := { sh.dec with st := .done } }
      else if sh.dec.fcnt = 0 then some { sh with dec := { sh.dec with ph := .flag } }
      else some { sh with dec := { sh.dec with ph := .bit } }
    | .bit => some { sh with dec := sh.dec.bitStep }
    | .copy =>
      if sh.dec.ci == sh.dec.len || sh.complete then some { sh with dec := { sh.dec with ph := .guard } }
      else
        let sh' := sh.emit x sh.dec.copySource
        some { sh' with dec := { sh'.dec with ci := sh'.dec.ci + 1 } }
    | .flag => none
    | .lit => none
    | .refU => none
    | .refL => none
  else none

/-- The shadow runs until it needs a byte or is done; between two bytes it takes at most 21 steps (18 copied bytes, the
exit of COPY, GUARD, BIT). -/
def Shadow.settle (x : List Byte) : Nat → Shadow → Shadow
  | 0, sh => sh
  | k + 1, sh =>
    match sh.quietStep x with
    | some sh' => Shadow.settle x k sh'
    | none => sh

/-- More steps than the shadow takes between two bytes. -/
def Shadow.fuel : Nat := 24

/-- The byte that is due is consumed (R123, R125, R127); a shadow that is done reads no further byte (R102). -/
def Shadow.consume (x : List Byte) (raw : Byte) (sh : Shadow) : Shadow :=
  if sh.dec.st = .run then
    match sh.dec.ph with
    | .flag => { sh with dec := sh.dec.loadFlag (mask raw) }
    | .lit =>
      let sh' := Shadow.emit x (mask raw) { sh with dec := sh.dec.advance }
      { sh' with dec := { sh'.dec with ph := .guard } }
    | .refU => { sh with dec := sh.dec.latchU (mask raw) }
    | .refL => { sh with dec := sh.dec.latchL (mask raw) }
    | .guard => sh
    | .bit => sh
    | .copy => sh
  else sh

/-- One byte of `Y` is fed to the shadow (R170, R182): its stream grows by that byte. -/
def Shadow.feed (x : List Byte) (sh : Shadow) (raw : Byte) : Shadow :=
  let sh₁ := sh.settle x Shadow.fuel
  let sh₂ : Shadow := { sh₁ with dec := { sh₁.dec with slen := sh₁.dec.slen + 1 } }
  (sh₂.consume x raw).settle x Shadow.fuel

/-- The bytes of a block are fed in order. -/
def Shadow.feedAll (x : List Byte) (raws : List Byte) (sh : Shadow) : Shadow :=
  raws.foldl (Shadow.feed x) sh

/-- The condition of FLUSH (R173, R182): no mismatch, and `DONE` with `IPTR = OPTR`. -/
def Shadow.passes (optr : BitVec 34) (sh : Shadow) : Bool :=
  !sh.mismatch && sh.dec.st == .done && sh.dec.iptr.toNat == optr.toNat

end Sys2Proof.Machine
end

