-- ==== Sys2Proof/Machine/Commands.lean ====
section
/-! DEFINITION. The two host commands START and ABORT (R108, R121, R144, R153, R186, R219), the initialisation of ENC, and
the hardware reset (R240 to R243). -/

namespace Sys2Proof.Machine

/-! ## Initialisation of ENC (R153) -/

/-- START initialisation of ENC, the action of its `INIT` (R153, R242): everything but `N`, `IE` and the configuration.
`qb` is the unspecified content of `QB` (R37). -/
def Enc.init (qb : Vector Byte 16) (e : Enc) : Enc :=
  { e with ring := Ring.seeded, rcur := Config.cursorInit, spos := 0, optr := 0, qn := 0, qflag := 0, qb := qb, qbn := 0
           litops := 0, totops := 0, best := Best.none, bpos := 0, next := Best.none, kind := .ref, ph := .guard
           err := .none, errph := .none, shadow := e.shadow.map (Shadow.init e.n), st := .run }

/-! ## What ABORT leaves (R144, R186, 93 U11) -/

/-- How many values an ABORT of DEC draws. -/
def Dec.abortDraws : Nat := 12

/-- DEC after ABORT: `ST = IDLE`; `ERR`, `ERRPH`, `IE`, `P`, `SLEN` exact; everything else unspecified. -/
def Dec.abort (n : Nat) (d : Dec) : Dec :=
  { d with st := .idle, iptr := Config.freeBits 40 n, ocnt := Config.freeBits 32 (n + 1), flags := Config.freeBits 8 (n + 2)
           fcnt := freeWithin 4 8 (n + 3), ring := ⟨.drawn (n + 4), []⟩, rcur := Config.freeBits 12 (n + 5)
           ph := freeDecPhase (n + 6), u := Config.freeBits 8 (n + 7), l := Config.freeBits 8 (n + 8)
           pos := Config.freeBits 12 (n + 9), len := freeWithin 5 18 (n + 10), ci := freeWithin 5 18 (n + 11) }

/-- A run state that is not specified: one of the five (93 U16). -/
def freeRunState (n : Nat) : RunState :=
  match (Config.freeUpTo 4 n).val with
  | 0 => .idle
  | 1 => .init
  | 2 => .run
  | 3 => .done
  | _ => .fault

/-- The shadow decoder after an ABORT of ENC: nothing of it is specified but `P = N` (R43). -/
def Shadow.abort (n : Nat) (sh : Shadow) : Shadow :=
  { sh with dec := { sh.dec.abort n with st := freeRunState (n + 12), slen := Config.freeBits 40 (n + 13) }
            count := Config.freeBits 33 (n + 14), mismatch := freeBit (n + 15) }

/-- How many values an ABORT of ENC draws. -/
def Enc.abortDraws : Nat := 37

/-- ENC after ABORT: `ST = IDLE`; `ERR`, `ERRPH`, `IE`, `N` and the configuration exact; everything else unspecified. -/
def Enc.abort (n : Nat) (e : Enc) : Enc :=
  { e with st := .idle, spos := Config.freeBits 33 n, optr := Config.freeBits 34 (n + 1), ring := ⟨.drawn (n + 2), []⟩
           rcur := Config.freeBits 12 (n + 3), qn := freeWithin 4 8 (n + 4), qflag := Config.freeBits 8 (n + 5)
           qb := Config.freeQueue (n + 6), qbn := freeWithin 5 16 (n + 7), litops := Config.freeBits 33 (n + 8)
           totops := Config.freeBits 33 (n + 9), best := freeBest (n + 10), bpos := Config.freeBits 12 (n + 14)
           next := freeBest (n + 15), kind := if freeBit (n + 19) then .lit else .ref, ph := freeEncPhase (n + 20)
           shadow := e.shadow.map (Shadow.abort (n + 21)) }

/-! ## The commands -/

/-- `IE` is stored by every write of `CTRL` (R52, R53, table rows START and ABORT; log entry 4). -/
def setIe (engine : Engine) (ie : Bool) (s : State) : State :=
  match engine with
  | .dec => { s with dec := { s.dec with ie := ie } }
  | .enc => { s with enc := { s.enc with ie := ie } }

/-- START of DEC (R121, R219): accepted in a stopped engine, ignored in `INIT` and `RUN`; a launch with `SLEN` beyond the
slice is refused (93 U13; log entry 13). -/
def startDec (s : State) : Host.Outcome State Fault Refusal :=
  if s.dec.st.stopped then
    if s.inS.length < s.dec.slen.toNat then .refused .streamSliceTooShort
    else .next { s with dec := { s.dec with st := .init } }
  else .next s

/-- START of ENC (R153, R219); a launch with `N` above 2^32 (R34) or beyond the slice (93 U13) is refused. -/
def startEnc (s : State) : Host.Outcome State Fault Refusal :=
  if s.enc.st.stopped then
    if 2 ^ 32 < s.enc.n.toNat then .refused .pixelCountAboveLimit
    else if s.inX.length < s.enc.n.toNat then .refused .pixelSliceTooShort
    else .next { s with enc := { s.enc with st := .init } }
  else .next s

/-- `START` (R108, R219). The unused bits are ignored (R52). -/
def execStart (engine : Engine) (_unused : BitVec 29) (ie : Bool) (s : State) : Host.Outcome State Fault Refusal :=
  match engine with
  | .dec => startDec (setIe .dec ie s)
  | .enc => startEnc (setIe .enc ie s)

/-- ABORT of an engine (R144, R186, R219), from any state. -/
def abortEngine (engine : Engine) (s : State) : State :=
  match engine with
  | .dec => { s with dec := s.dec.abort s.draws, draws := s.draws + Dec.abortDraws }
  | .enc => { s with enc := s.enc.abort s.draws, draws := s.draws + Enc.abortDraws }

/-- `ABORT` (R108, R219). The unused bits and the START bit are ignored. -/
def execAbort (engine : Engine) (_unused : BitVec 29) (ie : Bool) (_startBit : Bool) (s : State) :
    Host.Outcome State Fault Refusal :=
  .next (abortEngine engine (setIe engine ie s))

/-! ## Hardware reset (R240 to R243) -/

/-- The reset input: both engines to their reset values, the rings and `QB` unspecified. The host's spaces are not
part of the block (R57) and stay. -/
def hardwareReset (s : State) : State :=
  { s with dec := Dec.reset s.draws
           enc := Enc.reset (s.draws + 1) (Config.freeQueue (s.draws + 2))
             (s.enc.shadow.map fun _ => ⟨Dec.reset (s.draws + 3), 0, 0, false⟩)
           draws := s.draws + 4 }

end Sys2Proof.Machine
end

