-- ==== Sys2Proof/Machine/Dispatch.lean ====
section
/-! DEFINITION. One arm per constructor of `Instr`, each one call of the instruction's meaning. -/

namespace Sys2Proof.Machine

def exec (i : Instr) (s : State) : Host.Outcome State Fault Refusal :=
  match i with
  | .flag kinds => Sys2Proof.Machine.execFlag kinds s
  | .lit data => Sys2Proof.Machine.execLit data s
  | .ref position length => Sys2Proof.Machine.execRef position length s
  | .start engine unused ie => Sys2Proof.Machine.execStart engine unused ie s
  | .abort engine unused ie startBit => Sys2Proof.Machine.execAbort engine unused ie startBit s

end Sys2Proof.Machine
end

