-- ==== Sys2Proof/Machine/EncoderOps.lean ====
section
/-! DEFINITION. The phase steps of ENC (41_encoder_ops.md R154 to R174): search, selection, commit of LIT and REF, block
emission and flush. -/

namespace Sys2Proof.Machine

/-! ## GUARD, SEARCH, SELECT -/

/-- Phase GUARD (R154). -/
def Enc.guardStep (e : Enc) : Enc := if e.spos = e.n then { e with ph := .flush } else { e with ph := .search }

/-- Phase SEARCH (R159, R163, R165): the best candidate here, and, where the lazy rule is evaluated, the best one at
`s + 1`; the ring is not written (R253). Log entry 12. -/
def Enc.searchStep (x : List Byte) (e : Enc) : Enc :=
  let b := e.bestHere x
  { e with best := b, bpos := e.rcur - b.dist, next := if e.lazyApplies b then e.bestNext x else Best.none, ph := .select }

/-- Phase SELECT (R166). -/
def Enc.selectStep (e : Enc) : Enc := { e with kind := e.decision, ph := .commit }

/-! ## COMMIT -/

/-- Logical bytes put at the end of the pending bytes (R167, R168). -/
def Enc.pushByte (b : Byte) (e : Enc) : Enc := { e with qb := e.qb.setIfInBounds e.qbn.toNat b, qbn := e.qbn + 1 }

/-- After a commit: PACK when the eighth operation is pending, else GUARD (R167, R168). -/
def Enc.afterCommit (e : Enc) : Enc := { e with ph := if e.qn = 8 then .pack else .guard }

/-- COMMIT of a LIT of byte `b = X[s]` (R167). -/
def Enc.commitLit (b : Byte) (e : Enc) : Enc :=
  let e₁ := ({ e with qflag := setKindBit e.qflag e.qn }.pushByte b).ringWrite b
  { e₁ with qn := e₁.qn + 1, spos := e₁.spos + 1, litops := e₁.litops + 1, totops := e₁.totops + 1 }.afterCommit

/-- COMMIT of the REF `(BPOS, BLEN)` that covers the input bytes `bs` (R168). Its kind bit 0 stays 0. -/
def Enc.commitRef (bs : List Byte) (e : Enc) : Enc :=
  let e₁ := (((e.pushByte (refU e.bpos e.best.len)).pushByte (refL e.bpos)).ringWriteAll bs)
  { e₁ with qn := e₁.qn + 1, spos := e₁.spos + e.best.len.setWidth 33, totops := e₁.totops + 1 }.afterCommit

/-- The input bytes from the source position on (R64). -/
def State.pixelRest (s : State) : List Byte := s.inX.drop s.enc.spos.toNat

/-- Phase COMMIT (R167, R168). -/
def commitStep (s : State) : Host.Outcome State Fault Refusal :=
  match s.enc.kind with
  | .lit =>
    match s.pixelRest with
    | b :: _ => .next { s with enc := s.enc.commitLit b }
    | [] => .refused .pixelSliceTooShort
  | .ref =>
    if s.pixelRest.length < s.enc.best.len.toNat then .refused .pixelSliceTooShort
    else .next { s with enc := s.enc.commitRef (s.pixelRest.take s.enc.best.len.toNat) }

/-! ## PACK and FLUSH -/

/-- The wire bytes of the pending block: the flag byte, then the bytes in use, each masked (R170, R173). -/
def Enc.blockWire (e : Enc) : List Byte := (e.qflag :: e.qb.toList.take e.qbn.toNat).map mask

/-- The queue emptied; `QB` is unspecified then (R37, 93 U14; log entry 7). -/
def Enc.clearQueue (qb : Vector Byte 16) (e : Enc) : Enc := { e with qn := 0, qflag := 0, qb := qb, qbn := 0 }

/-- Block emission (R170, R173): the bytes go to `Y` in order, and to the shadow decoder if there is one (R182). -/
def writeBlock (s : State) : State :=
  let ws := s.enc.blockWire
  let e₁ : Enc :=
    { s.enc with optr := s.enc.optr + BitVec.ofNat 34 ws.length, shadow := s.enc.shadow.map (Shadow.feedAll s.inX ws) }
  { s with outY := s.outY.writeAll s.enc.optr.toNat ws, enc := e₁.clearQueue (Config.freeQueue s.draws)
           draws := s.draws + 1 }

/-- Phase PACK (R170). -/
def packStep (s : State) : State :=
  let s' := writeBlock s
  { s' with enc := { s'.enc with ph := .guard } }

/-- The shadow decoder after the last byte (R173, R182). -/
def Shadow.finish (x : List Byte) (sh : Shadow) : Shadow := sh.settle x Shadow.fuel

/-- The self-check of FLUSH (R182): passed where there is no shadow decoder. -/
def selfCheckPasses (s : State) : Bool :=
  match s.enc.shadow with
  | some sh => (sh.finish s.inX).passes s.enc.optr
  | none => true

/-- Phase FLUSH (R173): the partial block, the self-check, `DONE`. A failed check raises `RoundTripMismatch`, and then
"the step's other effects do not happen" (R205; log entry 10). -/
def flushStep (s : State) : State :=
  let s' := if s.enc.qn = 0 then s else writeBlock s
  if selfCheckPasses s' then
    { s' with enc := { s'.enc with shadow := s'.enc.shadow.map (Shadow.finish s'.inX), st := .done } }
  else raiseFault .enc .roundTripMismatch .none s

end Sys2Proof.Machine
end

