-- ==== Sys2Proof/Machine/Registers.lean ====
section
/-! DEFINITION. The 32-bit register interface (R52, R53): reads with the rule of R58, writes with the gating of R51, R209
and R219, and `CTRL` writes, which are the instructions START and ABORT (R108). -/

namespace Sys2Proof.Machine

/-! ## Codes and packing -/

/-- R21. -/
def RunState.code : RunState → Word
  | .idle => 0
  | .init => 1
  | .run => 2
  | .done => 3
  | .fault => 4

/-- R30. -/
def DecPhase.code : DecPhase → Word
  | .guard => 0
  | .flag => 1
  | .bit => 2
  | .lit => 3
  | .refU => 4
  | .refL => 5
  | .copy => 6

/-- R42. -/
def EncPhase.code : EncPhase → Word
  | .guard => 0
  | .search => 1
  | .select => 2
  | .commit => 3
  | .pack => 4
  | .flush => 5

/-- R201. -/
def Cause.code : Cause → Word
  | .none => 0
  | .unexpectedEnd => 1
  | .corrupt => 2
  | .roundTripMismatch => 3

/-- R206. -/
def FaultPhase.code : FaultPhase → Word
  | .none => 0
  | .atFlag => 1
  | .atLit => 2
  | .atRefU => 3
  | .atRefL => 4

/-- A field of a register word, its lowest bit at `lo`; "unused upper bits read 0" (R52). -/
def field {w : Nat} (v : BitVec w) (lo : Nat) : Word := v.setWidth 32 <<< lo

/-- The exact part of `STATUS`: `[2:0]` ST, `[6:4]` ERR, `[10:8]` ERRPH (R52, R53). -/
def statusWord (st : RunState) (err : Cause) (errph : FaultPhase) : Word :=
  field st.code 0 ||| field err.code 4 ||| field errph.code 8

/-- `CTRL` "reads 0 except IE" (R52). -/
def ctrlRead (ie : Bool) : Word := field (BitVec.ofBool ie) 2

/-- R58: a working register reads its value in a stopped engine; in `INIT` and `RUN` its bits (`bits` has a 1 at each)
are a fresh draw (93 U12). -/
def working (st : RunState) (draw bits value : Word) : Word := if st.stopped then value else draw &&& bits

/-- The ring window: offsets `0x1000` to `0x1FFF` (R52, R53). -/
def ringWindow (offset : Nat) : Option RingAddr :=
  if 0x1000 ≤ offset ∧ offset ≤ 0x1FFF then some (BitVec.ofNat 12 (offset - 0x1000)) else none

/-- The index `j` of the register at `base + 4 * j`, `j` below `count` (R53). -/
def tableIndex (base count offset : Nat) : Option (Fin count) :=
  if h : base ≤ offset ∧ offset % 4 = base % 4 ∧ (offset - base) / 4 < count then some ⟨(offset - base) / 4, h.2.2⟩
  else none

/-! ## Reads -/

/-- What a host read of a DEC register returns (R52, R58), or none where the map has no register. -/
def Dec.readReg (d : Dec) (draw : Word) (offset : Nat) : Option Word :=
  let pick := working d.st draw
  match offset with
  | 0x00 => some (ctrlRead d.ie)
  | 0x04 => some (statusWord d.st d.err d.errph ||| pick 0x00007000 (field d.ph.code 12))
  | 0x08 => some d.p
  | 0x0C => some (d.slen.extractLsb' 0 32)
  | 0x10 => some (field (d.slen.extractLsb' 32 8) 0)
  | 0x14 => some (pick 0xFFFFFFFF (d.iptr.extractLsb' 0 32))
  | 0x18 => some (pick 0x000000FF (field (d.iptr.extractLsb' 32 8) 0))
  | 0x1C => some (pick 0xFFFFFFFF d.ocnt)
  | 0x20 => some (pick 0x00000FFF (field d.rcur 0))
  | 0x24 => some (pick 0x00000FFF (field d.flags 0 ||| field d.fcnt 8))
  | 0x28 => some (pick 0x1F1F0FFF (field d.pos 0 ||| field d.len 16 ||| field d.ci 24))
  | 0x2C => some (pick 0x0000FFFF (field d.u 0 ||| field d.l 8))
  | _ => (ringWindow offset).map fun a => pick 0x000000FF (field (d.ring.read a) 0)

/-- What a host read of an ENC register returns (R53, R58), or none where the map has no register. -/
def Enc.readReg (e : Enc) (draw : Word) (offset : Nat) : Option Word :=
  let pick := working e.st draw
  match offset with
  | 0x00 => some (ctrlRead e.ie)
  | 0x04 => some (statusWord e.st e.err e.errph ||| pick 0x00007000 (field e.ph.code 12))
  | 0x08 => some (e.n.extractLsb' 0 32)
  | 0x0C => some (field (e.n.extractLsb' 32 1) 0)
  | 0x10 => some (pick 0xFFFFFFFF (e.spos.extractLsb' 0 32))
  | 0x14 => some (pick 0x00000001 (field (e.spos.extractLsb' 32 1) 0))
  | 0x18 => some (pick 0xFFFFFFFF (e.optr.extractLsb' 0 32))
  | 0x1C => some (pick 0x00000003 (field (e.optr.extractLsb' 32 2) 0))
  | 0x20 => some (pick 0x00000FFF (field e.rcur 0))
  | 0x24 => some (pick 0x001F0FFF (field e.qflag 0 ||| field e.qn 8 ||| field e.qbn 16))
  | 0x28 => some (pick 0xFFFFFFFF (e.litops.extractLsb' 0 32))
  | 0x2C => some (pick 0x00000001 (field (e.litops.extractLsb' 32 1) 0))
  | 0x30 => some (pick 0xFFFFFFFF (e.totops.extractLsb' 0 32))
  | 0x34 => some (pick 0x00000001 (field (e.totops.extractLsb' 32 1) 0))
  | 0x40 => some (field e.tlr 0)
  | 0x44 => some (field e.minlen 0 ||| field e.maxlen 8)
  | 0x48 => some (field e.depth 0)
  | 0x4C => some (field (BitVec.ofBool e.lazy) 0)
  | _ =>
    match tableIndex 0x80 16 offset, tableIndex 0xC0 12 offset, ringWindow offset with
    | some j, _, _ => some (field e.lw[j] 0)
    | none, some b, _ => some (field e.dw[b] 0)
    | none, none, some a => some (pick 0x000000FF (field (e.ring.read a) 0))
    | none, none, none => none

/-- A host read: the word is returned in `rdata`; every read has a draw of its own (R58, 93 U12; log entry 16). -/
def readRegister (engine : Engine) (offset : BitVec 16) (s : State) : Host.Outcome State Fault Refusal :=
  let draw := Config.freeBits 32 s.draws
  let value :=
    match engine with
    | .dec => s.dec.readReg draw offset.toNat
    | .enc => s.enc.readReg draw offset.toNat
  match value with
  | some v => .next { s with rdata := v, draws := s.draws + 1 }
  | none => .refused .noSuchRegister

/-! ## Writes -/

/-- R44: "Host writes of a value above 65536 store 65536", of the 17-bit field (log entry 24). -/
def clampTlr (v : BitVec 17) : BitVec 17 := if 65536#17 < v then 65536#17 else v

/-- A host write of a programmable DEC register (R22, R23, R52); none where the register is not programmable. -/
def Dec.writeReg (d : Dec) (offset : Nat) (v : Word) : Option Dec :=
  match offset with
  | 0x08 => some { d with p := v }
  | 0x0C => some { d with slen := d.slen.extractLsb' 32 8 ++ v }
  | 0x10 => some { d with slen := v.extractLsb' 0 8 ++ d.slen.extractLsb' 0 32 }
  | _ => none

/-- A host write of a programmable ENC register (R34, R44 to R50, R53); none where the register is not programmable. DESIGN CHOICE
(unsafe, log entry 24): of a word written to `TLR` bits 31:17 are ignored first (R52, R53), and the 17-bit field that is left is
clamped (R44), so that 0x00020000 stores 0. -/
def Enc.writeReg (e : Enc) (offset : Nat) (v : Word) : Option Enc :=
  match offset with
  | 0x08 => some { e with n := e.n.extractLsb' 32 1 ++ v }
  | 0x0C => some { e with n := v.extractLsb' 0 1 ++ e.n.extractLsb' 0 32 }
  | 0x40 => some { e with tlr := clampTlr (v.extractLsb' 0 17) }
  | 0x44 => some { e with minlen := v.extractLsb' 0 5, maxlen := v.extractLsb' 8 5 }
  | 0x48 => some { e with depth := v.extractLsb' 0 13 }
  | 0x4C => some { e with lazy := v.getLsbD 0 }
  | _ =>
    match tableIndex 0x80 16 offset, tableIndex 0xC0 12 offset with
    | some j, _ => some { e with lw := e.lw.set j (v.extractLsb' 0 16) }
    | none, some b => some { e with dw := e.dw.set b (v.extractLsb' 0 16) }
    | none, none => none

/-- A write of `P`, `SLEN`, `N` or the configuration: ignored while the engine is in `INIT` or `RUN` (R51, R209, R219). A
write of a read-only register has no effect; an offset outside the map is refused (log entry 15). -/
def writeProgrammable (engine : Engine) (offset : BitVec 16) (v : Word) (s : State) : Host.Outcome State Fault Refusal :=
  match engine with
  | .dec =>
    match s.dec.writeReg offset.toNat v, s.dec.readReg 0 offset.toNat with
    | some d, _ => if s.dec.st.stopped then .next { s with dec := d } else .next s
    | none, some _ => .next s
    | none, none => .refused .noSuchRegister
  | .enc =>
    match s.enc.writeReg offset.toNat v, s.enc.readReg 0 offset.toNat with
    | some e, _ => if s.enc.st.stopped then .next { s with enc := e } else .next s
    | none, some _ => .next s
    | none, none => .refused .noSuchRegister

/-- A write of `CTRL` (R52, R53, R108): the command it holds, or, with neither command bit, a write of `IE` alone. -/
def writeCtrl (engine : Engine) (v : Word) (s : State) : Host.Outcome State Fault Refusal :=
  match decode (.ctrl engine v) with
  | .ok i => exec i s
  | .error _ => .next (setIe engine (v.getLsbD 2) s)

/-- A host register write. -/
def writeRegister (engine : Engine) (offset : BitVec 16) (v : Word) (s : State) : Host.Outcome State Fault Refusal :=
  if offset = 0 then writeCtrl engine v s else writeProgrammable engine offset v s

end Sys2Proof.Machine
end

