-- ==== Sys2Proof/Machine/Engines.lean ====
section
/-! DEFINITION. One step of DEC, of ENC and of the host, what the next event does, and where a test word is placed
(D4; log entries 1, 2, 18). -/

namespace Sys2Proof.Machine

/-! ## Register values that rules produce (R59, 93 U16; log entry 14) -/

/-- The ranges of R59 (a) to (c) and of 93 U16, and what the phase of DEC says of them (R124, R128, R129, R208). -/
def Dec.inRange (d : Dec) : Bool :=
  decide (d.fcnt.toNat ≤ 8) && decide (d.ocnt.toNat ≤ d.p.toNat) && decide (d.iptr.toNat ≤ d.slen.toNat) &&
  match d.ph with
  | .guard => true
  | .flag => decide (d.ocnt.toNat < d.p.toNat)
  | .bit => decide (d.ocnt.toNat < d.p.toNat) && decide (1 ≤ d.fcnt.toNat)
  | .lit => decide (d.ocnt.toNat < d.p.toNat)
  | .refU => decide (d.ocnt.toNat < d.p.toNat)
  | .refL => decide (d.ocnt.toNat < d.p.toNat)
  | .copy => decide (3 ≤ d.len.toNat) && decide (d.len.toNat ≤ 18) && decide (d.ci.toNat ≤ d.len.toNat)

/-- A valid candidate has a length of the format that the rest of the input covers (R157). -/
def Enc.bestInRange (e : Enc) : Bool :=
  !e.best.valid || (decide (3 ≤ e.best.len.toNat) && decide (e.best.len.toNat ≤ 18) &&
    decide (e.spos.toNat + e.best.len.toNat ≤ e.n.toNat))

/-- The ranges of R59 for ENC, of R34 and of 93 U16, the size bound of R183 that keeps `OPTR` in its 34 bits, and what
the phase of ENC says of them (R154, R166 to R170, R173). -/
def Enc.inRange (e : Enc) : Bool :=
  decide (e.qn.toNat ≤ 8) && decide (e.qn.toNat ≤ e.qbn.toNat) && decide (e.qbn.toNat ≤ 2 * e.qn.toNat) &&
  decide (e.litops.toNat ≤ e.totops.toNat) && decide (e.totops.toNat ≤ e.spos.toNat) &&
  decide (e.spos.toNat ≤ e.n.toNat) && decide (e.n.toNat ≤ 2 ^ 32) &&
  decide (8 * (e.optr.toNat + e.qbn.toNat) + e.qn.toNat ≤ 8 * e.spos.toNat + e.totops.toNat) &&
  match e.ph with
  | .guard => decide (e.qn.toNat ≤ 7)
  | .search => decide (e.qn.toNat ≤ 7) && decide (e.spos.toNat < e.n.toNat)
  | .select => decide (e.qn.toNat ≤ 7) && decide (e.spos.toNat < e.n.toNat) && e.bestInRange
  | .commit =>
    decide (e.qn.toNat ≤ 7) && decide (e.spos.toNat < e.n.toNat) && e.bestInRange && (e.kind == .lit || e.best.valid)
  | .pack => decide (e.qn.toNat = 8)
  | .flush => decide (e.qn.toNat ≤ 7) && decide (e.spos = e.n)

/-! ## DEC -/

/-- The operation due at the stream index, if its kind is known and its bytes are all there (R98, R107). -/
def dueInstr (s : State) : Option Instr :=
  let due : Option Due :=
    match s.dec.ph with
    | .flag => some .flag
    | .lit => some .lit
    | .refU => some .ref
    | .guard => none
    | .bit => none
    | .refL => none
    | .copy => none
  match due with
  | some k => (decode (.stream k s.streamRest)).toOption
  | none => none

/-- One phase of DEC in `RUN` (R122 to R128). FLAG and LIT are executed whole in their phase; a REF takes REFU, REFL and
COPY steps. -/
def decRunPhase (s : State) : Host.Outcome State Fault Refusal :=
  match s.dec.ph with
  | .guard => .next { s with dec := s.dec.guardStep }
  | .flag =>
    match decode (.stream .flag s.streamRest) with
    | .ok i => exec i s
    | .error _ => .next (raiseFault .dec .unexpectedEnd .atFlag s)
  | .bit => .next { s with dec := s.dec.bitStep }
  | .lit =>
    match decode (.stream .lit s.streamRest) with
    | .ok i => exec i s
    | .error _ => .next (raiseFault .dec .corrupt .atLit s)
  | .refU =>
    match s.streamRest with
    | raw :: _ => .next { s with dec := s.dec.latchU (mask raw) }
    | [] => .next (raiseFault .dec .corrupt .atRefU s)
  | .refL =>
    match s.streamRest with
    | raw :: _ => .next { s with dec := s.dec.latchL (mask raw) }
    | [] => .next (raiseFault .dec .corrupt .atRefL s)
  | .copy => .next (copyStep s)

/-- One step of DEC: `INIT` fills the ring and starts the run (R121, R244; log entry 3), `RUN` takes a phase, and a
stopped engine takes no step (R130, R211, R224). -/
def decStep (s : State) : Host.Outcome State Fault Refusal :=
  match s.dec.st with
  | .init => .next { s with dec := s.dec.init }
  | .run =>
    if s.inS.length < s.dec.slen.toNat then .refused .streamSliceTooShort
    else if s.dec.inRange then decRunPhase s
    else .fault .decOutOfRange
  | .idle => .next s
  | .done => .next s
  | .fault => .next s

/-- The coarser step of D4: the operation that is due runs whole; where none is due, one phase step. -/
def decOperation (s : State) : Host.Outcome State Fault Refusal :=
  match s.dec.st, dueInstr s with
  | .run, some i =>
    if s.inS.length < s.dec.slen.toNat then .refused .streamSliceTooShort
    else if s.dec.inRange then exec i s
    else .fault .decOutOfRange
  | _, _ => decStep s

/-! ## ENC -/

/-- One phase of ENC in `RUN` (R154 to R173). -/
def encRunPhase (s : State) : Host.Outcome State Fault Refusal :=
  match s.enc.ph with
  | .guard => .next { s with enc := s.enc.guardStep }
  | .search => .next { s with enc := s.enc.searchStep s.inX }
  | .select => .next { s with enc := s.enc.selectStep }
  | .commit => commitStep s
  | .pack => .next (packStep s)
  | .flush => .next (flushStep s)

/-- One step of ENC. -/
def encStep (s : State) : Host.Outcome State Fault Refusal :=
  match s.enc.st with
  | .init => .next { s with enc := s.enc.init (Config.freeQueue s.draws), draws := s.draws + 1 }
  | .run =>
    if s.inX.length < s.enc.n.toNat then .refused .pixelSliceTooShort
    else if s.enc.inRange then encRunPhase s
    else .fault .encOutOfRange
  | .idle => .next s
  | .done => .next s
  | .fault => .next s

/-! ## The host, and what moves next -/

/-- A host action (R219, R240, R245, R247). Changing a slice during a run is refused (R78, R255, 93 U13). -/
def hostStep (a : HostAction) (s : State) : Host.Outcome State Fault Refusal :=
  match a with
  | .hardwareReset => .next (hardwareReset s)
  | .write engine offset value => writeRegister engine offset value s
  | .read engine offset => readRegister engine offset s
  | .bindStream bytes =>
    if s.dec.st.stopped then .next { s with inS := bytes } else .refused .sliceChangedDuringRun
  | .bindPixels bytes =>
    if s.enc.st.stopped then .next { s with inX := bytes } else .refused .sliceChangedDuringRun

/-- One phase step of an engine. -/
def engineStep (engine : Engine) (s : State) : Host.Outcome State Fault Refusal :=
  match engine with
  | .dec => decStep s
  | .enc => encStep s

/-- What an event does. -/
def runEvent (event : Event) (s : State) : Host.Outcome State Fault Refusal :=
  match event with
  | .host action => hostStep action s
  | .phase engine => engineStep engine s
  | .operation => decOperation s

/-- The next event, taken off the agenda. With an empty agenda the engines run by themselves: DEC while it is running,
else ENC; a block in which both are stopped stays as it is (R224; log entry 2). -/
def nextEvent (s : State) : Host.Outcome State Fault Refusal :=
  match s.agenda with
  | event :: rest => runEvent event { s with agenda := rest }
  | [] => if s.dec.st.stopped then encStep s else decStep s

/-! ## Placing a table word (log entries 17, 18) -/

/-- A DEC that has been started on `S` (R121) and in which the operation of that kind is due at stream index 0, with
room for the longest output of one operation. For LIT and REF the kind bit is taken already (R124). -/
def Dec.dueAtStart (due : Due) (d : Dec) : Dec :=
  let d₁ : Dec := { d.init with p := 18, slen := 2 }
  match due with
  | .flag => { d₁ with ph := .flag }
  | .lit => { d₁ with ph := .lit, fcnt := 7, flags := 0x01 }
  | .ref => { d₁ with ph := .refU, fcnt := 7, flags := 0x00 }

/-- Stream bytes padded with logical zeros to the longest operation. -/
def padStream (wire : List Byte) : List Byte := (wire ++ List.replicate 2 (mask 0)).take 2

/-- The state whose next step fetches and runs the table word: a stream operation at stream index 0 of a started DEC,
run whole; a command as a host write of `DEC.CTRL`. -/
def placeTableWord (s : State) (nbits w : Nat) : State :=
  if nbits = 32 then { s with agenda := [.host (.write .dec 0 (BitVec.ofNat 32 w))] }
  else
    { s with agenda := [.operation], inS := padStream (tableWire nbits w), dec := s.dec.dueAtStart (tableDue nbits) }

end Sys2Proof.Machine
end

