-- ==== Sys2Proof/Machine/Observe.lean ====
section
/-! DEFINITION. The observations the spec states its claims through (R13): `dec(S, P)` of R120 and `enc(X, cfg)` of R150,
each a run of the machine from reset with the host's program of R245 or R247. -/

namespace Sys2Proof.Machine

/-- The CTRL word that writes START with `IE = 0` (R108). -/
def startWord : Word := ctrlWord 0 false false true

/-- `k` steps of the machine. -/
def runSteps (k : Nat) (s : State) : Host.Outcome State Fault Refusal := Host.Core.run Sys2Proof.core k s

/-- The state a run of the machine ends in, if it stops at no fault or refusal. -/
def stateAfter (k : Nat) (s : State) : Option State :=
  match runSteps k s with
  | .next t => some t
  | .fault _ => none
  | .refused _ => none

/-! ## dec(S, P) (R13, R120) -/

/-- The value of `dec`. -/
inductive DecResult where
  | ok (pixels : List Byte)
  | err (cause : Cause) (phase : FaultPhase)
deriving DecidableEq, Repr

/-- `O[0 .. k)`, if all of it has been written. -/
def pixelsUpTo (o : Memory) (k : Nat) : Option (List Byte) := (List.range k).mapM o.read

/-- What the host takes from a DEC that has stopped: the pixels at `DONE`, cause and phase at `FAULT` (R120, R213, R246). -/
def decOutcome (s : State) : Option DecResult :=
  match s.dec.st with
  | .done => (pixelsUpTo s.outO s.dec.p.toNat).map .ok
  | .fault => some (.err s.dec.err s.dec.errph)
  | .idle => none
  | .init => none
  | .run => none

/-- The block with DEC programmed as R245 says: `S` bound, `SLEN`, `P`, then a START write due. `dec` is total over finite
lists (R120) and `SLEN` has 40 bits (R9): for a list of 2^40 bytes or more the model's choice is the greatest `SLEN`
(DEDUCED; log entry 21). -/
def decLaunch (s : State) (stream : List Byte) (p : BitVec 32) : State :=
  { s with inS := stream, agenda := [.host (.write .dec 0 startWord)]
           dec := { s.dec with slen := BitVec.ofNat 40 (min stream.length (2 ^ 40 - 1)), p := p } }

/-- START, the INIT step, and the bound of R141. -/
def decSteps (stream : List Byte) (p : BitVec 32) : Nat := 2 + (4 * (stream.length + p.toNat) + 4)

/-- `dec(S, P)` (R120). -/
def decFunction (stream : List Byte) (p : BitVec 32) : Option DecResult :=
  (stateAfter (decSteps stream p) (decLaunch State.reset stream p)).bind decOutcome

/-! ## enc(X, cfg) (R13, R150) -/

/-- The configuration record `cfg` (R8, R44 to R50). -/
structure Policy where
  tlr    : BitVec 17
  minlen : BitVec 5
  maxlen : BitVec 5
  depth  : BitVec 13
  lw     : Vector (BitVec 16) 16
  dw     : Vector (BitVec 16) 12
  lazy   : Bool
deriving DecidableEq, Repr

/-- The configuration after hardware reset (R243). -/
def Policy.reset : Policy :=
  { tlr := 0, minlen := 3, maxlen := 18, depth := 4096, lw := Vector.replicate 16 256, dw := Vector.replicate 12 256
    lazy := false }

/-- ENC with its configuration registers programmed (R247). -/
def Enc.withPolicy (cfg : Policy) (e : Enc) : Enc :=
  { e with tlr := clampTlr cfg.tlr, minlen := cfg.minlen, maxlen := cfg.maxlen, depth := cfg.depth, lw := cfg.lw
           dw := cfg.dw, lazy := cfg.lazy }

/-- What the host takes from an ENC that is done: `Y[0 .. OPTR)` (R150, R247). -/
def encOutcome (s : State) : Option (List Byte) :=
  if s.enc.st = .done then pixelsUpTo s.outY s.enc.optr.toNat else none

/-- The block with ENC programmed as R247 says: configuration, `X` bound, `N`, then a START write due. A list longer than
`N` can say gets the greatest `N`, whose launch is refused (R34, 93 U9; log entry 21). -/
def encLaunch (s : State) (pixels : List Byte) (cfg : Policy) : State :=
  { s with inX := pixels, agenda := [.host (.write .enc 0 startWord)]
           enc := { s.enc.withPolicy cfg with n := BitVec.ofNat 33 (min pixels.length (2 ^ 33 - 1)) } }

/-- START, the INIT step, at most five phases for each operation (R185), and the last GUARD and FLUSH. -/
def encSteps (pixels : List Byte) : Nat := 2 + (5 * pixels.length + 2)

/-- `enc(X, cfg)` (R150). -/
def encFunction (pixels : List Byte) (cfg : Policy) : Option (List Byte) :=
  (stateAfter (encSteps pixels) (encLaunch State.reset pixels cfg)).bind encOutcome

end Sys2Proof.Machine
end

