-- ==== Sys2Proof/Safety.lean ====
section
/-! DEFINITION. What counts as a safe state and a safe run: the invariants of R59, the canonical form of every memory, and
the premises under which a phase step is the rule's. -/

namespace Sys2Proof.Machine

/-! ## Canonical memories -/

/-- Every memory of the block is in its canonical form. -/
def MemoryCanonical (s : State) : Prop :=
  s.dec.ring.wf ∧ s.enc.ring.wf ∧ (∀ sh ∈ s.enc.shadow, sh.dec.ring.wf) ∧ Memory.wf 32 s.outO ∧ Memory.wf 34 s.outY

/-! ## The invariants of R59 -/

/-- The largest `j < k` with `j mod 4096 = j0` (R59 (e)), for `j0 < k` and `j0 < 4096`. -/
def lastIndex (k j0 : Nat) : Nat := j0 + 4096 * ((k - 1 - j0) / 4096)

/-- R59 (e): after `k` bytes the ring holds the pre-seed where nothing has come by, and else the last byte that did;
`byteAt j` is the `j`-th byte. -/
def RingHolds (r : Ring) (k : Nat) (byteAt : Nat → Option Byte) : Prop :=
  ∀ a : RingAddr,
    let j0 := (a - Config.cursorInit).toNat
    if k ≤ j0 then r.read a = Config.ringFill else byteAt (lastIndex k j0) = some (r.read a)

/-- The states in which R59 speaks of DEC. -/
def RunState.started : RunState → Bool
  | .run => true
  | .done => true
  | .fault => true
  | .idle => false
  | .init => false

/-- R59 for DEC, what every step keeps: in `RUN` the registers are those that rules produce, (b) and (c) among them; (a), (d)
and (e) in every state R59 speaks of. -/
def DecInvariant (s : State) : Prop :=
  (s.dec.st = .run → s.dec.inRange = true) ∧
  (s.dec.st.started = true →
    s.dec.fcnt.toNat ≤ 8 ∧ s.dec.rcur = Config.cursorInit + BitVec.ofNat 12 s.dec.ocnt.toNat ∧
    RingHolds s.dec.ring s.dec.ocnt.toNat s.outO.read)

/-- R59 (b) and (c) in every state R59 speaks of. R219 lets the host write `P` and `SLEN` of a stopped DEC to any value, so
every step keeps this but such a write (log entry 14). -/
def DecCountsInRange (s : State) : Prop :=
  s.dec.st.started = true → s.dec.ocnt.toNat ≤ s.dec.p.toNat ∧ s.dec.iptr.toNat ≤ s.dec.slen.toNat

/-- The queue and the counters of ENC (R59). -/
def Enc.CountersInRange (e : Enc) : Prop :=
  e.qn.toNat ≤ 8 ∧ e.qn.toNat ≤ e.qbn.toNat ∧ e.qbn.toNat ≤ 2 * e.qn.toNat ∧
  e.litops.toNat ≤ e.totops.toNat ∧ e.totops.toNat ≤ e.spos.toNat

/-- R59 for ENC, what every step keeps: in `INIT` an `N` that R34 allows; in `RUN` the registers are those that rules produce
and the ring holds the input covered by committed operations; in every state R59 speaks of, the queue, the counters and the
cursor, and a ring that holds some bytes covered. -/
def EncInvariant (s : State) : Prop :=
  (s.enc.st = .init → s.enc.n.toNat ≤ 2 ^ 32) ∧
  (s.enc.st = .run →
    s.enc.inRange = true ∧ RingHolds s.enc.ring s.enc.spos.toNat (fun j => s.inX[j]?)) ∧
  (s.enc.st.started = true →
    s.enc.CountersInRange ∧ s.enc.rcur = Config.cursorInit + BitVec.ofNat 12 s.enc.spos.toNat ∧
    ∃ covered : List Byte, RingHolds s.enc.ring s.enc.spos.toNat (fun j => covered[j]?))

/-- R59 (b) and (e) for ENC with the input itself, in every state R59 speaks of. The host may write `N` and bind another `X`
when ENC is stopped (R219, R247), so every step keeps this but such a one (log entry 14). -/
def EncCoversInput (s : State) : Prop :=
  s.enc.st.started = true →
    s.enc.spos.toNat ≤ s.enc.n.toNat ∧ RingHolds s.enc.ring s.enc.spos.toNat (fun j => s.inX[j]?)

/-! ## Premises of a phase step -/

/-- DEC is in `RUN` at phase `ph`, with register values that rules produce and the slice it was launched with. -/
abbrev DecRuns (s : State) (ph : DecPhase) : Prop :=
  s.dec.st = .run ∧ s.dec.ph = ph ∧ s.dec.inRange = true ∧ s.dec.slen.toNat ≤ s.inS.length

/-- The same for ENC. -/
abbrev EncRuns (s : State) (ph : EncPhase) : Prop :=
  s.enc.st = .run ∧ s.enc.ph = ph ∧ s.enc.inRange = true ∧ s.enc.n.toNat ≤ s.inX.length

/-- An outcome that goes on. -/
def goesOn (o : Host.Outcome State Fault Refusal) : Bool :=
  match o with
  | .next _ => true
  | .fault _ => false
  | .refused _ => false

end Sys2Proof.Machine
end

