-- ==== Sys2Proof/Certificates/Slice0/Obligations.lean ====
section
/-! DEFINITION. The statements for the provers, from the numbered rules of spec/. `.next t` is the whole next state: an
equation `t = { s with … }` is the frame as well as the effect. -/

open Sys2Proof Sys2Proof.Machine

/-! ## Encoding (30_encoding.md) -/

/-- R91 to R97, R108: no bit of an encoding is dropped, at any value of any field. -/
def Obligations.DecodeAfterEncode : Prop :=
  ∀ i : Instr, i.wellFormed = true → decode (encode i) = .ok i

/-- R94, R95, R97, R108: the other direction; what decodes is well-formed and encodes to the bytes or word it came from. -/
def Obligations.EncodeAfterDecode : Prop :=
  (∀ due wire i, decode (.stream due wire) = .ok i →
    i.wellFormed = true ∧ encode i = .stream due (wire.take i.streamBytes)) ∧
  (∀ engine value i, decode (.ctrl engine value) = .ok i → i.wellFormed = true ∧ encode i = .ctrl engine value)

/-- R99: every byte value has a meaning; only a missing byte leaves no operation. -/
def Obligations.EveryStreamValueDecodes : Prop :=
  ∀ due wire, (∃ i, decode (.stream due wire) = .ok i) ↔ (if due = .ref then 2 else 1) ≤ wire.length

/-- R94, R97: the two fields of a REF from its two wire bytes. -/
def Obligations.RefFieldsFromWireBytes : Prop :=
  ∀ u l : Byte, ∃ position length,
    decode (.stream .ref [u ^^^ 0xFF#8, l ^^^ 0xFF#8]) = .ok (.ref position length) ∧
    position.toNat = (u.toNat >>> 4) ||| (l.toNat <<< 4) ∧ position.toNat = u.toNat / 16 + 16 * l.toNat ∧
    length.toNat = u.toNat % 16 + 3 ∧ 3 ≤ length.toNat ∧ length.toNat ≤ 18

/-- R109 (a), (b), (c), (d), (e), and CTRL words by the table: words written out from the spec. -/
def Obligations.SpecWordsDecode : Prop :=
  decode (.stream .flag [0x7F#8, 0xFF#8]) = .ok (.flag 0x80#8) ∧
  decode (.stream .lit [0xFF#8]) = .ok (.lit 0x00#8) ∧
  decode (.stream .ref [0x10#8, 0x01#8]) = .ok (.ref 0xFEE#12 18#5) ∧
  decode (.stream .ref [0xFF#8, 0xFF#8]) = .ok (.ref 0x000#12 3#5) ∧
  decode (.stream .ref [0x00#8, 0x00#8]) = .ok (.ref 0xFFF#12 18#5) ∧
  decode (.stream .ref [0xDA#8, 0x00#8]) = .ok (.ref 0xFF2#12 8#5) ∧
  decode (.ctrl .dec 0x00000005#32) = .ok (.start .dec 0 true) ∧
  decode (.ctrl .enc 0x0000000B#32) = .ok (.abort .enc 1 false true)

/-! ## What an event runs -/

/-- Log entry 2: the agenda is obeyed in order; with none, a DEC that is running moves, else ENC. -/
def Obligations.AgendaIsObeyed : Prop :=
  (∀ s event rest, s.agenda = event :: rest → step s = runEvent event { s with agenda := rest }) ∧
  (∀ s, s.agenda = [] → (s.dec.st = .init ∨ s.dec.st = .run) → step s = decStep s) ∧
  (∀ s, s.agenda = [] → s.dec.st ≠ .init → s.dec.st ≠ .run → step s = encStep s)

/-- D4, R98, R107: a step that runs an operation is `exec` of the operation decoded at the stream index, and so is the
phase step of FLAG and of LIT; the agenda entry is taken off. That an event says what runs, and that with none a running DEC
moves though ENC may be running too, is the model's choice (log entries 1 and 2). -/
def Obligations.StepRunsDecodedOperation : Prop :=
  ∀ s rest due i,
    decode (.stream due s.streamRest) = .ok i → s.dec.st = .run → s.dec.inRange = true →
    s.dec.slen.toNat ≤ s.inS.length →
    (s.dec.ph = .flag ∧ due = .flag ∨ s.dec.ph = .lit ∧ due = .lit ∨ s.dec.ph = .refU ∧ due = .ref) →
    (s.agenda = .operation :: rest → step s = exec i { s with agenda := rest }) ∧
    (due ≠ .ref → s.agenda = .phase .dec :: rest → step s = exec i { s with agenda := rest }) ∧
    (due ≠ .ref → s.agenda = [] → step s = exec i s)

/-- R108: a host write of CTRL runs the command it holds; with neither command bit it stores IE in that engine and does nothing
else (log entry 4). -/
def Obligations.StepRunsCtrlCommand : Prop :=
  (∀ s rest engine value i, s.agenda = .host (.write engine 0 value) :: rest →
    decode (.ctrl engine value) = .ok i → step s = exec i { s with agenda := rest }) ∧
  (∀ s rest value, s.agenda = .host (.write .dec 0 value) :: rest → value.getLsbD 0 = false → value.getLsbD 1 = false →
    step s = .next { s with agenda := rest, dec := { s.dec with ie := value.getLsbD 2 } }) ∧
  (∀ s rest value, s.agenda = .host (.write .enc 0 value) :: rest → value.getLsbD 0 = false → value.getLsbD 1 = false →
    step s = .next { s with agenda := rest, enc := { s.enc with ie := value.getLsbD 2 } })

/-! ## FLAG, LIT, REF (40_decoder_ops.md) -/

/-- R123, R131: FLAG loads the kind bits; the whole next state. -/
def Obligations.FlagLoadsKindBits : Prop :=
  ∀ kinds s, s.dec.iptr ≠ s.dec.slen →
    exec (.flag kinds) s =
      .next { s with dec := { s.dec with flags := kinds, iptr := s.dec.iptr + 1, fcnt := 8, ph := .bit } }

/-- R125, R129, R132: LIT emits its byte, to `O` and to the ring, and changes nothing else. -/
def Obligations.LitEmitsItsByte : Prop :=
  ∀ data s, s.dec.iptr ≠ s.dec.slen → s.dec.ring.wf →
    ∃ t, exec (.lit data) s = .next t ∧
      t = { s with outO := t.outO
                   dec := { s.dec with iptr := s.dec.iptr + 1, ocnt := s.dec.ocnt + 1, rcur := s.dec.rcur + 1
                                       ring := t.dec.ring, ph := .guard } } ∧
      t.outO.read s.dec.ocnt.toNat = some data ∧
      (∀ k, k ≠ s.dec.ocnt.toNat → t.outO.read k = s.outO.read k) ∧
      (∀ a, t.dec.ring.read a = if a = s.dec.rcur then data else s.dec.ring.read a)

/-- R126, R127, R129, R133, R137: REF copies `min(length, P - OCNT)` bytes, each read seeing the earlier writes; the
emitted bytes `e` in closed form, the registers it leaves, and everything else unchanged. -/
def Obligations.RefCopiesBytes : Prop :=
  ∀ position length s, (Instr.ref position length).wellFormed = true → s.dec.iptr ≠ s.dec.slen →
    s.dec.iptr + 1 ≠ s.dec.slen → s.dec.ocnt.toNat ≤ s.dec.p.toNat → s.dec.ring.wf →
    ∃ t, ∃ e : Nat → Byte, ∃ n d : Nat,
      exec (.ref position length) s = .next t ∧
      n = min length.toNat (s.dec.p.toNat - s.dec.ocnt.toNat) ∧
      d = (s.dec.rcur - position).toNat ∧
      t = { s with outO := t.outO
                   dec := { s.dec with iptr := s.dec.iptr + 2, ocnt := s.dec.ocnt + BitVec.ofNat 32 n
                                       rcur := s.dec.rcur + BitVec.ofNat 12 n, ring := t.dec.ring
                                       u := refU position length, l := refL position, pos := position, len := length
                                       ci := BitVec.ofNat 5 n, ph := .guard } } ∧
      (∀ i, i < n → (d = 0 ∨ i < d) → e i = s.dec.ring.read (position + BitVec.ofNat 12 i)) ∧
      (∀ i, i < n → d ≠ 0 → d ≤ i → e i = e (i - d)) ∧
      (∀ i, i < n → t.outO.read (s.dec.ocnt.toNat + i) = some (e i)) ∧
      (∀ k, (k < s.dec.ocnt.toNat ∨ s.dec.ocnt.toNat + n ≤ k) → t.outO.read k = s.outO.read k) ∧
      (∀ i, i < n → t.dec.ring.read (s.dec.rcur + BitVec.ofNat 12 i) = e i) ∧
      (∀ a : RingAddr, n ≤ (a - s.dec.rcur).toNat → t.dec.ring.read a = s.dec.ring.read a)

/-- R202, R203, R205, R207: an operation byte or flag byte that is missing raises the fault, and nothing else happens;
a REF whose `L` is missing has consumed `U`. -/
def Obligations.MissingByteFaults : Prop :=
  (∀ kinds s, s.dec.iptr = s.dec.slen →
    exec (.flag kinds) s =
      .next { s with dec := { s.dec with err := .unexpectedEnd, errph := .atFlag, st := .fault } }) ∧
  (∀ data s, s.dec.iptr = s.dec.slen →
    exec (.lit data) s = .next { s with dec := { s.dec with err := .corrupt, errph := .atLit, st := .fault } }) ∧
  (∀ position length s, s.dec.iptr = s.dec.slen →
    exec (.ref position length) s =
      .next { s with dec := { s.dec with err := .corrupt, errph := .atRefU, st := .fault } }) ∧
  (∀ position length s, s.dec.iptr ≠ s.dec.slen → s.dec.iptr + 1 = s.dec.slen →
    exec (.ref position length) s =
      .next { s with dec := { s.dec with u := refU position length, iptr := s.dec.iptr + 1, ph := .refL
                                         err := .corrupt, errph := .atRefL, st := .fault } })

/-- R133, R136, R75: at distance 0 a REF leaves every ring cell as it was and moves the cursor by the bytes copied; at
distance 1 it emits copies of the byte just before the cursor. -/
def Obligations.RefAtDistanceZeroAndOne : Prop :=
  (∀ length s, (Instr.ref s.dec.rcur length).wellFormed = true → s.dec.iptr ≠ s.dec.slen →
    s.dec.iptr + 1 ≠ s.dec.slen → s.dec.ocnt.toNat ≤ s.dec.p.toNat → s.dec.ring.wf →
    ∃ t, exec (.ref s.dec.rcur length) s = .next t ∧ (∀ a, t.dec.ring.read a = s.dec.ring.read a) ∧
      t.dec.rcur = s.dec.rcur + BitVec.ofNat 12 (min length.toNat (s.dec.p.toNat - s.dec.ocnt.toNat))) ∧
  (∀ length s, (Instr.ref (s.dec.rcur - 1) length).wellFormed = true → s.dec.iptr ≠ s.dec.slen →
    s.dec.iptr + 1 ≠ s.dec.slen → s.dec.ocnt.toNat + length.toNat ≤ s.dec.p.toNat → s.dec.ring.wf →
    ∃ t, exec (.ref (s.dec.rcur - 1) length) s = .next t ∧
      ∀ i, i < length.toNat → t.outO.read (s.dec.ocnt.toNat + i) = some (s.dec.ring.read (s.dec.rcur - 1)))

/-- R126 against R127 and R128: the phase steps REFU, REFL, `n` emitting COPY steps and the exiting one, taken together, are
`exec` of the REF. In any block when these steps of DEC are the next events; and with no event due when ENC is stopped, so
that DEC alone moves (log entry 2). -/
def Obligations.RefPhasesTakenTogether : Prop :=
  ∀ s rest position length, DecRuns s .refU → decode (.stream .ref s.streamRest) = .ok (.ref position length) →
    let steps := min length.toNat (s.dec.p.toNat - s.dec.ocnt.toNat) + 3
    (s.agenda = List.replicate steps (.phase .dec) ++ rest →
      Host.Core.run Sys2Proof.core steps s = exec (.ref position length) { s with agenda := rest }) ∧
    (s.agenda = [] → s.enc.st.stopped = true →
      Host.Core.run Sys2Proof.core steps s = exec (.ref position length) s)

/-! ## The phases of DEC -/

/-- R122, R130: the count test comes first; GUARD touches no memory. -/
def Obligations.GuardPhaseOfDec : Prop :=
  ∀ s, DecRuns s .guard →
    (s.dec.ocnt = s.dec.p → decStep s = .next { s with dec := { s.dec with st := .done } }) ∧
    (s.dec.ocnt ≠ s.dec.p → s.dec.fcnt = 0 → decStep s = .next { s with dec := { s.dec with ph := .flag } }) ∧
    (s.dec.ocnt ≠ s.dec.p → s.dec.fcnt ≠ 0 → decStep s = .next { s with dec := { s.dec with ph := .bit } })

/-- R123: phase FLAG fetches one byte and unmasks it, or raises. -/
def Obligations.FlagPhaseOfDec : Prop :=
  ∀ s, DecRuns s .flag →
    (s.dec.iptr = s.dec.slen →
      decStep s = .next { s with dec := { s.dec with err := .unexpectedEnd, errph := .atFlag, st := .fault } }) ∧
    (s.dec.iptr ≠ s.dec.slen → ∃ raw, s.inS[s.dec.iptr.toNat]? = some raw ∧
      decStep s = .next { s with dec := { s.dec with flags := raw ^^^ 0xFF#8, iptr := s.dec.iptr + 1, fcnt := 8
                                                     ph := .bit } })

/-- R124: the kind bit is bit 7, the register is rotated, the counter goes down; no memory is touched. -/
def Obligations.BitPhaseOfDec : Prop :=
  ∀ s, DecRuns s .bit →
    decStep s = .next { s with dec := { s.dec with flags := s.dec.flags.rotateLeft 1, fcnt := s.dec.fcnt - 1
                                                   ph := if s.dec.flags.getLsbD 7 then .lit else .refU } }

/-- R125: phase LIT fetches one byte, unmasks it and emits it, or raises. -/
def Obligations.LitPhaseOfDec : Prop :=
  ∀ s, DecRuns s .lit →
    (s.dec.iptr = s.dec.slen →
      decStep s = .next { s with dec := { s.dec with err := .corrupt, errph := .atLit, st := .fault } }) ∧
    (s.dec.iptr ≠ s.dec.slen → ∃ raw, s.inS[s.dec.iptr.toNat]? = some raw ∧
      decStep s = .next { s with outO := s.outO.write s.dec.ocnt.toNat (raw ^^^ 0xFF#8)
                                 dec := { s.dec with iptr := s.dec.iptr + 1, ocnt := s.dec.ocnt + 1
                                                     rcur := s.dec.rcur + 1, ph := .guard
                                                     ring := s.dec.ring.write s.dec.rcur (raw ^^^ 0xFF#8) } })

/-- R127: `U` is fetched in REFU, `L` in REFL, and the fields are unpacked there; each raises if its byte is missing. -/
def Obligations.RefUnpackPhasesOfDec : Prop :=
  (∀ s, DecRuns s .refU →
    (s.dec.iptr = s.dec.slen →
      decStep s = .next { s with dec := { s.dec with err := .corrupt, errph := .atRefU, st := .fault } }) ∧
    (s.dec.iptr ≠ s.dec.slen → ∃ raw, s.inS[s.dec.iptr.toNat]? = some raw ∧
      decStep s = .next { s with dec := { s.dec with u := raw ^^^ 0xFF#8, iptr := s.dec.iptr + 1, ph := .refL } })) ∧
  (∀ s, DecRuns s .refL →
    (s.dec.iptr = s.dec.slen →
      decStep s = .next { s with dec := { s.dec with err := .corrupt, errph := .atRefL, st := .fault } }) ∧
    (s.dec.iptr ≠ s.dec.slen → ∃ raw length position, s.inS[s.dec.iptr.toNat]? = some raw ∧
      length = BitVec.ofNat 5 (s.dec.u.toNat % 16 + 3) ∧
      position = BitVec.ofNat 12 (s.dec.u.toNat / 16 + 16 * (raw ^^^ 0xFF#8).toNat) ∧
      decStep s = .next { s with dec := { s.dec with l := raw ^^^ 0xFF#8, iptr := s.dec.iptr + 1, len := length
                                                     pos := position, ci := 0, ph := .copy } }))

/-- R128: one byte per step, read after the previous write; the copy ends at `CI = LEN` or `OCNT = P`. -/
def Obligations.CopyPhaseOfDec : Prop :=
  ∀ s, DecRuns s .copy →
    (s.dec.ci = s.dec.len ∨ s.dec.ocnt = s.dec.p →
      decStep s = .next { s with dec := { s.dec with ph := .guard } }) ∧
    (s.dec.ci ≠ s.dec.len → s.dec.ocnt ≠ s.dec.p →
      ∃ v, v = s.dec.ring.read (s.dec.pos + s.dec.ci.setWidth 12) ∧
        decStep s = .next { s with outO := s.outO.write s.dec.ocnt.toNat v
                                   dec := { s.dec with ring := s.dec.ring.write s.dec.rcur v, ocnt := s.dec.ocnt + 1
                                                       rcur := s.dec.rcur + 1, ci := s.dec.ci + 1 } })

/-- R131: after `j` rotations the kind bit is bit `7 - j` of the loaded byte, and after eight the register is back. -/
def Obligations.KindBitsInOrder : Prop :=
  (∀ (f : Byte) (j : Fin 8), (Nat.iterate rotl8 j.val f).getLsbD 7 = f.getLsbD (7 - j.val)) ∧
  (∀ f : Byte, Nat.iterate rotl8 8 f = f)

/-! ## START, ABORT, reset (R121, R144, R153, R186, R219, R240 to R243) -/

/-- R219, R209, R34, 93 U9 and U13: START of a stopped engine goes to INIT; IE is stored by the same write (log entry 4);
nothing else changes. A launch beyond the slice, or with `N` above 2^32, is refused by name (log entry 13). START in INIT
and RUN is ignored; the write still stores IE (log entry 4). -/
def Obligations.StartFollowsRunState : Prop :=
  (∀ s unused ie, s.dec.st ≠ .init → s.dec.st ≠ .run → s.dec.slen.toNat ≤ s.inS.length →
    exec (.start .dec unused ie) s = .next { s with dec := { s.dec with ie := ie, st := .init } }) ∧
  (∀ s unused ie, s.enc.st ≠ .init → s.enc.st ≠ .run → s.enc.n.toNat ≤ 2 ^ 32 → s.enc.n.toNat ≤ s.inX.length →
    exec (.start .enc unused ie) s = .next { s with enc := { s.enc with ie := ie, st := .init } }) ∧
  (∀ s unused ie, s.dec.st ≠ .init → s.dec.st ≠ .run → s.inS.length < s.dec.slen.toNat →
    exec (.start .dec unused ie) s = .refused .streamSliceTooShort) ∧
  (∀ s unused ie, s.enc.st ≠ .init → s.enc.st ≠ .run → 2 ^ 32 < s.enc.n.toNat →
    exec (.start .enc unused ie) s = .refused .pixelCountAboveLimit) ∧
  (∀ s unused ie, s.enc.st ≠ .init → s.enc.st ≠ .run → s.enc.n.toNat ≤ 2 ^ 32 → s.inX.length < s.enc.n.toNat →
    exec (.start .enc unused ie) s = .refused .pixelSliceTooShort) ∧
  (∀ s unused ie, (s.dec.st = .init ∨ s.dec.st = .run) →
    exec (.start .dec unused ie) s = .next { s with dec := { s.dec with ie := ie } }) ∧
  (∀ s unused ie, (s.enc.st = .init ∨ s.enc.st = .run) →
    exec (.start .enc unused ie) s = .next { s with enc := { s.enc with ie := ie } })

/-- R121, R241, R244: what the INIT step of DEC leaves, and that nothing outside DEC changes; the fill
is one step (log entry 3). -/
def Obligations.InitStepOfDec : Prop :=
  ∀ s, s.dec.st = .init → ∃ t, decStep s = .next t ∧ (∀ a, t.dec.ring.read a = 0x20#8) ∧
    t = { s with dec := { st := .run, p := s.dec.p, slen := s.dec.slen, iptr := 0, ocnt := 0, flags := 0, fcnt := 0
                          ring := t.dec.ring, rcur := 0xFEE#12, ph := .guard, u := 0, l := 0, pos := 0, len := 0
                          ci := 0, err := .none, errph := .none, ie := s.dec.ie } }

/-- R153, R242: what the INIT step of ENC leaves, and in the shadow decoder, if there is one, what R121 leaves with `P = N`.
The fill is one step (log entry 3); `QB` is unspecified; `kind := .ref` is the model's choice (log entry 11); the shadow's
stream is empty and its counters start at 0 (log entry 9). -/
def Obligations.InitStepOfEnc : Prop :=
  ∀ s, s.enc.st = .init → ∃ t, encStep s = .next t ∧ (∀ a, t.enc.ring.read a = 0x20#8) ∧
    t = { s with draws := t.draws
                 enc := { s.enc with st := .run, ring := t.enc.ring, rcur := 0xFEE#12, spos := 0, optr := 0, qn := 0
                                     qflag := 0, qb := t.enc.qb, qbn := 0, litops := 0, totops := 0
                                     best := ⟨false, 0, 0, 0⟩, bpos := 0, next := ⟨false, 0, 0, 0⟩, kind := .ref
                                     ph := .guard, err := .none, errph := .none, shadow := t.enc.shadow } } ∧
    (s.enc.shadow = none → t.enc.shadow = none) ∧
    (∀ sh, s.enc.shadow = some sh → ∃ sh', t.enc.shadow = some sh' ∧ (∀ a, sh'.dec.ring.read a = 0x20#8) ∧
      sh' = { p := s.enc.n, count := 0, mismatch := false
              dec := { st := .run, p := s.enc.n.setWidth 32, slen := 0, iptr := 0, ocnt := 0, flags := 0, fcnt := 0
                       ring := sh'.dec.ring, rcur := 0xFEE#12, ph := .guard, u := 0, l := 0, pos := 0, len := 0, ci := 0
                       err := .none, errph := .none, ie := sh.dec.ie } })

/-- R144, R186, R219, 93 U11: ABORT from any state; what stays exact; the other engine and the spaces are not touched. That
IE becomes bit 2 of the word, the R/W bit of CTRL by R52 and R53, is the model's reading (log entry 4). -/
def Obligations.AbortGoesToIdle : Prop :=
  (∀ s unused ie startBit, ∃ t, exec (.abort .dec unused ie startBit) s = .next t ∧
    t = { s with dec := t.dec, draws := t.draws } ∧ t.dec.st = .idle ∧ t.dec.ie = ie ∧ t.dec.err = s.dec.err ∧
    t.dec.errph = s.dec.errph ∧ t.dec.p = s.dec.p ∧ t.dec.slen = s.dec.slen) ∧
  (∀ s unused ie startBit, ∃ t, exec (.abort .enc unused ie startBit) s = .next t ∧
    t = { s with enc := t.enc, draws := t.draws } ∧ t.enc.st = .idle ∧ t.enc.ie = ie ∧ t.enc.err = s.enc.err ∧
    t.enc.errph = s.enc.errph ∧ t.enc.n = s.enc.n ∧ t.enc.tlr = s.enc.tlr ∧ t.enc.minlen = s.enc.minlen ∧
    t.enc.maxlen = s.enc.maxlen ∧ t.enc.depth = s.enc.depth ∧ t.enc.lw = s.enc.lw ∧ t.enc.dw = s.enc.dw ∧
    t.enc.lazy = s.enc.lazy)

/-- R241, R242, R243: the reset state; `draws`, `rdata`, the spaces, `QB` and `kind` are the model's choices (log entries
5, 7, 11, 16, 19) and are not stated. With the self-check (log entry 8) the shadow decoder
is as DEC is, with no mismatch; that its count is 0 is log entry 9. -/
def Obligations.ResetValues : Prop :=
  State.reset.dec = { st := .idle, p := 0, slen := 0, iptr := 0, ocnt := 0, flags := 0, fcnt := 0
                      ring := State.reset.dec.ring, rcur := 0xFEE#12, ph := .guard, u := 0, l := 0, pos := 0, len := 0
                      ci := 0, err := .none, errph := .none, ie := false } ∧
  State.reset.enc = { st := .idle, n := 0, spos := 0, optr := 0, ring := State.reset.enc.ring, rcur := 0xFEE#12
                      qn := 0, qflag := 0, qb := State.reset.enc.qb, qbn := 0, litops := 0, totops := 0
                      best := ⟨false, 0, 0, 0⟩, bpos := 0, next := ⟨false, 0, 0, 0⟩, kind := State.reset.enc.kind
                      err := .none, errph := .none, ie := false, ph := .guard, shadow := State.reset.enc.shadow
                      tlr := 0, minlen := 3, maxlen := 18, depth := 4096
                      lw := Vector.replicate 16 256#16, dw := Vector.replicate 12 256#16, lazy := false } ∧
  (State.resetWith true).dec = State.reset.dec ∧
  (∃ sh, (State.resetWith true).enc = { State.reset.enc with shadow := some sh } ∧
    sh = { p := 0, count := 0, mismatch := false, dec := { State.reset.dec with ring := sh.dec.ring } })

/-- R219, R240 to R243: the reset input leaves both engines at their reset values from any state. That the host's spaces stay
is the model's choice (log entry 19); so is the `kind` that ENC has then (log entry 11). A shadow decoder,
if there is one, is then as DEC is, with P = N and no mismatch; that its count is 0 is log entry 9. -/
def Obligations.HardwareResetFromAnyState : Prop :=
  ∀ s rest, s.agenda = .host .hardwareReset :: rest → ∃ t, step s = .next t ∧
    t.dec = { State.reset.dec with ring := t.dec.ring } ∧
    t.enc = { State.reset.enc with ring := t.enc.ring, qb := t.enc.qb, shadow := t.enc.shadow } ∧
    (s.enc.shadow = none → t.enc.shadow = none) ∧
    (∀ sh, s.enc.shadow = some sh → ∃ sh', t.enc.shadow = some sh' ∧
      sh' = { p := 0, count := 0, mismatch := false, dec := { State.reset.dec with ring := sh'.dec.ring } }) ∧
    t.inS = s.inS ∧ t.inX = s.inX ∧ t.outO = s.outO ∧ t.outY = s.outY ∧ t.agenda = rest

/-! ## The register interface (R52, R53, R58) -/

/-- R209, R219, R51 (a): a host write of P, SLEN, N or the configuration, the weight tables included, is ignored in INIT and
RUN. -/
def Obligations.ProgrammingIgnoredWhileRunning : Prop :=
  (∀ s rest offset value, s.agenda = .host (.write .dec offset value) :: rest → (s.dec.st = .init ∨ s.dec.st = .run) →
    offset ∈ [0x08#16, 0x0C#16, 0x10#16] → step s = .next { s with agenda := rest }) ∧
  (∀ s rest offset value, s.agenda = .host (.write .enc offset value) :: rest → (s.enc.st = .init ∨ s.enc.st = .run) →
    (offset ∈ [0x08#16, 0x0C#16, 0x40#16, 0x44#16, 0x48#16, 0x4C#16] ∨
      (∃ j : Fin 16, offset = BitVec.ofNat 16 (0x80 + 4 * j.val)) ∨
      (∃ b : Fin 12, offset = BitVec.ofNat 16 (0xC0 + 4 * b.val))) →
    step s = .next { s with agenda := rest })

/-- R22, R23, R34, R44 to R50, R52, R53, R219: what a host write stores in a stopped engine, for every programmable register;
nothing else changes. That the clamp of TLR (R44) sees the word without its bits 31:17, so that 0x00020000 stores 0, is the
model's choice (log entry 24). -/
def Obligations.ProgrammingStoresFields : Prop :=
  (∀ s rest offset value d, s.agenda = .host (.write .dec offset value) :: rest → s.dec.st.stopped = true →
    (offset, d) ∈
      [(0x08#16, { s.dec with p := value }),
       (0x0C#16, { s.dec with slen := BitVec.ofNat 40 (s.dec.slen.toNat / 2 ^ 32 * 2 ^ 32 + value.toNat) }),
       (0x10#16, { s.dec with slen := BitVec.ofNat 40 (value.toNat % 2 ^ 8 * 2 ^ 32 + s.dec.slen.toNat % 2 ^ 32) })] →
    step s = .next { s with agenda := rest, dec := d }) ∧
  (∀ s rest offset value e, s.agenda = .host (.write .enc offset value) :: rest → s.enc.st.stopped = true →
    ((offset, e) ∈
      [(0x08#16, { s.enc with n := BitVec.ofNat 33 (s.enc.n.toNat / 2 ^ 32 * 2 ^ 32 + value.toNat) }),
       (0x0C#16, { s.enc with n := BitVec.ofNat 33 (value.toNat % 2 * 2 ^ 32 + s.enc.n.toNat % 2 ^ 32) }),
       (0x40#16, { s.enc with tlr := BitVec.ofNat 17 (min (value.toNat % 2 ^ 17) 65536) }),
       (0x44#16, { s.enc with minlen := BitVec.ofNat 5 (value.toNat % 32)
                              maxlen := BitVec.ofNat 5 (value.toNat / 256 % 32) }),
       (0x48#16, { s.enc with depth := BitVec.ofNat 13 (value.toNat % 2 ^ 13) }),
       (0x4C#16, { s.enc with lazy := decide (value.toNat % 2 = 1) })] ∨
     (∃ j : Fin 16, offset = BitVec.ofNat 16 (0x80 + 4 * j.val) ∧
       e = { s.enc with lw := s.enc.lw.set j.val (BitVec.ofNat 16 (value.toNat % 2 ^ 16)) }) ∨
     (∃ b : Fin 12, offset = BitVec.ofNat 16 (0xC0 + 4 * b.val) ∧
       e = { s.enc with dw := s.enc.dw.set b.val (BitVec.ofNat 16 (value.toNat % 2 ^ 16)) })) →
    step s = .next { s with agenda := rest, enc := e })

/-- R52, R53, R58: what a host read returns, for every register but STATUS: the host's own registers in every run state, the
working registers and the ring window in a stopped engine. Only `rdata` and `draws` change beside the agenda (log entry
16). -/
def Obligations.ReadsOfRegisters : Prop :=
  (∀ s rest offset value, s.agenda = .host (.read .dec offset) :: rest →
    ((offset, value) ∈
      [(0x00#16, 4 * s.dec.ie.toNat), (0x08#16, s.dec.p.toNat), (0x0C#16, s.dec.slen.toNat % 2 ^ 32),
       (0x10#16, s.dec.slen.toNat / 2 ^ 32)] ∨
     s.dec.st.stopped = true ∧
      ((offset, value) ∈
        [(0x14#16, s.dec.iptr.toNat % 2 ^ 32), (0x18#16, s.dec.iptr.toNat / 2 ^ 32), (0x1C#16, s.dec.ocnt.toNat),
         (0x20#16, s.dec.rcur.toNat), (0x24#16, s.dec.flags.toNat + 2 ^ 8 * s.dec.fcnt.toNat),
         (0x28#16, s.dec.pos.toNat + 2 ^ 16 * s.dec.len.toNat + 2 ^ 24 * s.dec.ci.toNat),
         (0x2C#16, s.dec.u.toNat + 2 ^ 8 * s.dec.l.toNat)] ∨
       ∃ a : RingAddr, offset = 0x1000#16 + a.setWidth 16 ∧ value = (s.dec.ring.read a).toNat)) →
    ∃ t, step s = .next t ∧ t.rdata.toNat = value ∧
      t = { s with agenda := rest, rdata := t.rdata, draws := t.draws }) ∧
  (∀ s rest offset value, s.agenda = .host (.read .enc offset) :: rest →
    ((offset, value) ∈
      [(0x00#16, 4 * s.enc.ie.toNat), (0x08#16, s.enc.n.toNat % 2 ^ 32), (0x0C#16, s.enc.n.toNat / 2 ^ 32),
       (0x40#16, s.enc.tlr.toNat), (0x44#16, s.enc.minlen.toNat + 2 ^ 8 * s.enc.maxlen.toNat),
       (0x48#16, s.enc.depth.toNat), (0x4C#16, s.enc.lazy.toNat)] ∨
     (∃ j : Fin 16, offset = BitVec.ofNat 16 (0x80 + 4 * j.val) ∧ value = s.enc.lw[j].toNat) ∨
     (∃ b : Fin 12, offset = BitVec.ofNat 16 (0xC0 + 4 * b.val) ∧ value = s.enc.dw[b].toNat) ∨
     s.enc.st.stopped = true ∧
      ((offset, value) ∈
        [(0x10#16, s.enc.spos.toNat % 2 ^ 32), (0x14#16, s.enc.spos.toNat / 2 ^ 32),
         (0x18#16, s.enc.optr.toNat % 2 ^ 32), (0x1C#16, s.enc.optr.toNat / 2 ^ 32), (0x20#16, s.enc.rcur.toNat),
         (0x24#16, s.enc.qflag.toNat + 2 ^ 8 * s.enc.qn.toNat + 2 ^ 16 * s.enc.qbn.toNat),
         (0x28#16, s.enc.litops.toNat % 2 ^ 32), (0x2C#16, s.enc.litops.toNat / 2 ^ 32),
         (0x30#16, s.enc.totops.toNat % 2 ^ 32), (0x34#16, s.enc.totops.toNat / 2 ^ 32)] ∨
       ∃ a : RingAddr, offset = 0x1000#16 + a.setWidth 16 ∧ value = (s.enc.ring.read a).toNat)) →
    ∃ t, step s = .next t ∧ t.rdata.toNat = value ∧
      t = { s with agenda := rest, rdata := t.rdata, draws := t.draws })

/-- R52, R53, R58: the STATUS words of both engines hold ST, ERR and ERRPH exactly in every run state, and PH in a stopped
engine, under the numbers of R21, R30, R42, R201 and R206; and R210: the interrupt lines are functions of IE and ST. -/
def Obligations.StatusFieldsAreExact : Prop :=
  (∀ s rest, s.agenda = .host (.read .dec 0x04) :: rest → ∃ t, step s = .next t ∧ t.rdata.toNat < 2 ^ 15 ∧
    t = { s with agenda := rest, rdata := t.rdata, draws := t.draws } ∧
    t.rdata.toNat % 2 ^ 12 =
      (match s.dec.st with | .idle => 0 | .init => 1 | .run => 2 | .done => 3 | .fault => 4) +
      16 * (match s.dec.err with | .none => 0 | .unexpectedEnd => 1 | .corrupt => 2 | .roundTripMismatch => 3) +
      256 * (match s.dec.errph with | .none => 0 | .atFlag => 1 | .atLit => 2 | .atRefU => 3 | .atRefL => 4) ∧
    (s.dec.st.stopped = true → t.rdata.toNat / 2 ^ 12 =
      match s.dec.ph with | .guard => 0 | .flag => 1 | .bit => 2 | .lit => 3 | .refU => 4 | .refL => 5 | .copy => 6)) ∧
  (∀ s rest, s.agenda = .host (.read .enc 0x04) :: rest → ∃ t, step s = .next t ∧ t.rdata.toNat < 2 ^ 15 ∧
    t = { s with agenda := rest, rdata := t.rdata, draws := t.draws } ∧
    t.rdata.toNat % 2 ^ 12 =
      (match s.enc.st with | .idle => 0 | .init => 1 | .run => 2 | .done => 3 | .fault => 4) +
      16 * (match s.enc.err with | .none => 0 | .unexpectedEnd => 1 | .corrupt => 2 | .roundTripMismatch => 3) +
      256 * (match s.enc.errph with | .none => 0 | .atFlag => 1 | .atLit => 2 | .atRefU => 3 | .atRefL => 4) ∧
    (s.enc.st.stopped = true → t.rdata.toNat / 2 ^ 12 =
      match s.enc.ph with | .guard => 0 | .search => 1 | .select => 2 | .commit => 3 | .pack => 4 | .flush => 5)) ∧
  (∀ d : Dec, d.irq = true ↔ d.ie = true ∧ (d.st = .done ∨ d.st = .fault)) ∧
  (∀ e : Enc, e.irq = true ↔ e.ie = true ∧ (e.st = .done ∨ e.st = .fault))

/-! ## ENC: search and selection -/

/-- R155: the replay expansion, both cases, for every distance 1 to 4095. -/
def Obligations.ReplayFollowsRecursion : Prop :=
  ∀ (r : Ring) (c : RingAddr) (d i : Nat), 1 ≤ d → d ≤ 4095 →
    (i < d → replayByte r c d i = r.read (c - BitVec.ofNat 12 d + BitVec.ofNat 12 i)) ∧
    (d ≤ i → replayByte r c d i = replayByte r c d (i - d))

/-- R156: `L(d)` is the greatest length up to `lim` on which replay and input agree. -/
def Obligations.MatchLengthIsGreatest : Prop :=
  ∀ (r : Ring) (c : RingAddr) (d : Nat) (xs : List Byte) (lim : Nat), lim ≤ xs.length →
    matchLength r c d xs lim ≤ lim ∧
    (∀ i, i < matchLength r c d xs lim → xs[i]? = some (replayByte r c d i)) ∧
    (∀ l, l ≤ lim → (∀ i, i < l → xs[i]? = some (replayByte r c d i)) → l ≤ matchLength r c d xs lim)

/-- R51 (c), R157, R158, R163: the probed distances go up to `DEPTH_eff = min(DEPTH, 4095)`, and one is valid exactly if its
match length is at least `MINLEN_eff = max(MINLEN, 3)`. The best candidate is a valid one with its match length and score, of
greatest score, and of the smallest distance among those; there is one exactly when some probed distance is valid. -/
def Obligations.BestCandidateIsNearestOfBestScore : Prop :=
  ∀ (e : Enc) (r : Ring) (c : RingAddr) (xs : List Byte) (lim : Nat), lim ≤ 18 →
    let b := e.bestCandidate r c xs lim
    let candidate := fun d : Nat =>
      1 ≤ d ∧ d ≤ min e.depth.toNat 4095 ∧ max e.minlen.toNat 3 ≤ matchLength r c d xs lim
    (b.valid = true ↔ ∃ d, candidate d) ∧
    (b.valid = true →
      candidate b.dist.toNat ∧ b.len.toNat = matchLength r c b.dist.toNat xs lim ∧
      b.score = e.score b.dist.toNat b.len.toNat ∧
      (∀ d, candidate d → e.score d (matchLength r c d xs lim) ≤ b.score) ∧
      (∀ d, candidate d → e.score d (matchLength r c d xs lim) = b.score → b.dist.toNat ≤ d))

/-- R162: the score is the exact product; 37 bits hold it for every length of the format. -/
def Obligations.ScoreIsExact : Prop :=
  ∀ (e : Enc) (d l : Nat), 1 ≤ d → d ≤ 4095 → 3 ≤ l → (hl : l ≤ 18) →
    ∃ lw dw : BitVec 16, some lw = e.lw[l - 3]? ∧ some dw = e.dw[Nat.log2 d]? ∧
      (e.score d l).toNat = l * lw.toNat * dw.toNat

/-- R166, R164, R165: the ordered rule set of SELECT; nothing but `kind` and `PH` changes. -/
def Obligations.SelectPhaseOfEnc : Prop :=
  ∀ s, EncRuns s .select → ∃ kind, encStep s = .next { s with enc := { s.enc with kind := kind, ph := .commit } } ∧
    (kind = .ref ↔
      s.enc.best.valid = true ∧ ¬ s.enc.litops.toNat * 65536 < s.enc.tlr.toNat * s.enc.totops.toNat ∧
      ¬ (s.enc.lazy = true ∧ s.enc.best.len.toNat < min s.enc.maxlen.toNat 18 ∧
         s.enc.spos.toNat + 1 < s.enc.n.toNat ∧ s.enc.next.valid = true ∧ s.enc.best.score < s.enc.next.score))

/-- R154, R159, R163, R165, R253: GUARD and SEARCH of ENC; SEARCH writes the candidate registers and nothing else. The lazy
candidate is the best one at `s + 1` on the ring as it would be after the literal `X[s]`. Where there is no candidate the
registers are 0 and BPOS is the cursor, and where the lazy rule is not evaluated the N registers are 0: the model's choice
(log entry 12). -/
def Obligations.GuardAndSearchPhasesOfEnc : Prop :=
  (∀ s, EncRuns s .guard →
    encStep s = .next { s with enc := { s.enc with ph := if s.enc.spos = s.enc.n then .flush else .search } }) ∧
  (∀ s, EncRuns s .search → ∃ t, encStep s = .next t ∧
    t = { s with enc := { s.enc with best := t.enc.best, bpos := s.enc.rcur - t.enc.best.dist, next := t.enc.next
                                     ph := .select } } ∧
    t.enc.best = s.enc.bestCandidate s.enc.ring s.enc.rcur (s.inX.drop s.enc.spos.toNat)
      (min (min s.enc.maxlen.toNat 18) (s.enc.n.toNat - s.enc.spos.toNat)) ∧
    (t.enc.best.valid = false → t.enc.best = ⟨false, 0, 0, 0⟩) ∧
    (let lazyEvaluated :=
      s.enc.lazy = true ∧ t.enc.best.valid = true ∧ ¬ s.enc.litops.toNat * 65536 < s.enc.tlr.toNat * s.enc.totops.toNat ∧
      t.enc.best.len.toNat < min s.enc.maxlen.toNat 18 ∧ s.enc.spos.toNat + 1 < s.enc.n.toNat
     (lazyEvaluated → ∃ b, s.inX[s.enc.spos.toNat]? = some b ∧
       t.enc.next = s.enc.bestCandidate (s.enc.ring.write s.enc.rcur b) (s.enc.rcur + 1)
         (s.inX.drop (s.enc.spos.toNat + 1))
         (min (min s.enc.maxlen.toNat 18) (s.enc.n.toNat - (s.enc.spos.toNat + 1)))) ∧
     (¬ lazyEvaluated → t.enc.next = ⟨false, 0, 0, 0⟩)))

/-! ## ENC: commit and output -/

/-- R167, R169, R171, R172: COMMIT of a LIT. -/
def Obligations.CommitPhaseOfLit : Prop :=
  ∀ s, EncRuns s .commit → s.enc.kind = .lit → ∃ b t, s.inX[s.enc.spos.toNat]? = some b ∧ encStep s = .next t ∧
    t = { s with enc := { s.enc with qflag := s.enc.qflag ||| (1#8 <<< (7 - s.enc.qn.toNat)), qb := t.enc.qb
                                     qbn := s.enc.qbn + 1, qn := s.enc.qn + 1
                                     ring := s.enc.ring.write s.enc.rcur b, rcur := s.enc.rcur + 1
                                     spos := s.enc.spos + 1, litops := s.enc.litops + 1, totops := s.enc.totops + 1
                                     ph := if s.enc.qn = 7 then .pack else .guard } } ∧
    (∀ j, j < 16 → t.enc.qb[j]? = if j = s.enc.qbn.toNat then some b else s.enc.qb[j]?)

/-- R168, R95, R171, R172: COMMIT of a REF: its two bytes, the ring update in order, the counters. -/
def Obligations.CommitPhaseOfRef : Prop :=
  ∀ s, EncRuns s .commit → s.enc.kind = .ref → s.enc.ring.wf → ∃ t, encStep s = .next t ∧
    t = { s with enc := { s.enc with qb := t.enc.qb, qbn := s.enc.qbn + 2, qn := s.enc.qn + 1, ring := t.enc.ring
                                     rcur := s.enc.rcur + s.enc.best.len.setWidth 12
                                     spos := s.enc.spos + s.enc.best.len.setWidth 33, totops := s.enc.totops + 1
                                     ph := if s.enc.qn = 7 then .pack else .guard } } ∧
    (∀ j, j < 16 → t.enc.qb[j]? =
      if j = s.enc.qbn.toNat then some (refU s.enc.bpos s.enc.best.len)
      else if j = s.enc.qbn.toNat + 1 then some (refL s.enc.bpos) else s.enc.qb[j]?) ∧
    (∀ a : RingAddr, some (t.enc.ring.read a) =
      if (a - s.enc.rcur).toNat < s.enc.best.len.toNat then s.inX[s.enc.spos.toNat + (a - s.enc.rcur).toNat]?
      else some (s.enc.ring.read a))

/-- R170, R182: PACK writes the flag byte and the pending bytes, masked, at OPTR, and empties the queue; `Y` elsewhere is as
before. The bytes written are fed to the shadow decoder, if there is one, in order. -/
def Obligations.PackPhaseWritesBlock : Prop :=
  ∀ s, EncRuns s .pack → ∃ t, ∃ block : List Byte, encStep s = .next t ∧
    t = { s with outY := t.outY, draws := t.draws
                 enc := { s.enc with optr := s.enc.optr + 1 + s.enc.qbn.setWidth 34, qn := 0, qflag := 0
                                     qb := t.enc.qb, qbn := 0, ph := .guard
                                     shadow := s.enc.shadow.map (Shadow.feedAll s.inX block) } } ∧
    block.length = s.enc.qbn.toNat + 1 ∧ block[0]? = some (s.enc.qflag ^^^ 0xFF#8) ∧
    (∀ j, j < s.enc.qbn.toNat → block[j + 1]? = s.enc.qb[j]?.map fun b => b ^^^ 0xFF#8) ∧
    (∀ j, j < block.length → t.outY.read (s.enc.optr.toNat + j) = block[j]?) ∧
    (∀ k, (k < s.enc.optr.toNat ∨ s.enc.optr.toNat + block.length ≤ k) → t.outY.read k = s.outY.read k)

/-- R173, R174: FLUSH without a shadow decoder: nothing written when the queue is empty, else the partial block; DONE. -/
def Obligations.FlushPhaseEndsRun : Prop :=
  ∀ s, EncRuns s .flush → s.enc.shadow = none →
    (s.enc.qn = 0 → encStep s = .next { s with enc := { s.enc with st := .done } }) ∧
    (s.enc.qn ≠ 0 → ∃ t, encStep s = .next t ∧
      t = { s with outY := t.outY, draws := t.draws
                   enc := { s.enc with optr := s.enc.optr + 1 + s.enc.qbn.setWidth 34, qn := 0, qflag := 0
                                       qb := t.enc.qb, qbn := 0, st := .done } } ∧
      t.outY.read s.enc.optr.toNat = some (s.enc.qflag ^^^ 0xFF#8) ∧
      (∀ j, j < s.enc.qbn.toNat →
        t.outY.read (s.enc.optr.toNat + 1 + j) = s.enc.qb[j]?.map fun b => b ^^^ 0xFF#8) ∧
      (∀ k, (k < s.enc.optr.toNat ∨ s.enc.optr.toNat + 1 + s.enc.qbn.toNat ≤ k) → t.outY.read k = s.outY.read k))

/-- R173, R182, R204, R205: the self-check of FLUSH. The shadow decoder, fed with the partial block if there is one, has to be
DONE with no mismatch and `IPTR = OPTR`; if it is not, the fault is raised and nothing else changes, a partial block
included (log entry 10). -/
def Obligations.SelfCheckDecidesFlush : Prop :=
  ∀ s sh, EncRuns s .flush → s.enc.shadow = some sh →
    (s.enc.qn = 0 →
      let sh' := sh.settle s.inX Shadow.fuel
      (sh'.mismatch = false ∧ sh'.dec.st = .done ∧ sh'.dec.iptr.toNat = s.enc.optr.toNat →
        encStep s = .next { s with enc := { s.enc with shadow := some sh', st := .done } }) ∧
      (¬ (sh'.mismatch = false ∧ sh'.dec.st = .done ∧ sh'.dec.iptr.toNat = s.enc.optr.toNat) →
        encStep s = .next { s with enc := { s.enc with err := .roundTripMismatch, errph := .none, st := .fault } })) ∧
    (s.enc.qn ≠ 0 → ∃ block : List Byte,
      block.length = s.enc.qbn.toNat + 1 ∧ block[0]? = some (s.enc.qflag ^^^ 0xFF#8) ∧
      (∀ j, j < s.enc.qbn.toNat → block[j + 1]? = s.enc.qb[j]?.map fun b => b ^^^ 0xFF#8) ∧
      (let sh' := (sh.feedAll s.inX block).settle s.inX Shadow.fuel
       let passes := sh'.mismatch = false ∧ sh'.dec.st = .done ∧
         sh'.dec.iptr.toNat = s.enc.optr.toNat + block.length
       (passes → ∃ t, encStep s = .next t ∧
         t = { s with outY := t.outY, draws := t.draws
                      enc := { s.enc with optr := s.enc.optr + 1 + s.enc.qbn.setWidth 34, qn := 0, qflag := 0
                                          qb := t.enc.qb, qbn := 0, shadow := some sh', st := .done } } ∧
         (∀ j, j < block.length → t.outY.read (s.enc.optr.toNat + j) = block[j]?) ∧
         (∀ k, (k < s.enc.optr.toNat ∨ s.enc.optr.toNat + block.length ≤ k) → t.outY.read k = s.outY.read k)) ∧
       (¬ passes →
         encStep s = .next { s with enc := { s.enc with err := .roundTripMismatch, errph := .none, st := .fault } })))

/-- R43, R182: feeding the shadow decoder is decoding. With `w` the bytes written and `P = N`, the shadow, run to where it needs
a byte, is DONE exactly if DEC is DONE on `w`; then it has consumed as many bytes, and it has no mismatch exactly if DEC's
output is the input. -/
def Obligations.ShadowDecidesAsDecoder : Prop :=
  ∀ (x w : List Byte) (n : BitVec 33) (sh : Shadow) (t : State), n.toNat < 2 ^ 32 → w.length < 2 ^ 40 →
    stateAfter (decSteps w (n.setWidth 32)) (decLaunch State.reset w (n.setWidth 32)) = some t →
    let fin := ((Shadow.init n sh).feedAll x w).settle x Shadow.fuel
    (fin.dec.st = .done ↔ t.dec.st = .done) ∧
    (t.dec.st = .done → fin.dec.iptr = t.dec.iptr ∧
      (fin.mismatch = false ↔ ∀ k, k < n.toNat → ∃ v, t.outO.read k = some v ∧ x[k]? = some v))

/-- R183: an encoder that reaches DONE has written at most `N + ceil(N / 8)` bytes. -/
def Obligations.EncodedSizeBound : Prop :=
  ∀ s t, s.enc.st = .run → encStep s = .next t → t.enc.st = .done →
    t.enc.optr.toNat ≤ t.enc.n.toNat + (t.enc.n.toNat + 7) / 8

/-! ## Whole-machine rules -/

/-- R211, R212, R224: an engine that is not in INIT or RUN takes no step. -/
def Obligations.StoppedEngineTakesNoStep : Prop :=
  (∀ s, s.dec.st ≠ .init → s.dec.st ≠ .run → decStep s = .next s) ∧
  (∀ s, s.enc.st ≠ .init → s.enc.st ≠ .run → encStep s = .next s)

/-- R20, R78, R83: a step of DEC leaves ENC, `S`, `X` and `Y` alone and depends on DEC, `S` and `O` alone; a step of ENC leaves
DEC, `S`, `X` and `O` alone and depends on ENC, `X`, `Y` and the counter of free values (log entry 5) alone. -/
def Obligations.EnginesShareNothing : Prop :=
  (∀ s t, decStep s = .next t → t = { s with dec := t.dec, outO := t.outO }) ∧
  (∀ s t, encStep s = .next t → t = { s with enc := t.enc, outY := t.outY, draws := t.draws }) ∧
  (∀ s s', s'.dec = s.dec → s'.inS = s.inS → s'.outO = s.outO →
    (∀ t, decStep s = .next t → decStep s' = .next { s' with dec := t.dec, outO := t.outO }) ∧
    (∀ r, decStep s = .fault r → decStep s' = .fault r) ∧ (∀ r, decStep s = .refused r → decStep s' = .refused r)) ∧
  (∀ s s', s'.enc = s.enc → s'.inX = s.inX → s'.outY = s.outY → s'.draws = s.draws →
    (∀ t, encStep s = .next t → encStep s' = .next { s' with enc := t.enc, outY := t.outY, draws := t.draws }) ∧
    (∀ r, encStep s = .fault r → encStep s' = .fault r) ∧ (∀ r, encStep s = .refused r → encStep s' = .refused r))

/-- R22, R23, R34, R51 (e): no step changes P, SLEN, N or the configuration unless the host writes a register or resets. -/
def Obligations.OnlyHostProgramsParameters : Prop :=
  ∀ s t, step s = .next t →
    (∀ engine offset value rest, s.agenda ≠ .host (.write engine offset value) :: rest) →
    (∀ rest, s.agenda ≠ .host .hardwareReset :: rest) →
    t.dec.p = s.dec.p ∧ t.dec.slen = s.dec.slen ∧ t.enc.n = s.enc.n ∧ t.enc.tlr = s.enc.tlr ∧
    t.enc.minlen = s.enc.minlen ∧ t.enc.maxlen = s.enc.maxlen ∧ t.enc.depth = s.enc.depth ∧ t.enc.lw = s.enc.lw ∧
    t.enc.dw = s.enc.dw ∧ t.enc.lazy = s.enc.lazy

/-- R12, R202, R203, R208, R219: what ends a run of DEC: DONE is entered with `OCNT = P` only, FAULT with the stream
exhausted only and with the cause of the phase. -/
def Obligations.WhatEndsRunOfDec : Prop :=
  ∀ s t, s.dec.st = .run → decStep s = .next t →
    (t.dec.st = .run ∨ t.dec.st = .done ∨ t.dec.st = .fault) ∧
    (t.dec.st = .done → s.dec.ph = .guard ∧ s.dec.ocnt = s.dec.p) ∧
    (t.dec.st = .fault → s.dec.iptr = s.dec.slen ∧ t.dec.ocnt = s.dec.ocnt ∧
      (s.dec.ph = .flag ∧ t.dec.err = .unexpectedEnd ∧ t.dec.errph = .atFlag ∨
       s.dec.ph = .lit ∧ t.dec.err = .corrupt ∧ t.dec.errph = .atLit ∨
       s.dec.ph = .refU ∧ t.dec.err = .corrupt ∧ t.dec.errph = .atRefU ∨
       s.dec.ph = .refL ∧ t.dec.err = .corrupt ∧ t.dec.errph = .atRefL))

/-! ## Invariants -/

/-- R61, R74 and log entry 6: every memory keeps its canonical form in every step, from every state. -/
def Obligations.StepKeepsMemoryCanonical : Prop :=
  ∀ s t, MemoryCanonical s → step s = .next t → MemoryCanonical t

/-- R59 for DEC: count, cursor and ring content agree with what has been emitted, after every step of anyone; and (b), (c)
hold in RUN, DONE and FAULT after every step that is no host write of P or SLEN (log entry 14). -/
def Obligations.StepKeepsDecInvariant : Prop :=
  ∀ s t, s.dec.ring.wf → DecInvariant s → step s = .next t →
    DecInvariant t ∧
    ((∀ offset value rest, offset ∈ [0x08#16, 0x0C#16, 0x10#16] →
        s.agenda ≠ .host (.write .dec offset value) :: rest) →
      DecCountsInRange s → DecCountsInRange t)

/-- R59 for ENC: queue, counters, cursor and ring content agree with the input covered, after every step of anyone; and in
DONE and FAULT too the ring holds the input itself, after every step in which the host neither writes N nor binds another
`X` (log entry 14). -/
def Obligations.StepKeepsEncInvariant : Prop :=
  ∀ s t, s.enc.ring.wf → EncInvariant s → step s = .next t →
    EncInvariant t ∧
    ((∀ offset value rest, offset ∈ [0x08#16, 0x0C#16] → s.agenda ≠ .host (.write .enc offset value) :: rest) →
      (∀ bytes rest, s.agenda ≠ .host (.bindPixels bytes) :: rest) →
      EncCoversInput s → EncCoversInput t)

/-- The canonical form and the invariants hold at reset, with and without a shadow decoder, and the invariants after the INIT
step of any state in INIT. -/
def Obligations.InvariantsHoldAtStart : Prop :=
  (∀ selfCheck, MemoryCanonical (State.resetWith selfCheck)) ∧
  (DecInvariant State.reset ∧ DecCountsInRange State.reset) ∧ (EncInvariant State.reset ∧ EncCoversInput State.reset) ∧
  (∀ s t, s.dec.st = .init → decStep s = .next t → DecInvariant t ∧ DecCountsInRange t) ∧
  (∀ s t, s.enc.st = .init → s.enc.n.toNat ≤ 2 ^ 32 → encStep s = .next t → EncInvariant t ∧ EncCoversInput t)

/-- 93 U16: with the invariants, no step is stuck. -/
def Obligations.NoStepIsStuck : Prop :=
  ∀ s r, DecInvariant s → EncInvariant s → step s ≠ .fault r

/-! ## Headline results -/

/-- R12, R141: a run of DEC started on `S` with `P` ends within `4 * (SLEN + P) + 4` steps, in DONE or in FAULT. -/
def Obligations.DecRunEnds : Prop :=
  ∀ s, DecRuns s .guard → s.agenda = [] → s.dec.iptr = 0 → s.dec.ocnt = 0 → s.enc.st.stopped = true →
    ∃ k t, k ≤ 4 * (s.dec.slen.toNat + s.dec.p.toNat) + 4 ∧ Host.Core.run Sys2Proof.core k s = .next t ∧
      (t.dec.st = .done ∨ t.dec.st = .fault)

/-- R102, R139, 93 U7: what follows the bytes a run needs does not matter, however much it is. -/
def Obligations.TrailingBytesIgnored : Prop :=
  ∀ (stream trailing : List Byte) (p : BitVec 32) (pixels : List Byte),
    decFunction stream p = some (.ok pixels) → decFunction (stream ++ trailing) p = some (.ok pixels)

/-- R121, R146: the result of a run depends on `S` and `P` alone, whatever the block held before. -/
def Obligations.DecResultDependsOnStreamAndCount : Prop :=
  ∀ (s : State) (stream : List Byte) (p : BitVec 32), s.dec.st.stopped = true → s.enc.st.stopped = true →
    (stateAfter (decSteps stream p) (decLaunch s stream p)).bind decOutcome = decFunction stream p

/-- R157, R181: a decoder with the same ring and cursor, given the REF of a valid candidate, emits the input bytes. -/
def Obligations.ValidCandidateReproducesInput : Prop :=
  ∀ (s : State) (d : Nat) (xs : List Byte) (lim : Nat) (length : BitVec 5), 1 ≤ d → d ≤ 4095 →
    3 ≤ length.toNat → length.toNat ≤ 18 → length.toNat ≤ matchLength s.dec.ring s.dec.rcur d xs lim →
    s.dec.iptr ≠ s.dec.slen → s.dec.iptr + 1 ≠ s.dec.slen →
    s.dec.ocnt.toNat + length.toNat ≤ s.dec.p.toNat → s.dec.ring.wf →
    ∃ t, exec (.ref (s.dec.rcur - BitVec.ofNat 12 d) length) s = .next t ∧
      ∀ i, i < length.toNat → t.outO.read (s.dec.ocnt.toNat + i) = xs[i]?

/-- R150, R151: the mandatory contract: `dec(enc(X, cfg), |X|) = Ok(X)` for every input that `P` can count and every
configuration, with the engine that has no self-check, `SELFCHECK = false`, which State.reset is (log entry 8); for the other
see `SelfCheckNeverFires`. (R151 also names `N = 2^32`, which no 32-bit `P` holds.) Its second half is `EncodedStreamIsStrict`. -/
def Obligations.RoundTrip : Prop :=
  ∀ (pixels : List Byte) (cfg : Policy), pixels.length < 2 ^ 32 →
    ∃ stream, encFunction pixels cfg = some stream ∧
      decFunction stream (BitVec.ofNat 32 pixels.length) = some (.ok pixels)

/-- R151, the second half, of the streams of the engine without the self-check (log entry 8; the other writes the same streams,
`SelfCheckNeverFires`): the decoder consumes every byte of an encoded stream; when it starts to copy a REF of it, the
distance is not 0 and the length does not overshoot `N`. -/
def Obligations.EncodedStreamIsStrict : Prop :=
  ∀ (pixels : List Byte) (cfg : Policy) (stream : List Byte), pixels.length < 2 ^ 32 →
    encFunction pixels cfg = some stream →
    (∃ t, stateAfter (decSteps stream (BitVec.ofNat 32 pixels.length))
        (decLaunch State.reset stream (BitVec.ofNat 32 pixels.length)) = some t ∧
      t.dec.st = .done ∧ t.dec.iptr.toNat = stream.length) ∧
    (∀ k t, stateAfter k (decLaunch State.reset stream (BitVec.ofNat 32 pixels.length)) = some t →
      t.dec.st = .run → t.dec.ph = .copy → t.dec.ci = 0 →
      distance t.dec.rcur t.dec.pos ≠ 0 ∧ t.dec.ocnt.toNat + t.dec.len.toNat ≤ pixels.length)

/-- R151, R181, R182, R204: the self-check never fires. From reset, the engine with `SELFCHECK = true` (log entry 8) ends every
run in DONE, with the stream that the engine without it writes. -/
def Obligations.SelfCheckNeverFires : Prop :=
  ∀ (pixels : List Byte) (cfg : Policy), pixels.length ≤ 2 ^ 32 →
    ∃ t stream, stateAfter (encSteps pixels) (encLaunch (State.resetWith true) pixels cfg) = some t ∧
      t.enc.st = .done ∧ t.enc.err = .none ∧ encOutcome t = some stream ∧ encFunction pixels cfg = some stream
end

