-- ==== Sys2Proof/Laws/Memory.lean ====
section
/-! SUPPORT. What every memory operation does, said once: a read after a write, and that the canonical form is kept. -/

namespace Sys2Proof.Machine

/-! ## Reads after writes -/

@[simp] theorem Memory.read_nil (a : Nat) : Memory.read [] a = none := rfl

theorem Memory.read_cons (b : Nat) (w : Byte) (t : Memory) (a : Nat) :
    Memory.read ((b, w) :: t) a = if a = b then some w else Memory.read t a := rfl

theorem Memory.read_write_same (m : Memory) (a : Nat) (v : Byte) : (m.write a v).read a = some v := by
  induction m with
  | nil => simp [Memory.write, Memory.read]
  | cons c t ih =>
    obtain ⟨b, w⟩ := c
    simp only [Memory.write]
    split
    · simp [Memory.read]
    · split
      · simp [Memory.read]
      · rename_i h1 h2
        simp [Memory.read, h2, ih]

theorem Memory.read_write_other (m : Memory) {a k : Nat} (v : Byte) (h : k ≠ a) : (m.write a v).read k = m.read k := by
  induction m with
  | nil => simp [Memory.write, Memory.read, h]
  | cons c t ih =>
    obtain ⟨b, w⟩ := c
    simp only [Memory.write]
    split
    · simp [Memory.read, h]
    · split
      · rename_i h1 h2
        subst h2
        simp [Memory.read, h]
      · simp [Memory.read, ih]

theorem Memory.read_write (m : Memory) (a k : Nat) (v : Byte) :
    (m.write a v).read k = if k = a then some v else m.read k := by
  by_cases h : k = a
  · subst h; simp [Memory.read_write_same]
  · simp [h, Memory.read_write_other m v h]

/-- A list whose addresses all lie above `a` has nothing at `a`. -/
theorem Memory.read_eq_none_of_lt {m : Memory} {a : Nat} (h : ∀ c ∈ m, a < c.1) : m.read a = none := by
  induction m with
  | nil => rfl
  | cons c t ih =>
    obtain ⟨b, w⟩ := c
    have hb : a < b := h (b, w) (by simp)
    simp [Memory.read, Nat.ne_of_lt hb, ih fun c hc => h c (by simp [hc])]

theorem Memory.read_erase {bits : Nat} {m : Memory} (hm : m.wf bits) (a k : Nat) :
    (m.erase a).read k = if k = a then none else m.read k := by
  obtain ⟨hp, -⟩ := hm
  induction m with
  | nil => simp [Memory.erase]
  | cons c t ih =>
    obtain ⟨b, w⟩ := c
    have hp' := List.pairwise_cons.mp hp
    simp only [Memory.erase]
    split
    · rename_i hab
      subst hab
      by_cases hk : k = a
      · subst hk
        simpa using Memory.read_eq_none_of_lt (m := t) (a := k) hp'.1
      · simp [Memory.read, hk]
    · rename_i hab
      by_cases hk : k = a
      · subst hk
        simp only [Memory.read, hab, if_false, if_true]
        simpa using ih hp'.2
      · simp only [Memory.read, hk, if_false]
        have := ih hp'.2
        rw [if_neg hk] at this
        rw [this]

/-! ## The canonical form is kept -/

theorem Memory.mem_write {m : Memory} {a : Nat} {v : Byte} {c : Host.Cell} (h : c ∈ m.write a v) : c = (a, v) ∨ c ∈ m := by
  induction m with
  | nil => simpa [Memory.write] using h
  | cons d t ih =>
    obtain ⟨b, w⟩ := d
    simp only [Memory.write] at h
    split at h
    · simpa using h
    · split at h
      · rcases List.mem_cons.mp h with h | h
        · exact .inl h
        · exact .inr (by simp [h])
      · rcases List.mem_cons.mp h with h | h
        · exact .inr (by simp [h])
        · rcases ih h with h | h
          · exact .inl h
          · exact .inr (by simp [h])

theorem Memory.write_wf {bits a : Nat} {m : Memory} (hm : m.wf bits) (ha : a < 2 ^ bits) (v : Byte) :
    (m.write a v).wf bits := by
  obtain ⟨hp, hb⟩ := hm
  refine ⟨?_, fun c hc => ?_⟩
  · induction m with
    | nil => simp [Memory.write]
    | cons d t ih =>
      obtain ⟨b, w⟩ := d
      have hp' := List.pairwise_cons.mp hp
      simp only [Memory.write]
      split
      · rename_i hab
        refine List.pairwise_cons.mpr ⟨fun c hc => ?_, hp⟩
        rcases List.mem_cons.mp hc with hc | hc
        · subst hc; exact hab
        · exact Nat.lt_trans hab (hp'.1 c hc)
      · split
        · rename_i hab
          subst hab
          exact List.pairwise_cons.mpr ⟨hp'.1, hp'.2⟩
        · rename_i h1 h2
          refine List.pairwise_cons.mpr ⟨fun c hc => ?_, ih hp'.2 fun c hc => hb c (by simp [hc])⟩
          rcases Memory.mem_write hc with hc | hc
          · subst hc
            show b < a
            omega
          · exact hp'.1 c hc
  · rcases Memory.mem_write hc with hc | hc
    · subst hc; exact ha
    · exact hb c hc

theorem Memory.erase_sublist (m : Memory) (a : Nat) : (m.erase a).Sublist m := by
  induction m with
  | nil => exact List.Sublist.refl _
  | cons d t ih =>
    obtain ⟨b, w⟩ := d
    simp only [Memory.erase]
    split
    · exact List.sublist_cons_self _ _
    · exact ih.cons_cons _

theorem Memory.erase_wf {bits : Nat} {m : Memory} (hm : m.wf bits) (a : Nat) : (m.erase a).wf bits :=
  ⟨hm.1.sublist (m.erase_sublist a), fun c hc => hm.2 c ((m.erase_sublist a).subset hc)⟩

theorem Memory.writeAll_wf {bits : Nat} {vs : List Byte} {m : Memory} {a : Nat} (hm : m.wf bits)
    (ha : a + vs.length ≤ 2 ^ bits) : (m.writeAll a vs).wf bits := by
  induction vs generalizing m a with
  | nil => exact hm
  | cons v vs ih =>
    simp only [List.length_cons] at ha
    exact ih (Memory.write_wf hm (by omega) v) (by omega)

theorem Memory.read_writeAll (m : Memory) (a : Nat) (vs : List Byte) (k : Nat) :
    (m.writeAll a vs).read k = if a ≤ k ∧ k < a + vs.length then vs[k - a]? else m.read k := by
  induction vs generalizing m a with
  | nil => simp only [Memory.writeAll, List.length_nil, Nat.add_zero]; rw [if_neg (by omega)]
  | cons v vs ih =>
    rw [Memory.writeAll, ih, Memory.read_write]
    simp only [List.length_cons]
    by_cases h1 : k = a
    · subst h1
      simp
    · by_cases h2 : a + 1 ≤ k ∧ k < a + 1 + vs.length
      · rw [if_pos h2, if_pos (by omega), show k - a = (k - (a + 1)) + 1 by omega, List.getElem?_cons_succ]
      · rw [if_neg h2, if_neg h1, if_neg (by omega)]

/-! ## Rings -/

@[simp] theorem Ring.read_seeded (a : RingAddr) : Ring.seeded.read a = Config.ringFill := rfl

@[simp] theorem Ring.write_fill (r : Ring) (a : RingAddr) (v : Byte) : (r.write a v).fill = r.fill := by
  unfold Ring.write; split <;> rfl

theorem Ring.unlisted_congr {r r' : Ring} (h : r.fill = r'.fill) (a : RingAddr) : r.unlisted a = r'.unlisted a := by
  unfold Ring.unlisted; rw [h]

@[simp] theorem Ring.unlisted_write (r : Ring) (a k : RingAddr) (v : Byte) : (r.write a v).unlisted k = r.unlisted k :=
  Ring.unlisted_congr (r.write_fill a v) k

/-- A canonical ring reads as written (R61, R74). -/
theorem Ring.read_write {r : Ring} (hr : r.wf) (a k : RingAddr) (v : Byte) :
    (r.write a v).read k = if k = a then v else r.read k := by
  have hne : k ≠ a → k.toNat ≠ a.toNat := fun h h' => h (BitVec.eq_of_toNat_eq h')
  unfold Ring.read
  rw [Ring.unlisted_write]
  unfold Ring.write
  split
  · rename_i hv
    dsimp only
    rw [Memory.read_erase hr.1]
    by_cases h : k = a
    · subst h; simp [hv]
    · simp [hne h, h]
  · dsimp only
    rw [Memory.read_write]
    by_cases h : k = a
    · subst h; simp
    · simp [hne h, h]

theorem Ring.write_wf {r : Ring} (hr : r.wf) (a : RingAddr) (v : Byte) : (r.write a v).wf := by
  refine ⟨?_, fun c hc => ?_⟩
  · unfold Ring.write
    split
    · exact Memory.erase_wf hr.1 _
    · exact Memory.write_wf hr.1 a.isLt v
  · rw [Ring.unlisted_write]
    unfold Ring.write at hc
    split at hc
    · exact hr.2 c ((Memory.erase_sublist _ _).subset hc)
    · rename_i hv
      rcases Memory.mem_write hc with hc | hc
      · subst hc
        simpa using hv
      · exact hr.2 c hc

theorem Ring.seeded_wf : Ring.seeded.wf := ⟨⟨List.Pairwise.nil, by simp [Ring.seeded]⟩, by simp [Ring.seeded]⟩

theorem Ring.drawn_wf (n : Nat) : (Ring.mk (.drawn n) []).wf := ⟨⟨List.Pairwise.nil, by simp⟩, by simp⟩

end Sys2Proof.Machine
end

