-- ==== Sys2Proof/Laws/State.lean ====
section
/-! SUPPORT. What each shared update does to each field, one lemma per field per update, so that no later proof unfolds a
record update. -/

namespace Sys2Proof.Machine

/-! ### `Dec.advance` -/

@[simp] theorem Dec.advance_st (d : Dec) : (d.advance).st = d.st := rfl
@[simp] theorem Dec.advance_p (d : Dec) : (d.advance).p = d.p := rfl
@[simp] theorem Dec.advance_slen (d : Dec) : (d.advance).slen = d.slen := rfl
@[simp] theorem Dec.advance_iptr (d : Dec) : (d.advance).iptr = d.iptr + 1 := rfl
@[simp] theorem Dec.advance_ocnt (d : Dec) : (d.advance).ocnt = d.ocnt := rfl
@[simp] theorem Dec.advance_flags (d : Dec) : (d.advance).flags = d.flags := rfl
@[simp] theorem Dec.advance_fcnt (d : Dec) : (d.advance).fcnt = d.fcnt := rfl
@[simp] theorem Dec.advance_ring (d : Dec) : (d.advance).ring = d.ring := rfl
@[simp] theorem Dec.advance_rcur (d : Dec) : (d.advance).rcur = d.rcur := rfl
@[simp] theorem Dec.advance_ph (d : Dec) : (d.advance).ph = d.ph := rfl
@[simp] theorem Dec.advance_u (d : Dec) : (d.advance).u = d.u := rfl
@[simp] theorem Dec.advance_l (d : Dec) : (d.advance).l = d.l := rfl
@[simp] theorem Dec.advance_pos (d : Dec) : (d.advance).pos = d.pos := rfl
@[simp] theorem Dec.advance_len (d : Dec) : (d.advance).len = d.len := rfl
@[simp] theorem Dec.advance_ci (d : Dec) : (d.advance).ci = d.ci := rfl
@[simp] theorem Dec.advance_err (d : Dec) : (d.advance).err = d.err := rfl
@[simp] theorem Dec.advance_errph (d : Dec) : (d.advance).errph = d.errph := rfl
@[simp] theorem Dec.advance_ie (d : Dec) : (d.advance).ie = d.ie := rfl

/-! ### `Dec.emit` -/

@[simp] theorem Dec.emit_st (v : Byte) (d : Dec) : (d.emit v).st = d.st := rfl
@[simp] theorem Dec.emit_p (v : Byte) (d : Dec) : (d.emit v).p = d.p := rfl
@[simp] theorem Dec.emit_slen (v : Byte) (d : Dec) : (d.emit v).slen = d.slen := rfl
@[simp] theorem Dec.emit_iptr (v : Byte) (d : Dec) : (d.emit v).iptr = d.iptr := rfl
@[simp] theorem Dec.emit_ocnt (v : Byte) (d : Dec) : (d.emit v).ocnt = d.ocnt + 1 := rfl
@[simp] theorem Dec.emit_flags (v : Byte) (d : Dec) : (d.emit v).flags = d.flags := rfl
@[simp] theorem Dec.emit_fcnt (v : Byte) (d : Dec) : (d.emit v).fcnt = d.fcnt := rfl
@[simp] theorem Dec.emit_ring (v : Byte) (d : Dec) : (d.emit v).ring = d.ring.write d.rcur v := rfl
@[simp] theorem Dec.emit_rcur (v : Byte) (d : Dec) : (d.emit v).rcur = d.rcur + 1 := rfl
@[simp] theorem Dec.emit_ph (v : Byte) (d : Dec) : (d.emit v).ph = d.ph := rfl
@[simp] theorem Dec.emit_u (v : Byte) (d : Dec) : (d.emit v).u = d.u := rfl
@[simp] theorem Dec.emit_l (v : Byte) (d : Dec) : (d.emit v).l = d.l := rfl
@[simp] theorem Dec.emit_pos (v : Byte) (d : Dec) : (d.emit v).pos = d.pos := rfl
@[simp] theorem Dec.emit_len (v : Byte) (d : Dec) : (d.emit v).len = d.len := rfl
@[simp] theorem Dec.emit_ci (v : Byte) (d : Dec) : (d.emit v).ci = d.ci := rfl
@[simp] theorem Dec.emit_err (v : Byte) (d : Dec) : (d.emit v).err = d.err := rfl
@[simp] theorem Dec.emit_errph (v : Byte) (d : Dec) : (d.emit v).errph = d.errph := rfl
@[simp] theorem Dec.emit_ie (v : Byte) (d : Dec) : (d.emit v).ie = d.ie := rfl

/-! ### `Dec.loadFlag` -/

@[simp] theorem Dec.loadFlag_st (kinds : Byte) (d : Dec) : (d.loadFlag kinds).st = d.st := rfl
@[simp] theorem Dec.loadFlag_p (kinds : Byte) (d : Dec) : (d.loadFlag kinds).p = d.p := rfl
@[simp] theorem Dec.loadFlag_slen (kinds : Byte) (d : Dec) : (d.loadFlag kinds).slen = d.slen := rfl
@[simp] theorem Dec.loadFlag_iptr (kinds : Byte) (d : Dec) : (d.loadFlag kinds).iptr = d.iptr + 1 := rfl
@[simp] theorem Dec.loadFlag_ocnt (kinds : Byte) (d : Dec) : (d.loadFlag kinds).ocnt = d.ocnt := rfl
@[simp] theorem Dec.loadFlag_flags (kinds : Byte) (d : Dec) : (d.loadFlag kinds).flags = kinds := rfl
@[simp] theorem Dec.loadFlag_fcnt (kinds : Byte) (d : Dec) : (d.loadFlag kinds).fcnt = 8 := rfl
@[simp] theorem Dec.loadFlag_ring (kinds : Byte) (d : Dec) : (d.loadFlag kinds).ring = d.ring := rfl
@[simp] theorem Dec.loadFlag_rcur (kinds : Byte) (d : Dec) : (d.loadFlag kinds).rcur = d.rcur := rfl
@[simp] theorem Dec.loadFlag_ph (kinds : Byte) (d : Dec) : (d.loadFlag kinds).ph = .bit := rfl
@[simp] theorem Dec.loadFlag_u (kinds : Byte) (d : Dec) : (d.loadFlag kinds).u = d.u := rfl
@[simp] theorem Dec.loadFlag_l (kinds : Byte) (d : Dec) : (d.loadFlag kinds).l = d.l := rfl
@[simp] theorem Dec.loadFlag_pos (kinds : Byte) (d : Dec) : (d.loadFlag kinds).pos = d.pos := rfl
@[simp] theorem Dec.loadFlag_len (kinds : Byte) (d : Dec) : (d.loadFlag kinds).len = d.len := rfl
@[simp] theorem Dec.loadFlag_ci (kinds : Byte) (d : Dec) : (d.loadFlag kinds).ci = d.ci := rfl
@[simp] theorem Dec.loadFlag_err (kinds : Byte) (d : Dec) : (d.loadFlag kinds).err = d.err := rfl
@[simp] theorem Dec.loadFlag_errph (kinds : Byte) (d : Dec) : (d.loadFlag kinds).errph = d.errph := rfl
@[simp] theorem Dec.loadFlag_ie (kinds : Byte) (d : Dec) : (d.loadFlag kinds).ie = d.ie := rfl

/-! ### `Dec.bitStep` -/

@[simp] theorem Dec.bitStep_st (d : Dec) : (d.bitStep).st = d.st := rfl
@[simp] theorem Dec.bitStep_p (d : Dec) : (d.bitStep).p = d.p := rfl
@[simp] theorem Dec.bitStep_slen (d : Dec) : (d.bitStep).slen = d.slen := rfl
@[simp] theorem Dec.bitStep_iptr (d : Dec) : (d.bitStep).iptr = d.iptr := rfl
@[simp] theorem Dec.bitStep_ocnt (d : Dec) : (d.bitStep).ocnt = d.ocnt := rfl
@[simp] theorem Dec.bitStep_flags (d : Dec) : (d.bitStep).flags = rotl8 d.flags := rfl
@[simp] theorem Dec.bitStep_fcnt (d : Dec) : (d.bitStep).fcnt = d.fcnt - 1 := rfl
@[simp] theorem Dec.bitStep_ring (d : Dec) : (d.bitStep).ring = d.ring := rfl
@[simp] theorem Dec.bitStep_rcur (d : Dec) : (d.bitStep).rcur = d.rcur := rfl
@[simp] theorem Dec.bitStep_ph (d : Dec) : (d.bitStep).ph = if d.kindBit then .lit else .refU := rfl
@[simp] theorem Dec.bitStep_u (d : Dec) : (d.bitStep).u = d.u := rfl
@[simp] theorem Dec.bitStep_l (d : Dec) : (d.bitStep).l = d.l := rfl
@[simp] theorem Dec.bitStep_pos (d : Dec) : (d.bitStep).pos = d.pos := rfl
@[simp] theorem Dec.bitStep_len (d : Dec) : (d.bitStep).len = d.len := rfl
@[simp] theorem Dec.bitStep_ci (d : Dec) : (d.bitStep).ci = d.ci := rfl
@[simp] theorem Dec.bitStep_err (d : Dec) : (d.bitStep).err = d.err := rfl
@[simp] theorem Dec.bitStep_errph (d : Dec) : (d.bitStep).errph = d.errph := rfl
@[simp] theorem Dec.bitStep_ie (d : Dec) : (d.bitStep).ie = d.ie := rfl

/-! ### `Dec.latchU` -/

@[simp] theorem Dec.latchU_st (b : Byte) (d : Dec) : (d.latchU b).st = d.st := rfl
@[simp] theorem Dec.latchU_p (b : Byte) (d : Dec) : (d.latchU b).p = d.p := rfl
@[simp] theorem Dec.latchU_slen (b : Byte) (d : Dec) : (d.latchU b).slen = d.slen := rfl
@[simp] theorem Dec.latchU_iptr (b : Byte) (d : Dec) : (d.latchU b).iptr = d.iptr + 1 := rfl
@[simp] theorem Dec.latchU_ocnt (b : Byte) (d : Dec) : (d.latchU b).ocnt = d.ocnt := rfl
@[simp] theorem Dec.latchU_flags (b : Byte) (d : Dec) : (d.latchU b).flags = d.flags := rfl
@[simp] theorem Dec.latchU_fcnt (b : Byte) (d : Dec) : (d.latchU b).fcnt = d.fcnt := rfl
@[simp] theorem Dec.latchU_ring (b : Byte) (d : Dec) : (d.latchU b).ring = d.ring := rfl
@[simp] theorem Dec.latchU_rcur (b : Byte) (d : Dec) : (d.latchU b).rcur = d.rcur := rfl
@[simp] theorem Dec.latchU_ph (b : Byte) (d : Dec) : (d.latchU b).ph = .refL := rfl
@[simp] theorem Dec.latchU_u (b : Byte) (d : Dec) : (d.latchU b).u = b := rfl
@[simp] theorem Dec.latchU_l (b : Byte) (d : Dec) : (d.latchU b).l = d.l := rfl
@[simp] theorem Dec.latchU_pos (b : Byte) (d : Dec) : (d.latchU b).pos = d.pos := rfl
@[simp] theorem Dec.latchU_len (b : Byte) (d : Dec) : (d.latchU b).len = d.len := rfl
@[simp] theorem Dec.latchU_ci (b : Byte) (d : Dec) : (d.latchU b).ci = d.ci := rfl
@[simp] theorem Dec.latchU_err (b : Byte) (d : Dec) : (d.latchU b).err = d.err := rfl
@[simp] theorem Dec.latchU_errph (b : Byte) (d : Dec) : (d.latchU b).errph = d.errph := rfl
@[simp] theorem Dec.latchU_ie (b : Byte) (d : Dec) : (d.latchU b).ie = d.ie := rfl

/-! ### `Dec.latchL` -/

@[simp] theorem Dec.latchL_st (b : Byte) (d : Dec) : (d.latchL b).st = d.st := rfl
@[simp] theorem Dec.latchL_p (b : Byte) (d : Dec) : (d.latchL b).p = d.p := rfl
@[simp] theorem Dec.latchL_slen (b : Byte) (d : Dec) : (d.latchL b).slen = d.slen := rfl
@[simp] theorem Dec.latchL_iptr (b : Byte) (d : Dec) : (d.latchL b).iptr = d.iptr + 1 := rfl
@[simp] theorem Dec.latchL_ocnt (b : Byte) (d : Dec) : (d.latchL b).ocnt = d.ocnt := rfl
@[simp] theorem Dec.latchL_flags (b : Byte) (d : Dec) : (d.latchL b).flags = d.flags := rfl
@[simp] theorem Dec.latchL_fcnt (b : Byte) (d : Dec) : (d.latchL b).fcnt = d.fcnt := rfl
@[simp] theorem Dec.latchL_ring (b : Byte) (d : Dec) : (d.latchL b).ring = d.ring := rfl
@[simp] theorem Dec.latchL_rcur (b : Byte) (d : Dec) : (d.latchL b).rcur = d.rcur := rfl
@[simp] theorem Dec.latchL_ph (b : Byte) (d : Dec) : (d.latchL b).ph = .copy := rfl
@[simp] theorem Dec.latchL_u (b : Byte) (d : Dec) : (d.latchL b).u = d.u := rfl
@[simp] theorem Dec.latchL_l (b : Byte) (d : Dec) : (d.latchL b).l = b := rfl
@[simp] theorem Dec.latchL_pos (b : Byte) (d : Dec) : (d.latchL b).pos = refPosition d.u b := rfl
@[simp] theorem Dec.latchL_len (b : Byte) (d : Dec) : (d.latchL b).len = refLength d.u := rfl
@[simp] theorem Dec.latchL_ci (b : Byte) (d : Dec) : (d.latchL b).ci = 0 := rfl
@[simp] theorem Dec.latchL_err (b : Byte) (d : Dec) : (d.latchL b).err = d.err := rfl
@[simp] theorem Dec.latchL_errph (b : Byte) (d : Dec) : (d.latchL b).errph = d.errph := rfl
@[simp] theorem Dec.latchL_ie (b : Byte) (d : Dec) : (d.latchL b).ie = d.ie := rfl

/-! ### `Dec.init` -/

@[simp] theorem Dec.init_st (d : Dec) : (d.init).st = .run := rfl
@[simp] theorem Dec.init_p (d : Dec) : (d.init).p = d.p := rfl
@[simp] theorem Dec.init_slen (d : Dec) : (d.init).slen = d.slen := rfl
@[simp] theorem Dec.init_iptr (d : Dec) : (d.init).iptr = 0 := rfl
@[simp] theorem Dec.init_ocnt (d : Dec) : (d.init).ocnt = 0 := rfl
@[simp] theorem Dec.init_flags (d : Dec) : (d.init).flags = 0 := rfl
@[simp] theorem Dec.init_fcnt (d : Dec) : (d.init).fcnt = 0 := rfl
@[simp] theorem Dec.init_ring (d : Dec) : (d.init).ring = Ring.seeded := rfl
@[simp] theorem Dec.init_rcur (d : Dec) : (d.init).rcur = Config.cursorInit := rfl
@[simp] theorem Dec.init_ph (d : Dec) : (d.init).ph = .guard := rfl
@[simp] theorem Dec.init_u (d : Dec) : (d.init).u = 0 := rfl
@[simp] theorem Dec.init_l (d : Dec) : (d.init).l = 0 := rfl
@[simp] theorem Dec.init_pos (d : Dec) : (d.init).pos = 0 := rfl
@[simp] theorem Dec.init_len (d : Dec) : (d.init).len = 0 := rfl
@[simp] theorem Dec.init_ci (d : Dec) : (d.init).ci = 0 := rfl
@[simp] theorem Dec.init_err (d : Dec) : (d.init).err = .none := rfl
@[simp] theorem Dec.init_errph (d : Dec) : (d.init).errph = .none := rfl
@[simp] theorem Dec.init_ie (d : Dec) : (d.init).ie = d.ie := rfl

/-! ### `emit` -/

@[simp] theorem emit_dec (v : Byte) (s : State) : (emit v s).dec = s.dec.emit v := rfl
@[simp] theorem emit_enc (v : Byte) (s : State) : (emit v s).enc = s.enc := rfl
@[simp] theorem emit_inS (v : Byte) (s : State) : (emit v s).inS = s.inS := rfl
@[simp] theorem emit_outO (v : Byte) (s : State) : (emit v s).outO = s.outO.write s.dec.ocnt.toNat v := rfl
@[simp] theorem emit_inX (v : Byte) (s : State) : (emit v s).inX = s.inX := rfl
@[simp] theorem emit_outY (v : Byte) (s : State) : (emit v s).outY = s.outY := rfl
@[simp] theorem emit_agenda (v : Byte) (s : State) : (emit v s).agenda = s.agenda := rfl
@[simp] theorem emit_rdata (v : Byte) (s : State) : (emit v s).rdata = s.rdata := rfl
@[simp] theorem emit_draws (v : Byte) (s : State) : (emit v s).draws = s.draws := rfl

/-! ### `copyByte` -/

@[simp] theorem copyByte_dec (s : State) : (copyByte s).dec = { s.dec.emit s.dec.copySource with ci := s.dec.ci + 1 } := rfl
@[simp] theorem copyByte_enc (s : State) : (copyByte s).enc = s.enc := rfl
@[simp] theorem copyByte_inS (s : State) : (copyByte s).inS = s.inS := rfl
@[simp] theorem copyByte_outO (s : State) : (copyByte s).outO = s.outO.write s.dec.ocnt.toNat s.dec.copySource := rfl
@[simp] theorem copyByte_inX (s : State) : (copyByte s).inX = s.inX := rfl
@[simp] theorem copyByte_outY (s : State) : (copyByte s).outY = s.outY := rfl
@[simp] theorem copyByte_agenda (s : State) : (copyByte s).agenda = s.agenda := rfl
@[simp] theorem copyByte_rdata (s : State) : (copyByte s).rdata = s.rdata := rfl
@[simp] theorem copyByte_draws (s : State) : (copyByte s).draws = s.draws := rfl

/-! ### `literal` -/

@[simp] theorem literal_dec (v : Byte) (s : State) : (literal v s).dec = { s.dec.advance.emit v with ph := .guard } := rfl
@[simp] theorem literal_enc (v : Byte) (s : State) : (literal v s).enc = s.enc := rfl
@[simp] theorem literal_inS (v : Byte) (s : State) : (literal v s).inS = s.inS := rfl
@[simp] theorem literal_outO (v : Byte) (s : State) : (literal v s).outO = s.outO.write s.dec.ocnt.toNat v := rfl
@[simp] theorem literal_inX (v : Byte) (s : State) : (literal v s).inX = s.inX := rfl
@[simp] theorem literal_outY (v : Byte) (s : State) : (literal v s).outY = s.outY := rfl
@[simp] theorem literal_agenda (v : Byte) (s : State) : (literal v s).agenda = s.agenda := rfl
@[simp] theorem literal_rdata (v : Byte) (s : State) : (literal v s).rdata = s.rdata := rfl
@[simp] theorem literal_draws (v : Byte) (s : State) : (literal v s).draws = s.draws := rfl

/-! ### `raiseFault in DEC` -/

@[simp] theorem raiseFault_dec_dec (c : Cause) (p : FaultPhase) (s : State) : (raiseFault .dec c p s).dec = { s.dec with err := c, errph := p, st := .fault } := rfl
@[simp] theorem raiseFault_dec_enc (c : Cause) (p : FaultPhase) (s : State) : (raiseFault .dec c p s).enc = s.enc := rfl
@[simp] theorem raiseFault_dec_inS (c : Cause) (p : FaultPhase) (s : State) : (raiseFault .dec c p s).inS = s.inS := rfl
@[simp] theorem raiseFault_dec_outO (c : Cause) (p : FaultPhase) (s : State) : (raiseFault .dec c p s).outO = s.outO := rfl
@[simp] theorem raiseFault_dec_inX (c : Cause) (p : FaultPhase) (s : State) : (raiseFault .dec c p s).inX = s.inX := rfl
@[simp] theorem raiseFault_dec_outY (c : Cause) (p : FaultPhase) (s : State) : (raiseFault .dec c p s).outY = s.outY := rfl
@[simp] theorem raiseFault_dec_agenda (c : Cause) (p : FaultPhase) (s : State) : (raiseFault .dec c p s).agenda = s.agenda := rfl
@[simp] theorem raiseFault_dec_rdata (c : Cause) (p : FaultPhase) (s : State) : (raiseFault .dec c p s).rdata = s.rdata := rfl
@[simp] theorem raiseFault_dec_draws (c : Cause) (p : FaultPhase) (s : State) : (raiseFault .dec c p s).draws = s.draws := rfl

/-! ### `raiseFault in ENC` -/

@[simp] theorem raiseFault_enc_dec (c : Cause) (p : FaultPhase) (s : State) : (raiseFault .enc c p s).dec = s.dec := rfl
@[simp] theorem raiseFault_enc_enc (c : Cause) (p : FaultPhase) (s : State) : (raiseFault .enc c p s).enc = { s.enc with err := c, errph := p, st := .fault } := rfl
@[simp] theorem raiseFault_enc_inS (c : Cause) (p : FaultPhase) (s : State) : (raiseFault .enc c p s).inS = s.inS := rfl
@[simp] theorem raiseFault_enc_outO (c : Cause) (p : FaultPhase) (s : State) : (raiseFault .enc c p s).outO = s.outO := rfl
@[simp] theorem raiseFault_enc_inX (c : Cause) (p : FaultPhase) (s : State) : (raiseFault .enc c p s).inX = s.inX := rfl
@[simp] theorem raiseFault_enc_outY (c : Cause) (p : FaultPhase) (s : State) : (raiseFault .enc c p s).outY = s.outY := rfl
@[simp] theorem raiseFault_enc_agenda (c : Cause) (p : FaultPhase) (s : State) : (raiseFault .enc c p s).agenda = s.agenda := rfl
@[simp] theorem raiseFault_enc_rdata (c : Cause) (p : FaultPhase) (s : State) : (raiseFault .enc c p s).rdata = s.rdata := rfl
@[simp] theorem raiseFault_enc_draws (c : Cause) (p : FaultPhase) (s : State) : (raiseFault .enc c p s).draws = s.draws := rfl

/-! ### `setIe of DEC` -/

@[simp] theorem setIe_dec_dec (b : Bool) (s : State) : (setIe .dec b s).dec = { s.dec with ie := b } := rfl
@[simp] theorem setIe_dec_enc (b : Bool) (s : State) : (setIe .dec b s).enc = s.enc := rfl
@[simp] theorem setIe_dec_inS (b : Bool) (s : State) : (setIe .dec b s).inS = s.inS := rfl
@[simp] theorem setIe_dec_outO (b : Bool) (s : State) : (setIe .dec b s).outO = s.outO := rfl
@[simp] theorem setIe_dec_inX (b : Bool) (s : State) : (setIe .dec b s).inX = s.inX := rfl
@[simp] theorem setIe_dec_outY (b : Bool) (s : State) : (setIe .dec b s).outY = s.outY := rfl
@[simp] theorem setIe_dec_agenda (b : Bool) (s : State) : (setIe .dec b s).agenda = s.agenda := rfl
@[simp] theorem setIe_dec_rdata (b : Bool) (s : State) : (setIe .dec b s).rdata = s.rdata := rfl
@[simp] theorem setIe_dec_draws (b : Bool) (s : State) : (setIe .dec b s).draws = s.draws := rfl

/-! ### `setIe of ENC` -/

@[simp] theorem setIe_enc_dec (b : Bool) (s : State) : (setIe .enc b s).dec = s.dec := rfl
@[simp] theorem setIe_enc_enc (b : Bool) (s : State) : (setIe .enc b s).enc = { s.enc with ie := b } := rfl
@[simp] theorem setIe_enc_inS (b : Bool) (s : State) : (setIe .enc b s).inS = s.inS := rfl
@[simp] theorem setIe_enc_outO (b : Bool) (s : State) : (setIe .enc b s).outO = s.outO := rfl
@[simp] theorem setIe_enc_inX (b : Bool) (s : State) : (setIe .enc b s).inX = s.inX := rfl
@[simp] theorem setIe_enc_outY (b : Bool) (s : State) : (setIe .enc b s).outY = s.outY := rfl
@[simp] theorem setIe_enc_agenda (b : Bool) (s : State) : (setIe .enc b s).agenda = s.agenda := rfl
@[simp] theorem setIe_enc_rdata (b : Bool) (s : State) : (setIe .enc b s).rdata = s.rdata := rfl
@[simp] theorem setIe_enc_draws (b : Bool) (s : State) : (setIe .enc b s).draws = s.draws := rfl

/-! ### `Enc.ringWrite` -/

@[simp] theorem Enc.ringWrite_st (b : Byte) (e : Enc) : (e.ringWrite b).st = e.st := rfl
@[simp] theorem Enc.ringWrite_n (b : Byte) (e : Enc) : (e.ringWrite b).n = e.n := rfl
@[simp] theorem Enc.ringWrite_spos (b : Byte) (e : Enc) : (e.ringWrite b).spos = e.spos := rfl
@[simp] theorem Enc.ringWrite_optr (b : Byte) (e : Enc) : (e.ringWrite b).optr = e.optr := rfl
@[simp] theorem Enc.ringWrite_ring (b : Byte) (e : Enc) : (e.ringWrite b).ring = e.ring.write e.rcur b := rfl
@[simp] theorem Enc.ringWrite_rcur (b : Byte) (e : Enc) : (e.ringWrite b).rcur = e.rcur + 1 := rfl
@[simp] theorem Enc.ringWrite_qn (b : Byte) (e : Enc) : (e.ringWrite b).qn = e.qn := rfl
@[simp] theorem Enc.ringWrite_qflag (b : Byte) (e : Enc) : (e.ringWrite b).qflag = e.qflag := rfl
@[simp] theorem Enc.ringWrite_qb (b : Byte) (e : Enc) : (e.ringWrite b).qb = e.qb := rfl
@[simp] theorem Enc.ringWrite_qbn (b : Byte) (e : Enc) : (e.ringWrite b).qbn = e.qbn := rfl
@[simp] theorem Enc.ringWrite_litops (b : Byte) (e : Enc) : (e.ringWrite b).litops = e.litops := rfl
@[simp] theorem Enc.ringWrite_totops (b : Byte) (e : Enc) : (e.ringWrite b).totops = e.totops := rfl
@[simp] theorem Enc.ringWrite_best (b : Byte) (e : Enc) : (e.ringWrite b).best = e.best := rfl
@[simp] theorem Enc.ringWrite_bpos (b : Byte) (e : Enc) : (e.ringWrite b).bpos = e.bpos := rfl
@[simp] theorem Enc.ringWrite_next (b : Byte) (e : Enc) : (e.ringWrite b).next = e.next := rfl
@[simp] theorem Enc.ringWrite_kind (b : Byte) (e : Enc) : (e.ringWrite b).kind = e.kind := rfl
@[simp] theorem Enc.ringWrite_err (b : Byte) (e : Enc) : (e.ringWrite b).err = e.err := rfl
@[simp] theorem Enc.ringWrite_errph (b : Byte) (e : Enc) : (e.ringWrite b).errph = e.errph := rfl
@[simp] theorem Enc.ringWrite_ie (b : Byte) (e : Enc) : (e.ringWrite b).ie = e.ie := rfl
@[simp] theorem Enc.ringWrite_ph (b : Byte) (e : Enc) : (e.ringWrite b).ph = e.ph := rfl
@[simp] theorem Enc.ringWrite_shadow (b : Byte) (e : Enc) : (e.ringWrite b).shadow = e.shadow := rfl
@[simp] theorem Enc.ringWrite_tlr (b : Byte) (e : Enc) : (e.ringWrite b).tlr = e.tlr := rfl
@[simp] theorem Enc.ringWrite_minlen (b : Byte) (e : Enc) : (e.ringWrite b).minlen = e.minlen := rfl
@[simp] theorem Enc.ringWrite_maxlen (b : Byte) (e : Enc) : (e.ringWrite b).maxlen = e.maxlen := rfl
@[simp] theorem Enc.ringWrite_depth (b : Byte) (e : Enc) : (e.ringWrite b).depth = e.depth := rfl
@[simp] theorem Enc.ringWrite_lw (b : Byte) (e : Enc) : (e.ringWrite b).lw = e.lw := rfl
@[simp] theorem Enc.ringWrite_dw (b : Byte) (e : Enc) : (e.ringWrite b).dw = e.dw := rfl
@[simp] theorem Enc.ringWrite_lazy (b : Byte) (e : Enc) : (e.ringWrite b).lazy = e.lazy := rfl

/-! ### `Enc.pushByte` -/

@[simp] theorem Enc.pushByte_st (b : Byte) (e : Enc) : (e.pushByte b).st = e.st := rfl
@[simp] theorem Enc.pushByte_n (b : Byte) (e : Enc) : (e.pushByte b).n = e.n := rfl
@[simp] theorem Enc.pushByte_spos (b : Byte) (e : Enc) : (e.pushByte b).spos = e.spos := rfl
@[simp] theorem Enc.pushByte_optr (b : Byte) (e : Enc) : (e.pushByte b).optr = e.optr := rfl
@[simp] theorem Enc.pushByte_ring (b : Byte) (e : Enc) : (e.pushByte b).ring = e.ring := rfl
@[simp] theorem Enc.pushByte_rcur (b : Byte) (e : Enc) : (e.pushByte b).rcur = e.rcur := rfl
@[simp] theorem Enc.pushByte_qn (b : Byte) (e : Enc) : (e.pushByte b).qn = e.qn := rfl
@[simp] theorem Enc.pushByte_qflag (b : Byte) (e : Enc) : (e.pushByte b).qflag = e.qflag := rfl
@[simp] theorem Enc.pushByte_qb (b : Byte) (e : Enc) : (e.pushByte b).qb = e.qb.setIfInBounds e.qbn.toNat b := rfl
@[simp] theorem Enc.pushByte_qbn (b : Byte) (e : Enc) : (e.pushByte b).qbn = e.qbn + 1 := rfl
@[simp] theorem Enc.pushByte_litops (b : Byte) (e : Enc) : (e.pushByte b).litops = e.litops := rfl
@[simp] theorem Enc.pushByte_totops (b : Byte) (e : Enc) : (e.pushByte b).totops = e.totops := rfl
@[simp] theorem Enc.pushByte_best (b : Byte) (e : Enc) : (e.pushByte b).best = e.best := rfl
@[simp] theorem Enc.pushByte_bpos (b : Byte) (e : Enc) : (e.pushByte b).bpos = e.bpos := rfl
@[simp] theorem Enc.pushByte_next (b : Byte) (e : Enc) : (e.pushByte b).next = e.next := rfl
@[simp] theorem Enc.pushByte_kind (b : Byte) (e : Enc) : (e.pushByte b).kind = e.kind := rfl
@[simp] theorem Enc.pushByte_err (b : Byte) (e : Enc) : (e.pushByte b).err = e.err := rfl
@[simp] theorem Enc.pushByte_errph (b : Byte) (e : Enc) : (e.pushByte b).errph = e.errph := rfl
@[simp] theorem Enc.pushByte_ie (b : Byte) (e : Enc) : (e.pushByte b).ie = e.ie := rfl
@[simp] theorem Enc.pushByte_ph (b : Byte) (e : Enc) : (e.pushByte b).ph = e.ph := rfl
@[simp] theorem Enc.pushByte_shadow (b : Byte) (e : Enc) : (e.pushByte b).shadow = e.shadow := rfl
@[simp] theorem Enc.pushByte_tlr (b : Byte) (e : Enc) : (e.pushByte b).tlr = e.tlr := rfl
@[simp] theorem Enc.pushByte_minlen (b : Byte) (e : Enc) : (e.pushByte b).minlen = e.minlen := rfl
@[simp] theorem Enc.pushByte_maxlen (b : Byte) (e : Enc) : (e.pushByte b).maxlen = e.maxlen := rfl
@[simp] theorem Enc.pushByte_depth (b : Byte) (e : Enc) : (e.pushByte b).depth = e.depth := rfl
@[simp] theorem Enc.pushByte_lw (b : Byte) (e : Enc) : (e.pushByte b).lw = e.lw := rfl
@[simp] theorem Enc.pushByte_dw (b : Byte) (e : Enc) : (e.pushByte b).dw = e.dw := rfl
@[simp] theorem Enc.pushByte_lazy (b : Byte) (e : Enc) : (e.pushByte b).lazy = e.lazy := rfl

/-! ### `Enc.clearQueue` -/

@[simp] theorem Enc.clearQueue_st (q : Vector Byte 16) (e : Enc) : (e.clearQueue q).st = e.st := rfl
@[simp] theorem Enc.clearQueue_n (q : Vector Byte 16) (e : Enc) : (e.clearQueue q).n = e.n := rfl
@[simp] theorem Enc.clearQueue_spos (q : Vector Byte 16) (e : Enc) : (e.clearQueue q).spos = e.spos := rfl
@[simp] theorem Enc.clearQueue_optr (q : Vector Byte 16) (e : Enc) : (e.clearQueue q).optr = e.optr := rfl
@[simp] theorem Enc.clearQueue_ring (q : Vector Byte 16) (e : Enc) : (e.clearQueue q).ring = e.ring := rfl
@[simp] theorem Enc.clearQueue_rcur (q : Vector Byte 16) (e : Enc) : (e.clearQueue q).rcur = e.rcur := rfl
@[simp] theorem Enc.clearQueue_qn (q : Vector Byte 16) (e : Enc) : (e.clearQueue q).qn = 0 := rfl
@[simp] theorem Enc.clearQueue_qflag (q : Vector Byte 16) (e : Enc) : (e.clearQueue q).qflag = 0 := rfl
@[simp] theorem Enc.clearQueue_qb (q : Vector Byte 16) (e : Enc) : (e.clearQueue q).qb = q := rfl
@[simp] theorem Enc.clearQueue_qbn (q : Vector Byte 16) (e : Enc) : (e.clearQueue q).qbn = 0 := rfl
@[simp] theorem Enc.clearQueue_litops (q : Vector Byte 16) (e : Enc) : (e.clearQueue q).litops = e.litops := rfl
@[simp] theorem Enc.clearQueue_totops (q : Vector Byte 16) (e : Enc) : (e.clearQueue q).totops = e.totops := rfl
@[simp] theorem Enc.clearQueue_best (q : Vector Byte 16) (e : Enc) : (e.clearQueue q).best = e.best := rfl
@[simp] theorem Enc.clearQueue_bpos (q : Vector Byte 16) (e : Enc) : (e.clearQueue q).bpos = e.bpos := rfl
@[simp] theorem Enc.clearQueue_next (q : Vector Byte 16) (e : Enc) : (e.clearQueue q).next = e.next := rfl
@[simp] theorem Enc.clearQueue_kind (q : Vector Byte 16) (e : Enc) : (e.clearQueue q).kind = e.kind := rfl
@[simp] theorem Enc.clearQueue_err (q : Vector Byte 16) (e : Enc) : (e.clearQueue q).err = e.err := rfl
@[simp] theorem Enc.clearQueue_errph (q : Vector Byte 16) (e : Enc) : (e.clearQueue q).errph = e.errph := rfl
@[simp] theorem Enc.clearQueue_ie (q : Vector Byte 16) (e : Enc) : (e.clearQueue q).ie = e.ie := rfl
@[simp] theorem Enc.clearQueue_ph (q : Vector Byte 16) (e : Enc) : (e.clearQueue q).ph = e.ph := rfl
@[simp] theorem Enc.clearQueue_shadow (q : Vector Byte 16) (e : Enc) : (e.clearQueue q).shadow = e.shadow := rfl
@[simp] theorem Enc.clearQueue_tlr (q : Vector Byte 16) (e : Enc) : (e.clearQueue q).tlr = e.tlr := rfl
@[simp] theorem Enc.clearQueue_minlen (q : Vector Byte 16) (e : Enc) : (e.clearQueue q).minlen = e.minlen := rfl
@[simp] theorem Enc.clearQueue_maxlen (q : Vector Byte 16) (e : Enc) : (e.clearQueue q).maxlen = e.maxlen := rfl
@[simp] theorem Enc.clearQueue_depth (q : Vector Byte 16) (e : Enc) : (e.clearQueue q).depth = e.depth := rfl
@[simp] theorem Enc.clearQueue_lw (q : Vector Byte 16) (e : Enc) : (e.clearQueue q).lw = e.lw := rfl
@[simp] theorem Enc.clearQueue_dw (q : Vector Byte 16) (e : Enc) : (e.clearQueue q).dw = e.dw := rfl
@[simp] theorem Enc.clearQueue_lazy (q : Vector Byte 16) (e : Enc) : (e.clearQueue q).lazy = e.lazy := rfl

/-! ### `writeBlock` -/

@[simp] theorem writeBlock_dec (s : State) : (writeBlock s).dec = s.dec := rfl
@[simp] theorem writeBlock_inS (s : State) : (writeBlock s).inS = s.inS := rfl
@[simp] theorem writeBlock_outO (s : State) : (writeBlock s).outO = s.outO := rfl
@[simp] theorem writeBlock_inX (s : State) : (writeBlock s).inX = s.inX := rfl
@[simp] theorem writeBlock_outY (s : State) : (writeBlock s).outY = s.outY.writeAll s.enc.optr.toNat s.enc.blockWire := rfl
@[simp] theorem writeBlock_agenda (s : State) : (writeBlock s).agenda = s.agenda := rfl
@[simp] theorem writeBlock_rdata (s : State) : (writeBlock s).rdata = s.rdata := rfl
@[simp] theorem writeBlock_draws (s : State) : (writeBlock s).draws = s.draws + 1 := rfl

end Sys2Proof.Machine
end

