-- ==== Sys2Proof/Laws/Ops.lean ====
section
/-! SUPPORT. What each shared operation and each step function can do, said once; the proofs cite these and do not unfold
the step functions. -/

namespace Sys2Proof.Machine

/-! ## The stream -/

theorem State.streamRest_of_lt {s : State} (hs : s.dec.slen.toNat ≤ s.inS.length)
    (h : s.dec.iptr.toNat < s.dec.slen.toNat) :
    ∃ raw rest, s.inS[s.dec.iptr.toNat]? = some raw ∧ s.streamRest = raw :: rest := by
  have hlt : s.dec.iptr.toNat < (s.inS.take s.dec.slen.toNat).length := by
    rw [List.length_take]; omega
  refine ⟨s.inS[s.dec.iptr.toNat]'(by omega), (s.inS.take s.dec.slen.toNat).drop (s.dec.iptr.toNat + 1), ?_, ?_⟩
  · exact List.getElem?_eq_getElem (by omega)
  · unfold State.streamRest
    rw [List.drop_eq_getElem_cons hlt, List.getElem_take]

theorem State.streamRest_of_exhausted {s : State} (h : s.dec.iptr = s.dec.slen) : s.streamRest = [] := by
  unfold State.streamRest
  rw [h]
  apply List.drop_eq_nil_of_le
  rw [List.length_take]
  omega

theorem State.streamRest_length {s : State} (hs : s.dec.slen.toNat ≤ s.inS.length) :
    s.streamRest.length = s.dec.slen.toNat - s.dec.iptr.toNat := by
  unfold State.streamRest
  rw [List.length_drop, List.length_take]
  omega

theorem Dec.exhausted_iff (d : Dec) : d.exhausted = true ↔ d.iptr = d.slen := by simp [Dec.exhausted]

theorem Dec.copyDone_iff (d : Dec) : d.copyDone = true ↔ d.ci = d.len ∨ d.ocnt = d.p := by simp [Dec.copyDone]

/-! ## The register ranges of DEC -/

theorem Dec.inRange_bounds {d : Dec} (h : d.inRange = true) :
    d.fcnt.toNat ≤ 8 ∧ d.ocnt.toNat ≤ d.p.toNat ∧ d.iptr.toNat ≤ d.slen.toNat := by
  simp only [Dec.inRange, Bool.and_eq_true, decide_eq_true_eq] at h
  exact ⟨h.1.1.1, h.1.1.2, h.1.2⟩

theorem Dec.inRange_guard {d : Dec} (hp : d.ph = .guard) :
    d.inRange = true ↔ d.fcnt.toNat ≤ 8 ∧ d.ocnt.toNat ≤ d.p.toNat ∧ d.iptr.toNat ≤ d.slen.toNat := by
  simp [Dec.inRange, hp, and_assoc]

theorem Dec.inRange_fetch {d : Dec} (hp : d.ph = .flag ∨ d.ph = .lit ∨ d.ph = .refU ∨ d.ph = .refL) :
    d.inRange = true ↔
      d.fcnt.toNat ≤ 8 ∧ d.ocnt.toNat < d.p.toNat ∧ d.iptr.toNat ≤ d.slen.toNat := by
  rcases hp with hp | hp | hp | hp <;> simp [Dec.inRange, hp, and_assoc] <;> omega

theorem Dec.inRange_bit {d : Dec} (hp : d.ph = .bit) :
    d.inRange = true ↔
      1 ≤ d.fcnt.toNat ∧ d.fcnt.toNat ≤ 8 ∧ d.ocnt.toNat < d.p.toNat ∧ d.iptr.toNat ≤ d.slen.toNat := by
  simp [Dec.inRange, hp, and_assoc]; omega

theorem Dec.inRange_copy {d : Dec} (hp : d.ph = .copy) :
    d.inRange = true ↔
      d.fcnt.toNat ≤ 8 ∧ d.ocnt.toNat ≤ d.p.toNat ∧ d.iptr.toNat ≤ d.slen.toNat ∧
      3 ≤ d.len.toNat ∧ d.len.toNat ≤ 18 ∧ d.ci.toNat ≤ d.len.toNat := by
  simp [Dec.inRange, hp, and_assoc]

/-! ## The steps of DEC -/

/-- What a phase of DEC can do, the fetches resolved (R122 to R128). -/
theorem decRunPhase_next {s t : State} (hs : s.dec.slen.toNat ≤ s.inS.length) (hr : s.dec.inRange = true)
    (h : decRunPhase s = .next t) :
    (s.dec.ph = .guard ∧ t = { s with dec := s.dec.guardStep }) ∨
    (s.dec.ph = .flag ∧ s.dec.iptr = s.dec.slen ∧ t = raiseFault .dec .unexpectedEnd .atFlag s) ∨
    (s.dec.ph = .flag ∧ s.dec.iptr.toNat < s.dec.slen.toNat ∧
      ∃ raw, s.inS[s.dec.iptr.toNat]? = some raw ∧ t = { s with dec := s.dec.loadFlag (mask raw) }) ∨
    (s.dec.ph = .bit ∧ t = { s with dec := s.dec.bitStep }) ∨
    (s.dec.ph = .lit ∧ s.dec.iptr = s.dec.slen ∧ t = raiseFault .dec .corrupt .atLit s) ∨
    (s.dec.ph = .lit ∧ s.dec.iptr.toNat < s.dec.slen.toNat ∧
      ∃ raw, s.inS[s.dec.iptr.toNat]? = some raw ∧ t = literal (mask raw) s) ∨
    (s.dec.ph = .refU ∧ s.dec.iptr = s.dec.slen ∧ t = raiseFault .dec .corrupt .atRefU s) ∨
    (s.dec.ph = .refU ∧ s.dec.iptr.toNat < s.dec.slen.toNat ∧
      ∃ raw, s.inS[s.dec.iptr.toNat]? = some raw ∧ t = { s with dec := s.dec.latchU (mask raw) }) ∨
    (s.dec.ph = .refL ∧ s.dec.iptr = s.dec.slen ∧ t = raiseFault .dec .corrupt .atRefL s) ∨
    (s.dec.ph = .refL ∧ s.dec.iptr.toNat < s.dec.slen.toNat ∧
      ∃ raw, s.inS[s.dec.iptr.toNat]? = some raw ∧ t = { s with dec := s.dec.latchL (mask raw) }) ∨
    (s.dec.ph = .copy ∧ s.dec.copyDone = true ∧ t = { s with dec := { s.dec with ph := .guard } }) ∨
    (s.dec.ph = .copy ∧ s.dec.copyDone = false ∧ t = copyByte s) := by
  have hi := (Dec.inRange_bounds hr).2.2
  by_cases he : s.dec.iptr = s.dec.slen
  · have hn := State.streamRest_of_exhausted he
    cases hp : s.dec.ph <;> simp [decRunPhase, hp, hn, decode, decodeStream, copyStep] at h
    case copy =>
      split at h
      · rename_i hd; simp [hd, ← h]
      · rename_i hd; simp [hd, ← h]
    all_goals simp [← h, he]
  · have hlt : s.dec.iptr.toNat < s.dec.slen.toNat :=
      Nat.lt_of_le_of_ne hi fun h' => he (BitVec.eq_of_toNat_eq h')
    have hx : s.dec.exhausted = false := by simpa [Dec.exhausted] using he
    obtain ⟨raw, rest, hraw, hrest⟩ := State.streamRest_of_lt hs hlt
    cases hp : s.dec.ph <;>
      simp [decRunPhase, hp, hrest, decode, decodeStream, copyStep, exec, execFlag, execLit, hx] at h
    case copy =>
      split at h
      · rename_i hd; simp [hd, ← h]
      · rename_i hd; simp [hd, ← h]
    all_goals simp [← h, hlt, hraw, he]

/-- What a step of DEC can do. -/
theorem decStep_next {s t : State} (h : decStep s = .next t) :
    (s.dec.st.stopped = true ∧ t = s) ∨
    (s.dec.st = .init ∧ t = { s with dec := s.dec.init }) ∨
    (s.dec.st = .run ∧ s.dec.slen.toNat ≤ s.inS.length ∧ s.dec.inRange = true ∧ decRunPhase s = .next t) := by
  unfold decStep at h
  cases hst : s.dec.st <;> simp only [hst] at h
  case run =>
    split at h
    · cases h
    · split at h
      · rename_i h1 h2
        exact .inr (.inr ⟨rfl, by omega, h2, h⟩)
      · cases h
  case init => simp only [Host.Outcome.next.injEq] at h; exact .inr (.inl ⟨rfl, h.symm⟩)
  all_goals simp only [Host.Outcome.next.injEq] at h; exact .inl ⟨rfl, h.symm⟩

/-- A phase step of a DEC that runs with its registers in range. -/
theorem decStep_run {s : State} (hst : s.dec.st = .run) (hs : s.dec.slen.toNat ≤ s.inS.length)
    (hr : s.dec.inRange = true) : decStep s = decRunPhase s := by
  simp [decStep, hst, Nat.not_lt.mpr hs, hr]

/-! ## The copy of a REF -/

/-- What `k` copied bytes leave unchanged and what they count (R126, R129). -/
theorem copyBytes_frame (k : Nat) (s : State) :
    copyBytes k s =
      { s with outO := (copyBytes k s).outO
               dec := { s.dec with ring := (copyBytes k s).dec.ring, ocnt := s.dec.ocnt + BitVec.ofNat 32 k
                                   rcur := s.dec.rcur + BitVec.ofNat 12 k, ci := s.dec.ci + BitVec.ofNat 5 k } } := by
  induction k generalizing s with
  | zero => simp [copyBytes]
  | succ k ih =>
    have h1 : ∀ (w : Nat) (x : BitVec w), x + 1#w + BitVec.ofNat w k = x + BitVec.ofNat w (k + 1) := by
      intro w x
      apply BitVec.eq_of_toNat_eq
      simp only [BitVec.toNat_add, BitVec.toNat_ofNat, Nat.mod_add_mod, Nat.add_mod_mod]
      congr 1
      omega
    rw [copyBytes]
    conv_lhs => rw [ih (copyByte s)]
    simp [h1]

/-- A copied byte keeps the ring canonical. -/
theorem copyByte_ring_wf {s : State} (h : s.dec.ring.wf) : (copyByte s).dec.ring.wf := by
  simpa using Ring.write_wf h _ _

theorem copyBytes_ring_wf (k : Nat) {s : State} (h : s.dec.ring.wf) : (copyBytes k s).dec.ring.wf := by
  induction k generalizing s with
  | zero => exact h
  | succ k ih => exact ih (copyByte_ring_wf h)

/-! ## What a step can be -/

/-- What the next event can be (log entry 2). -/
theorem step_cases (s : State) :
    (∃ event rest, s.agenda = event :: rest ∧ step s = runEvent event { s with agenda := rest }) ∨
    (s.agenda = [] ∧ s.dec.st.stopped = true ∧ step s = encStep s) ∨
    (s.agenda = [] ∧ s.dec.st.stopped = false ∧ step s = decStep s) := by
  cases ha : s.agenda with
  | nil => cases hd : s.dec.st.stopped <;> simp [step, nextEvent, ha, hd]
  | cons event rest => simp [step, nextEvent, ha]

/-- What a step of ENC can do. -/
theorem encStep_next {s t : State} (h : encStep s = .next t) :
    (s.enc.st.stopped = true ∧ t = s) ∨
    (s.enc.st = .init ∧ t = { s with enc := s.enc.init (Config.freeQueue s.draws), draws := s.draws + 1 }) ∨
    (s.enc.st = .run ∧ s.enc.n.toNat ≤ s.inX.length ∧ s.enc.inRange = true ∧ encRunPhase s = .next t) := by
  unfold encStep at h
  cases hst : s.enc.st <;> simp only [hst] at h
  case run =>
    split at h
    · cases h
    · split at h
      · rename_i h1 h2
        exact .inr (.inr ⟨rfl, by omega, h2, h⟩)
      · cases h
  case init => simp only [Host.Outcome.next.injEq] at h; exact .inr (.inl ⟨rfl, h.symm⟩)
  all_goals simp only [Host.Outcome.next.injEq] at h; exact .inl ⟨rfl, h.symm⟩

theorem encStep_run {s : State} (hst : s.enc.st = .run) (hs : s.enc.n.toNat ≤ s.inX.length)
    (hr : s.enc.inRange = true) : encStep s = encRunPhase s := by
  simp [encStep, hst, Nat.not_lt.mpr hs, hr]

/-- What a phase of ENC can do (R154 to R173). -/
theorem encRunPhase_next {s t : State} (h : encRunPhase s = .next t) :
    (s.enc.ph = .guard ∧ t = { s with enc := s.enc.guardStep }) ∨
    (s.enc.ph = .search ∧ t = { s with enc := s.enc.searchStep s.inX }) ∨
    (s.enc.ph = .select ∧ t = { s with enc := s.enc.selectStep }) ∨
    (s.enc.ph = .commit ∧ s.enc.kind = .lit ∧
      ∃ b rest, s.pixelRest = b :: rest ∧ t = { s with enc := s.enc.commitLit b }) ∨
    (s.enc.ph = .commit ∧ s.enc.kind = .ref ∧ s.enc.best.len.toNat ≤ s.pixelRest.length ∧
      t = { s with enc := s.enc.commitRef (s.pixelRest.take s.enc.best.len.toNat) }) ∨
    (s.enc.ph = .pack ∧ t = packStep s) ∨
    (s.enc.ph = .flush ∧ t = flushStep s) := by
  cases hp : s.enc.ph <;> simp only [encRunPhase, hp] at h
  case commit =>
    unfold commitStep at h
    cases hk : s.enc.kind <;> simp only [hk] at h
    case lit =>
      cases hx : s.pixelRest with
      | nil => simp [hx] at h
      | cons b rest =>
        simp only [hx, Host.Outcome.next.injEq] at h
        simp [← h]
    case ref =>
      split at h
      · cases h
      · rename_i hl
        simp only [Host.Outcome.next.injEq] at h
        simp [← h]
        omega
  all_goals simp only [Host.Outcome.next.injEq] at h; simp [← h]

/-! ## Runs -/

/-- Running on from where `a` steps lead. -/
theorem stateAfter_add {a b : Nat} {s t : State} (h : stateAfter a s = some t) : stateAfter (a + b) s = stateAfter b t := by
  induction a generalizing s with
  | zero => simp only [stateAfter, runSteps, Host.Core.run, Option.some.injEq] at h; rw [Nat.zero_add, h]
  | succ a ih =>
    rw [Nat.succ_add]
    simp only [stateAfter, runSteps, Host.Core.run] at h ⊢
    cases hs : Sys2Proof.core.step s with
    | next u => rw [hs] at h; exact ih h
    | fault r => rw [hs] at h; cases h
    | refused r => rw [hs] at h; cases h

/-- A block with no event due and both engines stopped stays as it is (R224). -/
theorem stateAfter_stopped (k : Nat) {s : State} (ha : s.agenda = []) (hd : s.dec.st.stopped = true)
    (he : s.enc.st.stopped = true) : stateAfter k s = some s := by
  have hs : step s = .next s := by
    cases h : s.enc.st <;> simp_all [step, nextEvent, encStep, RunState.stopped]
  induction k with
  | zero => rfl
  | succ k ih =>
    simp only [stateAfter, runSteps, Host.Core.run]
    rw [show Sys2Proof.core.step s = .next s from hs]
    exact ih
end Sys2Proof.Machine
end

