-- ==== Sys2Proof/Laws/Canonical.lean ====
section
/-! SUPPORT. Every memory operation keeps the canonical form of the spaces and rings, and what one emitted byte does to the
ring content of R59 (e). -/

namespace Sys2Proof.Machine

/-! ## DEC -/

/-- A byte written at `OCNT` keeps `O` canonical: the index has 32 bits (R63, R129). -/
theorem outO_write_wf {s : State} (h : Memory.wf 32 s.outO) (v : Byte) :
    Memory.wf 32 (s.outO.write s.dec.ocnt.toNat v) :=
  Memory.write_wf h s.dec.ocnt.isLt v

theorem emit_canonical {s : State} (h : MemoryCanonical s) (v : Byte) : MemoryCanonical (emit v s) := by
  obtain ⟨h1, h2, h3, h4, h5⟩ := h
  exact ⟨Ring.write_wf h1 _ _, h2, h3, outO_write_wf h4 _, h5⟩

theorem copyByte_canonical {s : State} (h : MemoryCanonical s) : MemoryCanonical (copyByte s) := emit_canonical h _

theorem copyBytes_canonical (k : Nat) {s : State} (h : MemoryCanonical s) : MemoryCanonical (copyBytes k s) := by
  induction k generalizing s with
  | zero => exact h
  | succ k ih => exact ih (copyByte_canonical h)

theorem literal_canonical {s : State} (h : MemoryCanonical s) (v : Byte) : MemoryCanonical (literal v s) := by
  obtain ⟨h1, h2, h3, h4, h5⟩ := h
  exact ⟨Ring.write_wf h1 _ _, h2, h3, outO_write_wf h4 _, h5⟩

/-- A change of DEC that keeps its ring keeps every memory canonical. -/
theorem MemoryCanonical.withDec {s : State} (h : MemoryCanonical s) {d : Dec} (hd : d.ring = s.dec.ring) :
    MemoryCanonical { s with dec := d } := by
  obtain ⟨h1, h2, h3, h4, h5⟩ := h
  exact ⟨by rw [hd]; exact h1, h2, h3, h4, h5⟩

/-! ## The shadow decoder -/

theorem Shadow.emit_wf {x : List Byte} {v : Byte} {sh : Shadow} (h : sh.dec.ring.wf) :
    (sh.emit x v).dec.ring.wf := Ring.write_wf h _ _

theorem Shadow.quietStep_wf {x : List Byte} {sh sh' : Shadow} (h : sh.dec.ring.wf) (hq : sh.quietStep x = some sh') :
    sh'.dec.ring.wf := by
  unfold Shadow.quietStep at hq
  split at hq
  · cases hp : sh.dec.ph <;> simp only [hp] at hq
    case guard =>
      split at hq
      · simp at hq; subst hq; exact h
      · split at hq <;> (simp at hq; subst hq; exact h)
    case bit => simp at hq; subst hq; exact h
    case copy =>
      split at hq
      · simp at hq; subst hq; exact h
      · simp at hq; subst hq; exact Shadow.emit_wf (x := x) h
    all_goals cases hq
  · cases hq

theorem Shadow.settle_wf {x : List Byte} (k : Nat) {sh : Shadow} (h : sh.dec.ring.wf) : (sh.settle x k).dec.ring.wf := by
  induction k generalizing sh with
  | zero => exact h
  | succ k ih =>
    simp only [Shadow.settle]
    split
    · rename_i sh' hq; exact ih (Shadow.quietStep_wf h hq)
    · exact h

theorem Shadow.consume_wf {x : List Byte} {raw : Byte} {sh : Shadow} (h : sh.dec.ring.wf) : (sh.consume x raw).dec.ring.wf := by
  unfold Shadow.consume
  split
  · cases hp : sh.dec.ph <;> simp only [] <;> first | exact h | exact Shadow.emit_wf (sh := { sh with dec := sh.dec.advance }) h
  · exact h

theorem Shadow.feed_wf {x : List Byte} {raw : Byte} {sh : Shadow} (h : sh.dec.ring.wf) : (sh.feed x raw).dec.ring.wf := by
  unfold Shadow.feed
  refine Shadow.settle_wf _ (Shadow.consume_wf ?_)
  exact Shadow.settle_wf _ h

theorem Shadow.feedAll_wf {x raws : List Byte} {sh : Shadow} (h : sh.dec.ring.wf) : (sh.feedAll x raws).dec.ring.wf := by
  unfold Shadow.feedAll
  induction raws generalizing sh with
  | nil => exact h
  | cons r rs ih => exact ih (Shadow.feed_wf h)

/-! ## ENC -/

theorem Enc.ringWriteAll_wf (bs : List Byte) {e : Enc} (h : e.ring.wf) : (e.ringWriteAll bs).ring.wf := by
  unfold Enc.ringWriteAll
  induction bs generalizing e with
  | nil => exact h
  | cons b bs ih => exact ih (Ring.write_wf h _ _)

theorem Enc.ringWriteAll_shadow (bs : List Byte) (e : Enc) : (e.ringWriteAll bs).shadow = e.shadow := by
  unfold Enc.ringWriteAll
  induction bs generalizing e with
  | nil => rfl
  | cons b bs ih => exact (ih _).trans rfl

/-- A block is a flag byte and at most 16 operation bytes (R37, R90). -/
theorem Enc.blockWire_length_le (e : Enc) : e.blockWire.length ≤ 17 := by
  simp [Enc.blockWire]

/-- Block emission keeps every memory canonical: `OPTR` stays inside its 34 bits while the registers are in range (R183). -/
theorem writeBlock_canonical {s : State} (h : MemoryCanonical s) (hr : s.enc.inRange = true) :
    MemoryCanonical (writeBlock s) := by
  obtain ⟨h1, h2, h3, h4, h5⟩ := h
  refine ⟨h1, h2, ?_, h4, ?_⟩
  · intro sh hsh
    simp only [writeBlock, Enc.clearQueue, Option.mem_def, Option.map_eq_some_iff] at hsh
    obtain ⟨sh', hm, rfl⟩ := hsh
    exact Shadow.feedAll_wf (h3 _ hm)
  · refine Memory.writeAll_wf h5 ?_
    have := Enc.blockWire_length_le s.enc
    simp only [Enc.inRange, Bool.and_eq_true, decide_eq_true_eq] at hr
    omega

/-! ## The ring content of R59 (e) -/

/-- `Emit(v)` as the `k`-th byte (R129) keeps the relation of R59 (e). -/
theorem RingHolds.emit {r : Ring} {o : Memory} {k : Nat} {v : Byte} (hr : r.wf) (h : RingHolds r k o.read) :
    RingHolds (r.write (Config.cursorInit + BitVec.ofNat 12 k) v) (k + 1) (o.write k v).read := by
  intro a
  have ha := h a
  simp only at ha ⊢
  rw [Ring.read_write hr]
  have hj : (a - Config.cursorInit).toNat < 4096 := (a - Config.cursorInit).isLt
  have hk : (a = Config.cursorInit + BitVec.ofNat 12 k) ↔ (a - Config.cursorInit).toNat = k % 4096 := by
    constructor
    · rintro rfl
      have : Config.cursorInit + BitVec.ofNat 12 k - Config.cursorInit = BitVec.ofNat 12 k := by
        rw [BitVec.add_comm, BitVec.add_sub_cancel]
      rw [this]; simp
    · intro h
      have : a - Config.cursorInit = BitVec.ofNat 12 k := by
        apply BitVec.eq_of_toNat_eq; rw [h]; simp
      rw [← this, BitVec.add_comm, BitVec.sub_add_cancel]
  generalize (a - Config.cursorInit).toNat = j at *
  by_cases hak : a = Config.cursorInit + BitVec.ofNat 12 k
  · have := hk.mp hak
    rw [if_neg (by omega), if_pos hak]
    have : lastIndex (k+1) j = k := by unfold lastIndex; omega
    rw [this, Memory.read_write_same]
  · have hne : j ≠ k % 4096 := fun h => hak (hk.mpr h)
    rw [if_neg hak]
    by_cases hkj : k ≤ j
    · rw [if_pos hkj] at ha
      rw [if_pos (by omega)]; exact ha
    · rw [if_neg hkj] at ha
      rw [if_neg (by omega)]
      have h1 : lastIndex (k+1) j = lastIndex k j := by unfold lastIndex; omega
      have h2 : lastIndex k j ≠ k := by unfold lastIndex; omega
      rw [h1, Memory.read_write_other _ _ h2]; exact ha

end Sys2Proof.Machine
end

