-- ==== Sys2Proof/Laws/PerInstr.lean ====
section
/-! SUPPORT. Statements made per instruction, as syntax: how many stream bytes an instruction's encoding has (R107, R108). -/

namespace Sys2Proof.Laws.EncodedSize

/-- A stream operation is stored in as many bytes as R107 gives it; a host command takes none of the stream (R108). -/
def Statement (i : Instr) : Prop :=
  match encode i with
  | .stream _ wire => wire.length = i.streamBytes ∧ 1 ≤ i.streamBytes
  | .ctrl _ _ => i.streamBytes = 0

theorem flag (kinds : Byte) : Statement (.flag kinds) := ⟨rfl, Nat.le_refl 1⟩

theorem lit (data : Byte) : Statement (.lit data) := ⟨rfl, Nat.le_refl 1⟩

theorem ref (position : RingAddr) (length : BitVec 5) : Statement (.ref position length) := ⟨rfl, Nat.le_succ 1⟩

theorem start (engine : Engine) (unused : BitVec 29) (ie : Bool) : Statement (.start engine unused ie) := rfl

theorem abort (engine : Engine) (unused : BitVec 29) (ie startBit : Bool) :
    Statement (.abort engine unused ie startBit) := rfl

end Sys2Proof.Laws.EncodedSize
end

