-- ==== Sys2Proof/Tests/Slice0.lean ====
section
/-! SUPPORT. Tests of one step each, with values from the spec's examples and vectors (R109, 95_test_vectors.md), and for
every obligation with hypotheses a concrete state that meets them. -/

namespace Sys2Proof.Tests

open Sys2Proof Sys2Proof.Machine

/-! ## Helpers -/

/-- The next state, if the outcome is one. -/
def nextOf (o : Host.Outcome State Fault Refusal) : Option State :=
  match o with
  | .next t => some t
  | .fault _ => none
  | .refused _ => none

/-- A DEC started on the wire bytes `stream` for `p` bytes (R121), then moved to phase `ph` with index `iptr`. -/
def decAt (stream : List Byte) (p : BitVec 32) (iptr : BitVec 40) (ph : DecPhase) : State :=
  { State.reset with inS := stream
                     dec := { State.reset.dec.init with p := p, slen := BitVec.ofNat 40 stream.length, iptr := iptr
                                                        ph := ph } }

/-- A state with its DEC changed. -/
def withDec (f : Dec → Dec) (s : State) : State := { s with dec := f s.dec }

/-- An ENC started on `pixels` (R153), without a shadow decoder, moved to phase `ph`. -/
def encAt (pixels : List Byte) (ph : EncPhase) : State :=
  { State.reset with inX := pixels
                     enc := { State.reset.enc.init (Vector.replicate 16 0) with n := BitVec.ofNat 33 pixels.length
                                                                                ph := ph } }

/-- A state with its ENC changed. -/
def withEnc (f : Enc → Enc) (s : State) : State := { s with enc := f s.enc }

/-- A state with a host action due. -/
def due (a : HostAction) (s : State) : State := { s with agenda := [.host a] }

/-! ## WellFormed refuses ill-formed terms, Decode reads the words of the spec -/

/-- R94: the length of a REF is 3 to 18. -/
theorem test_wellFormed_refuses_bad_lengths :
    (Instr.ref 0x123#12 2#5).wellFormed = false ∧ (Instr.ref 0x123#12 0#5).wellFormed = false ∧
    (Instr.ref 0x123#12 19#5).wellFormed = false ∧ (Instr.ref 0x123#12 31#5).wellFormed = false ∧
    (Instr.ref 0x123#12 3#5).wellFormed = true ∧ (Instr.ref 0x123#12 18#5).wellFormed = true := by decide

/-- R109 (f): flag `1001 1101`, wire `0x62`, bit by bit. -/
theorem test_decode_flag : decode (.stream .flag [0b01100010#8]) = .ok (.flag 0b10011101#8) := by decide

/-- 95 D2: `LIT 20` is wire `DF`, bit by bit. -/
theorem test_decode_lit : decode (.stream .lit [0b11011111#8]) = .ok (.lit 0b00100000#8) := by decide

/-- R109 (e): wire `DA 00`, bit by bit, is `REF FF2, 8`. -/
theorem test_decode_ref :
    decode (.stream .ref [0b11011010#8, 0b00000000#8]) = .ok (.ref 0b111111110010#12 8#5) := by decide

/-- Table rows START and ABORT: `[31:3]` unused, `[2]` IE, `[1]` ABORT, `[0]` START, bit by bit. -/
theorem test_decode_ctrl :
    decode (.ctrl .dec 0b00000000000000000000000000000001#32) = .ok (.start .dec 0 false) ∧
    decode (.ctrl .dec 0b00000000000000000000000000001101#32) = .ok (.start .dec 1 true) ∧
    decode (.ctrl .enc 0b00000000000000000000000000000010#32) = .ok (.abort .enc 0 false false) ∧
    decode (.ctrl .enc 0b10000000000000000000000000000111#32) = .ok (.abort .enc 0x10000000 true true) := by decide

/-- R202, R203, R108: what is refused, and nothing else is. -/
theorem test_decode_refusals :
    decode (.stream .flag []) = .error .noByte ∧ decode (.stream .lit []) = .error .noByte ∧
    decode (.stream .ref [0x10#8]) = .error .refCutShort ∧ decode (.ctrl .dec 4#32) = .error .noCommand := by decide

/-- Table words: an 8-bit word is taken to be a FLAG, a 16-bit word a REF with `U` in bits 15:8, a 32-bit word a CTRL
write (log entry 17). -/
theorem test_decodeTableWord :
    decodeTableWord 8 0x9D = some (.flag 0x9D#8) ∧ decodeTableWord 16 0x25FF = some (.ref 0xFF2#12 8#5) ∧
    decodeTableWord 16 0xEFFE = some (.ref 0xFEE#12 18#5) ∧ decodeTableWord 32 1 = some (.start .dec 0 false) ∧
    decodeTableWord 32 2 = some (.abort .dec 0 false false) ∧ decodeTableWord 32 0 = none := by decide

/-- 95 S2, D11: listings assemble to the wire bytes the spec gives. -/
theorem test_assemble :
    assemble [.lit 0x41, .refd 1 5] = [0x7F#8, 0xBE#8, 0x1D#8, 0x01#8] ∧
    assemble [.lit 0x61, .ref 0xFEE 3, .ref 0xFEE 4, .lit 0x62, .lit 0x63, .lit 0x64, .refd 3 3, .lit 0x65] =
      [0x62#8, 0x9E#8, 0x1F#8, 0x01#8, 0x1E#8, 0x01#8, 0x9D#8, 0x9C#8, 0x9B#8, 0x9F#8, 0x00#8, 0x9A#8] := by decide

/-! ## A table word is the next thing run after reset -/

/-- The 8-bit word `9D` is run as FLAG (R123). -/
theorem test_withFetchWord_flag :
    (nextOf (step (State.reset.withFetchWord 8 0x9D))).map (fun t => (t.dec.flags, t.dec.fcnt, t.dec.iptr, t.dec.ph)) =
      some (0x9D#8, 8#4, 1#40, DecPhase.bit) := by decide

/-- The 16-bit word `U = 00, L = 00` is run as `REF 000, 3` (95 D5): three pre-seed bytes. -/
theorem test_withFetchWord_ref :
    (nextOf (step (State.reset.withFetchWord 16 0))).map (fun t => (t.outO, t.dec.iptr, t.dec.rcur)) =
      some ([(0, 0x20#8), (1, 0x20#8), (2, 0x20#8)], 2#40, 0xFF1#12) := by decide

/-- CTRL words start and abort DEC. -/
theorem test_withFetchWord_ctrl :
    (nextOf (step (State.reset.withFetchWord 32 5))).map (fun t => (t.dec.st, t.dec.ie)) = some (RunState.init, true) ∧
    (nextOf (step (State.reset.withFetchWord 32 2))).map (fun t => t.dec.st) = some RunState.idle := by decide

/-! ## One step of each kind against the spec's vectors -/

/-- 95 F-1: `9D` gives kind bits 1, 0, ... and `FLAGS = 3B`, then `76`. -/
theorem test_bit_phase :
    (nextOf (decStep (withDec (fun d => { d with flags := 0x9D, fcnt := 8 }) (decAt [0x62#8] 8 1 .bit)))).map
      (fun t => (t.dec.flags, t.dec.fcnt, t.dec.ph)) = some (0x3B#8, 7#4, DecPhase.lit) ∧
    (nextOf (decStep (withDec (fun d => { d with flags := 0x3B, fcnt := 7 }) (decAt [0x62#8] 8 1 .bit)))).map
      (fun t => (t.dec.flags, t.dec.fcnt, t.dec.ph)) = some (0x76#8, 6#4, DecPhase.refU) := by decide

/-- 95 D1: the literal `05`. -/
theorem test_lit :
    (nextOf (decStep (decAt [0x7F#8, 0xFA#8] 1 1 .lit))).map
      (fun t => (t.outO, t.dec.ocnt, t.dec.iptr, t.dec.rcur, t.dec.ring.read 0xFEE)) =
      some ([(0, 0x05#8)], 1#32, 2#40, 0xFEF#12, 0x05#8) := by decide

/-- 95 D3: the ring after `LIT 41`, then `REF FEE, 5` at cursor `FEF`, the self-overlap of distance 1. -/
theorem test_ref_overlap :
    (nextOf (exec (.ref 0xFEE 5) (withDec (fun d => { d with ocnt := 1, rcur := 0xFEF, ring := d.ring.write 0xFEE 0x41 })
      (decAt [0x7F#8, 0xBE#8, 0x1D#8, 0x01#8] 6 2 .refU)))).map (fun t => (t.outO, t.dec.rcur, t.dec.iptr)) =
      some ([(1, 0x41#8), (2, 0x41#8), (3, 0x41#8), (4, 0x41#8), (5, 0x41#8)], 0xFF4#12, 4#40) := by decide

/-- 95 D7: `REF FEE, 18` after `LIT 05` with `P = 5` is clipped to four bytes. -/
theorem test_ref_clip :
    (nextOf (exec (.ref 0xFEE 18) (withDec (fun d => { d with ocnt := 1, rcur := 0xFEF, ring := d.ring.write 0xFEE 0x05 })
      (decAt [0x7F#8, 0xFA#8, 0x10#8, 0x01#8] 5 2 .refU)))).map
      (fun t => (t.dec.ocnt, t.dec.rcur, t.dec.ci, t.dec.len, t.dec.ring.read 0xFF2, t.dec.ring.read 0xFF3)) =
      some (5#32, 0xFF3#12, 4#5, 18#5, 0x05#8, 0x20#8) := by decide

/-- 95 D9a, D9b, D9c, D9d: the four faults. -/
theorem test_faults :
    (nextOf (decStep (decAt [] 1 0 .flag))).map (fun t => (t.dec.st, t.dec.err, t.dec.errph)) =
      some (RunState.fault, Cause.unexpectedEnd, FaultPhase.atFlag) ∧
    (nextOf (decStep (decAt [0x7F#8] 1 1 .lit))).map (fun t => (t.dec.st, t.dec.err, t.dec.errph)) =
      some (RunState.fault, Cause.corrupt, FaultPhase.atLit) ∧
    (nextOf (decStep (decAt [0xFF#8] 1 1 .refU))).map (fun t => (t.dec.st, t.dec.err, t.dec.errph)) =
      some (RunState.fault, Cause.corrupt, FaultPhase.atRefU) ∧
    (nextOf (decStep (decAt [0xFF#8, 0x10#8] 1 2 .refL))).map (fun t => (t.dec.st, t.dec.err, t.dec.errph, t.dec.ph)) =
      some (RunState.fault, Cause.corrupt, FaultPhase.atRefL, DecPhase.refL) := by decide

/-- 95 D10, D14: the count is tested before the stream. -/
theorem test_count_first :
    (nextOf (decStep (decAt [] 0 0 .guard))).map (fun t => t.dec.st) = some RunState.done := by decide

/-- The ENC of 95 E1 at `s = 2`, with the depth cut to 4. -/
def encE1 : State :=
  withEnc (fun e => { e with spos := 2, rcur := 0xFF0, litops := 2, totops := 2, qn := 2, qflag := 0xC0, qbn := 2, depth := 4
                             ring := (e.ring.write 0xFEE 0x41).write 0xFEF 0x42 })
    (encAt [0x41#8, 0x42#8, 0x41#8, 0x42#8, 0x41#8, 0x42#8, 0x43#8] .search)

/-- 95 E1: the best candidate is distance 2, length 4, score 262144, position `FEE`. -/
theorem test_search :
    (nextOf (encStep encE1)).map (fun t => (t.enc.best, t.enc.bpos)) =
      some (⟨true, 262144#37, 2#12, 4#5⟩, 0xFEE#12) := by decide

/-- 95 E5a, last block: flag `80`, bytes `09 E0 FE` pending; FLUSH writes `7F F6 1F 01` and ends the run. -/
theorem test_flush :
    (nextOf (encStep (withEnc (fun e => { e with spos := 4, totops := 2, litops := 1, qn := 2, qflag := 0x80, qbn := 3
                                                 qb := ((e.qb.set 0 0x09).set 1 0xE0).set 2 0xFE })
      (encAt [0x09#8, 0x09#8, 0x09#8, 0x09#8] .flush)))).map (fun t => (t.outY, t.enc.optr, t.enc.st)) =
      some ([(0, 0x7F#8), (1, 0xF6#8), (2, 0x1F#8), (3, 0x01#8)], 4#34, RunState.done) := by decide

/-- 95 E5a, the second COMMIT: `REF FEE, 3` is pending as `E0 FE`. -/
theorem test_commit_ref :
    (nextOf (encStep (withEnc (fun e => { e with spos := 1, rcur := 0xFEF, totops := 1, litops := 1, qn := 1, qflag := 0x80
                                                 qbn := 1, kind := .ref, best := ⟨true, 0, 1, 3⟩, bpos := 0xFEE })
      (encAt [0x09#8, 0x09#8, 0x09#8, 0x09#8] .commit)))).map
      (fun t => (t.enc.qb[1], t.enc.qb[2], t.enc.qbn, t.enc.rcur, t.enc.spos, t.enc.ph)) =
      some (0xE0#8, 0xFE#8, 3#5, 0xFF2#12, 4#33, EncPhase.guard) := by decide

/-- R44: a host write of `TLR` above 65536 stores 65536. -/
theorem test_tlr_clamp :
    (nextOf (step (due (.write .enc 0x40 0x0001FFFF#32) State.reset))).map (fun t => t.enc.tlr) = some 65536#17 := by decide


/-! ## For every statement with hypotheses, states and operands that meet them -/

/-- A DEC with one byte emitted: `41` at ring `FEE`. -/
def decEmitted (stream : List Byte) (p : BitVec 32) (iptr : BitVec 40) (ph : DecPhase) : State :=
  withDec (fun d => { d with ocnt := 1, rcur := 0xFEF, fcnt := 7, ring := d.ring.write 0xFEE 0x41 })
    (decAt stream p iptr ph)

theorem witness_DecodeAfterEncode :
    (Instr.ref 0xFFF#12 18#5).wellFormed = true ∧ (Instr.ref 0#12 3#5).wellFormed = true ∧
    (Instr.abort .enc 0x1FFFFFFF false true).wellFormed = true := by decide

theorem witness_EncodeAfterDecode :
    decode (.stream .ref [0x00#8, 0x00#8, 0x77#8]) = .ok (.ref 0xFFF#12 18#5) ∧
    decode (.stream .lit [0xFF#8]) = .ok (.lit 0x00#8) ∧
    decode (.ctrl .enc 0xFFFFFFFB#32) = .ok (.abort .enc 0x1FFFFFFF false true) := by decide

theorem witness_AgendaIsObeyed :
    (due .hardwareReset State.reset).agenda = .host .hardwareReset :: [] ∧
    ((decAt [] 0 0 .guard).agenda = [] ∧ (decAt [] 0 0 .guard).dec.st = .run) ∧
    (State.reset.agenda = [] ∧ State.reset.dec.st ≠ .init ∧ State.reset.dec.st ≠ .run) := by decide

/-- The three kinds due, with each agenda of the statement. -/
theorem witness_StepRunsDecodedOperation :
    let f := decAt [0x62#8] 1 0 .flag
    let l := decAt [0x7F#8, 0xFA#8] 1 1 .lit
    let r := { decAt [0xFF#8, 0x10#8, 0x01#8] 1 1 .refU with agenda := [.operation] }
    (decode (.stream .flag f.streamRest) = .ok (.flag 0x9D#8) ∧ f.dec.st = .run ∧ f.dec.inRange = true ∧
      f.dec.slen.toNat ≤ f.inS.length ∧ f.dec.ph = .flag ∧ f.agenda = []) ∧
    (decode (.stream .lit l.streamRest) = .ok (.lit 0x05#8) ∧ l.dec.st = .run ∧ l.dec.inRange = true ∧
      l.dec.slen.toNat ≤ l.inS.length ∧ l.dec.ph = .lit ∧
      ({ l with agenda := [.phase .dec] } : State).agenda = .phase .dec :: []) ∧
    (decode (.stream .ref r.streamRest) = .ok (.ref 0xFEE#12 18#5) ∧ r.dec.st = .run ∧ r.dec.inRange = true ∧
      r.dec.slen.toNat ≤ r.inS.length ∧ r.dec.ph = .refU ∧ r.agenda = .operation :: []) := by decide

theorem witness_StepRunsCtrlCommand :
    (due (.write .enc 0 1#32) State.reset).agenda = .host (.write .enc 0 1#32) :: [] ∧
    decode (.ctrl .enc 1#32) = .ok (.start .enc 0 false) ∧
    (due (.write .dec 0 4#32) State.reset).agenda = .host (.write .dec 0 4#32) :: [] ∧
    (due (.write .enc 0 4#32) State.reset).agenda = .host (.write .enc 0 4#32) :: [] ∧
    (4#32).getLsbD 0 = false ∧ (4#32).getLsbD 1 = false := by decide

theorem witness_FlagLoadsKindBits : (decAt [0x62#8] 1 0 .flag).dec.iptr ≠ (decAt [0x62#8] 1 0 .flag).dec.slen := by decide

theorem witness_LitEmitsItsByte :
    let s := decAt [0x7F#8, 0xFA#8] 1 1 .lit
    s.dec.iptr ≠ s.dec.slen ∧ s.dec.ring.wf := by decide

/-- Distances 0, 1 and 4095, lengths 3 and 18, a copy that is clipped and one that is clipped to nothing. -/
theorem witness_RefCopiesBytes :
    let s := decEmitted [0x7F#8, 0xBE#8, 0x10#8, 0x01#8] 6 2 .refU
    let full := decEmitted [0x7F#8, 0xBE#8, 0x10#8, 0x01#8] 1 2 .refU
    ((Instr.ref s.dec.rcur 3#5).wellFormed = true ∧ (Instr.ref (s.dec.rcur - 1) 18#5).wellFormed = true ∧
      (Instr.ref (s.dec.rcur - 4095) 5#5).wellFormed = true) ∧
    (s.dec.iptr ≠ s.dec.slen ∧ s.dec.iptr + 1 ≠ s.dec.slen ∧ s.dec.ocnt.toNat ≤ s.dec.p.toNat ∧ s.dec.ring.wf) ∧
    (full.dec.iptr ≠ full.dec.slen ∧ full.dec.iptr + 1 ≠ full.dec.slen ∧ full.dec.ocnt.toNat ≤ full.dec.p.toNat ∧
      full.dec.ring.wf) := by decide

theorem witness_MissingByteFaults :
    (decAt [] 1 0 .flag).dec.iptr = (decAt [] 1 0 .flag).dec.slen ∧
    (decAt [0x7F#8] 1 1 .lit).dec.iptr = (decAt [0x7F#8] 1 1 .lit).dec.slen ∧
    (decAt [0xFF#8] 1 1 .refU).dec.iptr = (decAt [0xFF#8] 1 1 .refU).dec.slen ∧
    (decAt [0xFF#8, 0x10#8] 1 1 .refU).dec.iptr ≠ (decAt [0xFF#8, 0x10#8] 1 1 .refU).dec.slen ∧
    (decAt [0xFF#8, 0x10#8] 1 1 .refU).dec.iptr + 1 = (decAt [0xFF#8, 0x10#8] 1 1 .refU).dec.slen := by decide

theorem witness_RefAtDistanceZeroAndOne :
    let s := decEmitted [0x7F#8, 0xBE#8, 0x10#8, 0x01#8] 19 2 .refU
    (Instr.ref s.dec.rcur 18#5).wellFormed = true ∧ (Instr.ref (s.dec.rcur - 1) 18#5).wellFormed = true ∧
    s.dec.iptr ≠ s.dec.slen ∧ s.dec.iptr + 1 ≠ s.dec.slen ∧ s.dec.ocnt.toNat ≤ s.dec.p.toNat ∧
    s.dec.ocnt.toNat + (18#5).toNat ≤ s.dec.p.toNat ∧ s.dec.ring.wf := by decide

/-- `P = 6` leaves room for five bytes: eight steps, as events beside a running ENC, and with no event and ENC stopped. -/
theorem witness_RefPhasesTakenTogether :
    let s := decEmitted [0x7F#8, 0xBE#8, 0x10#8, 0x01#8] 6 2 .refU
    let t : State := { s with agenda := List.replicate 8 (.phase .dec) ++ [.phase .enc], enc := (encAt [] .guard).enc }
    (DecRuns s .refU ∧ decode (.stream .ref s.streamRest) = .ok (.ref 0xFEE#12 18#5) ∧ s.agenda = [] ∧
      s.enc.st.stopped = true) ∧
    (DecRuns t .refU ∧ decode (.stream .ref t.streamRest) = .ok (.ref 0xFEE#12 18#5) ∧
      t.agenda = List.replicate (min (18#5).toNat (t.dec.p.toNat - t.dec.ocnt.toNat) + 3) (.phase .dec) ++ [.phase .enc] ∧
      t.enc.st = .run) := by decide

theorem witness_GuardPhaseOfDec :
    (DecRuns (decAt [] 0 0 .guard) .guard ∧ (decAt [] 0 0 .guard).dec.ocnt = (decAt [] 0 0 .guard).dec.p) ∧
    (DecRuns (decAt [] 1 0 .guard) .guard ∧ (decAt [] 1 0 .guard).dec.ocnt ≠ (decAt [] 1 0 .guard).dec.p ∧
      (decAt [] 1 0 .guard).dec.fcnt = 0) ∧
    (DecRuns (decEmitted [] 2 0 .guard) .guard ∧ (decEmitted [] 2 0 .guard).dec.ocnt ≠ (decEmitted [] 2 0 .guard).dec.p ∧
      (decEmitted [] 2 0 .guard).dec.fcnt ≠ 0) := by decide

theorem witness_FlagPhaseOfDec :
    (DecRuns (decAt [] 1 0 .flag) .flag ∧ (decAt [] 1 0 .flag).dec.iptr = (decAt [] 1 0 .flag).dec.slen) ∧
    (DecRuns (decAt [0x62#8] 1 0 .flag) .flag ∧
      (decAt [0x62#8] 1 0 .flag).dec.iptr ≠ (decAt [0x62#8] 1 0 .flag).dec.slen) := by decide

theorem witness_BitPhaseOfDec : DecRuns (withDec (fun d => { d with fcnt := 8 }) (decAt [0x62#8] 1 1 .bit)) .bit := by decide

theorem witness_LitPhaseOfDec :
    (DecRuns (decAt [0x7F#8] 1 1 .lit) .lit ∧ (decAt [0x7F#8] 1 1 .lit).dec.iptr = (decAt [0x7F#8] 1 1 .lit).dec.slen) ∧
    (DecRuns (decAt [0x7F#8, 0xFA#8] 1 1 .lit) .lit ∧
      (decAt [0x7F#8, 0xFA#8] 1 1 .lit).dec.iptr ≠ (decAt [0x7F#8, 0xFA#8] 1 1 .lit).dec.slen) := by decide

theorem witness_RefUnpackPhasesOfDec :
    (DecRuns (decAt [0xFF#8] 1 1 .refU) .refU ∧ (decAt [0xFF#8] 1 1 .refU).dec.iptr = (decAt [0xFF#8] 1 1 .refU).dec.slen) ∧
    (DecRuns (decAt [0xFF#8, 0x10#8] 1 1 .refU) .refU ∧
      (decAt [0xFF#8, 0x10#8] 1 1 .refU).dec.iptr ≠ (decAt [0xFF#8, 0x10#8] 1 1 .refU).dec.slen) ∧
    (DecRuns (decAt [0xFF#8, 0x10#8] 1 2 .refL) .refL ∧
      (decAt [0xFF#8, 0x10#8] 1 2 .refL).dec.iptr = (decAt [0xFF#8, 0x10#8] 1 2 .refL).dec.slen) ∧
    (DecRuns (decAt [0xFF#8, 0x10#8, 0x01#8] 1 2 .refL) .refL ∧
      (decAt [0xFF#8, 0x10#8, 0x01#8] 1 2 .refL).dec.iptr ≠ (decAt [0xFF#8, 0x10#8, 0x01#8] 1 2 .refL).dec.slen) := by
  decide

/-- The exit by length, the exit by count, and a byte that is copied. -/
theorem witness_CopyPhaseOfDec :
    let a := withDec (fun d => { d with len := 3, ci := 3 }) (decEmitted [] 6 0 .copy)
    let b := withDec (fun d => { d with len := 18, ci := 5 }) (decEmitted [] 1 0 .copy)
    let c := withDec (fun d => { d with len := 18, ci := 17 }) (decEmitted [] 2 0 .copy)
    (DecRuns a .copy ∧ a.dec.ci = a.dec.len ∧ a.dec.ocnt ≠ a.dec.p) ∧
    (DecRuns b .copy ∧ b.dec.ci ≠ b.dec.len ∧ b.dec.ocnt = b.dec.p) ∧
    (DecRuns c .copy ∧ c.dec.ci ≠ c.dec.len ∧ c.dec.ocnt ≠ c.dec.p) := by decide

/-- `IDLE`, `DONE` and `FAULT`, with a slice exactly as long as declared. -/
theorem witness_StartFollowsRunState :
    let d := withDec (fun d => { d with st := .done }) (decAt [0x7F#8, 0xFA#8] 1 2 .guard)
    let e := withEnc (fun e => { e with st := .fault }) (encAt [0x05#8] .flush)
    (d.dec.st ≠ .init ∧ d.dec.st ≠ .run ∧ d.dec.slen.toNat ≤ d.inS.length) ∧
    (e.enc.st ≠ .init ∧ e.enc.st ≠ .run ∧ e.enc.n.toNat ≤ 2 ^ 32 ∧ e.enc.n.toNat ≤ e.inX.length) ∧
    (State.reset.dec.st ≠ .init ∧ State.reset.dec.st ≠ .run ∧ State.reset.dec.slen.toNat ≤ State.reset.inS.length) := by
  decide

theorem witness_StartFollowsRunState_ignored :
    (decAt [] 0 0 .guard).dec.st = .run ∧ (withDec (fun d => { d with st := .init }) State.reset).dec.st = .init ∧
    (encAt [] .guard).enc.st = .run ∧ (withEnc (fun e => { e with st := .init }) State.reset).enc.st = .init := by decide

/-- `SLEN` one above the slice, `N` one above `2^32`, `N = 2^32` above the slice. -/
theorem witness_StartFollowsRunState_refused :
    let d := withDec (fun d => { d with slen := 1 }) State.reset
    let e := withEnc (fun e => { e with n := 0x100000001 }) State.reset
    let f := withEnc (fun e => { e with n := 0x100000000 }) State.reset
    (d.dec.st ≠ .init ∧ d.dec.st ≠ .run ∧ d.inS.length < d.dec.slen.toNat) ∧
    (e.enc.st ≠ .init ∧ e.enc.st ≠ .run ∧ 2 ^ 32 < e.enc.n.toNat) ∧
    (f.enc.st ≠ .init ∧ f.enc.st ≠ .run ∧ f.enc.n.toNat ≤ 2 ^ 32 ∧ f.inX.length < f.enc.n.toNat) := by decide

theorem witness_InitStepOfDec : (withDec (fun d => { d with st := .init }) State.reset).dec.st = .init := by decide

/-- Without and with a shadow decoder, at the greatest `N`. -/
theorem witness_InitStepOfEnc :
    let s := withEnc (fun e => { e with st := .init }) State.reset
    let t := withEnc (fun e => { e with st := .init, n := 0x100000000 }) (State.resetWith true)
    (s.enc.st = .init ∧ s.enc.shadow = none) ∧ (t.enc.st = .init ∧ t.enc.shadow = some ⟨Dec.reset 2, 0, 0, false⟩) := by
  decide

theorem witness_HardwareResetFromAnyState :
    ((due .hardwareReset (decAt [] 0 0 .guard)).agenda = .host .hardwareReset :: [] ∧
      (due .hardwareReset (decAt [] 0 0 .guard)).enc.shadow = none) ∧
    ((due .hardwareReset (State.resetWith true)).agenda = .host .hardwareReset :: [] ∧
      (due .hardwareReset (State.resetWith true)).enc.shadow = some ⟨Dec.reset 2, 0, 0, false⟩) := by decide

/-- The last offset of each list and of each weight table. -/
theorem witness_ProgrammingIgnoredWhileRunning :
    let d := due (.write .dec 0x10 7#32) (decAt [] 0 0 .guard)
    let e := due (.write .enc 0x4C 1#32) (withEnc (fun e => { e with st := .init }) State.reset)
    let l := due (.write .enc 0xBC 1#32) (encAt [] .guard)
    let w := due (.write .enc 0xEC 1#32) (encAt [] .guard)
    (d.agenda = .host (.write .dec 0x10 7#32) :: [] ∧ d.dec.st = .run ∧ 0x10#16 ∈ [0x08#16, 0x0C#16, 0x10#16]) ∧
    (e.agenda = .host (.write .enc 0x4C 1#32) :: [] ∧ e.enc.st = .init ∧
      0x4C#16 ∈ [0x08#16, 0x0C#16, 0x40#16, 0x44#16, 0x48#16, 0x4C#16]) ∧
    (l.agenda = .host (.write .enc 0xBC 1#32) :: [] ∧ l.enc.st = .run ∧ 0xBC#16 = BitVec.ofNat 16 (0x80 + 4 * 15)) ∧
    (w.agenda = .host (.write .enc 0xEC 1#32) :: [] ∧ w.enc.st = .run ∧ 0xEC#16 = BitVec.ofNat 16 (0xC0 + 4 * 11)) := by
  decide

/-- One write of each engine and one of each weight table, each run: the last entry of a table, a `TLR` that is clamped, and
the eight bits of `SLEN_HI`. -/
theorem witness_ProgrammingStoresFields :
    (State.reset.dec.st.stopped = true ∧ State.reset.enc.st.stopped = true) ∧
    (nextOf (step (due (.write .dec 0x10 0x1FF#32) State.reset))).map (fun t => t.dec.slen) = some 0xFF00000000#40 ∧
    (nextOf (step (due (.write .enc 0x40 65537#32) State.reset))).map (fun t => t.enc.tlr) = some 65536#17 ∧
    (nextOf (step (due (.write .enc 0xBC 0x10007#32) State.reset))).map (fun t => t.enc.lw[15]) = some 7#16 ∧
    (nextOf (step (due (.write .enc 0xEC 9#32) State.reset))).map (fun t => t.enc.dw[11]) = some 9#16 := by decide

/-- For each engine a register of the host in RUN, a working register of a stopped engine, and the last byte of the ring
window; for ENC also the last entry of each weight table. -/
theorem witness_ReadsOfRegisters :
    (due (.read .dec 0x08) (decAt [] 0 0 .guard)).agenda = .host (.read .dec 0x08) :: [] ∧
    ((due (.read .dec 0x1C) State.reset).agenda = .host (.read .dec 0x1C) :: [] ∧ State.reset.dec.st.stopped = true) ∧
    (due (.read .dec 0x1FFF) State.reset).agenda = .host (.read .dec (0x1000#16 + (0xFFF#12).setWidth 16)) :: [] ∧
    (due (.read .enc 0x48) (encAt [] .guard)).agenda = .host (.read .enc 0x48) :: [] ∧
    ((due (.read .enc 0x34) State.reset).agenda = .host (.read .enc 0x34) :: [] ∧ State.reset.enc.st.stopped = true) ∧
    (due (.read .enc 0x1FFF) State.reset).agenda = .host (.read .enc (0x1000#16 + (0xFFF#12).setWidth 16)) :: [] ∧
    (due (.read .enc 0xBC) State.reset).agenda = .host (.read .enc (BitVec.ofNat 16 (0x80 + 4 * 15))) :: [] ∧
    (due (.read .enc 0xEC) State.reset).agenda = .host (.read .enc (BitVec.ofNat 16 (0xC0 + 4 * 11))) :: [] := by decide

theorem witness_StatusFieldsAreExact :
    ((due (.read .dec 0x04) State.reset).agenda = .host (.read .dec 0x04) :: [] ∧ State.reset.dec.st.stopped = true) ∧
    ((due (.read .enc 0x04) State.reset).agenda = .host (.read .enc 0x04) :: [] ∧ State.reset.enc.st.stopped = true) ∧
    (due (.read .dec 0x04) (decAt [] 0 0 .guard)).agenda = .host (.read .dec 0x04) :: [] := by decide

/-- Distances 1 and 4095, an index below the distance and one at it. -/
theorem witness_ReplayFollowsRecursion :
    (1 ≤ 1 ∧ 1 ≤ 4095 ∧ 0 < 1 ∧ 1 ≤ 1) ∧ (1 ≤ 4095 ∧ 4095 ≤ 4095 ∧ 4094 < 4095 ∧ 4095 ≤ 4095) := by decide

/-- The whole list is asked for, and it matches over two bytes. -/
theorem witness_MatchLengthIsGreatest :
    2 ≤ [0x20#8, 0x20#8].length ∧ matchLength Ring.seeded 0xFEE 1 [0x20#8, 0x20#8] 2 = 2 ∧
    (∀ i, i < 2 → [0x20#8, 0x20#8][i]? = some (replayByte Ring.seeded 0xFEE 1 i)) := by decide

/-- A best candidate that is there (95 E1, length 4), also where MINLEN is 4 and DEPTH is 2; none where MINLEN is 5, where
DEPTH is 1, or at the greatest limit on other input. -/
theorem witness_BestCandidateIsNearestOfBestScore :
    let best := fun (e : Enc) => e.bestCandidate encE1.enc.ring encE1.enc.rcur (encE1.inX.drop 2) 5
    5 ≤ 18 ∧ 18 ≤ 18 ∧
    (best encE1.enc).valid = true ∧ (best { encE1.enc with minlen := 4, depth := 2 }).valid = true ∧
    (best { encE1.enc with minlen := 5 }).valid = false ∧ (best { encE1.enc with depth := 1 }).valid = false ∧
    (encE1.enc.bestCandidate encE1.enc.ring encE1.enc.rcur [0x99#8] 18).valid = false := by decide

theorem witness_ScoreIsExact : (1 ≤ 1 ∧ 1 ≤ 4095 ∧ 3 ≤ 3 ∧ 3 ≤ 18) ∧ (1 ≤ 4095 ∧ 4095 ≤ 4095 ∧ 3 ≤ 18 ∧ 18 ≤ 18) := by decide

/-- One state of which SELECT makes a REF, and one of which it makes a LIT by the ratio bias. -/
theorem witness_SelectPhaseOfEnc :
    let s := withEnc (fun e => { e with best := ⟨true, 0, 1, 3⟩, spos := 1, litops := 1, totops := 1, qn := 1, qbn := 1 })
      (encAt [0x09#8, 0x09#8, 0x09#8, 0x09#8] .select)
    let l := withEnc (fun e => { e with tlr := 65536, litops := 0, totops := 1 }) s
    (EncRuns s .select ∧ s.enc.best.valid = true ∧ ¬ s.enc.below = true ∧ s.enc.lazy = false) ∧
    (EncRuns l .select ∧ l.enc.below = true) := by decide

/-- At `s = 3` of `41 42 43 41 42` after `41 42 43` the lazy rule is evaluated where LAZY is set. -/
def encLazy : State :=
  withEnc (fun e => { e with spos := 3, rcur := 0xFF1, litops := 3, totops := 3, qn := 3, qflag := 0xE0, qbn := 3, depth := 4
                             lazy := true
                             ring := ((e.ring.write 0xFEE 0x41).write 0xFEF 0x42).write 0xFF0 0x43 })
    (encAt [0x41#8, 0x42#8, 0x43#8, 0x41#8, 0x42#8, 0x43#8, 0x99#8] .search)

theorem witness_GuardAndSearchPhasesOfEnc :
    (EncRuns (encAt [] .guard) .guard ∧ (encAt [] .guard).enc.spos = (encAt [] .guard).enc.n) ∧
    (EncRuns (encAt [0x05#8] .guard) .guard ∧ (encAt [0x05#8] .guard).enc.spos ≠ (encAt [0x05#8] .guard).enc.n) ∧
    (EncRuns encE1 .search ∧ encE1.enc.lazy = false) ∧
    (EncRuns encLazy .search ∧ encLazy.enc.lazyApplies (encLazy.enc.bestHere encLazy.inX) = true) ∧
    (EncRuns (withEnc (fun e => { e with depth := 4 }) (encAt [0x05#8] .search)) .search ∧
      (nextOf (encStep (withEnc (fun e => { e with depth := 4 }) (encAt [0x05#8] .search)))).map
        (fun t => t.enc.best.valid) = some false) := by decide

/-- The first operation of a block and the eighth. -/
theorem witness_CommitPhaseOfLit :
    let s := withEnc (fun e => { e with kind := .lit }) (encAt [0x05#8] .commit)
    let t := withEnc (fun e => { e with kind := .lit, qn := 7, qbn := 7, spos := 7, totops := 7, litops := 7, rcur := 0xFF5 })
      (encAt (List.replicate 8 0x05#8) .commit)
    (EncRuns s .commit ∧ s.enc.kind = .lit) ∧ (EncRuns t .commit ∧ t.enc.kind = .lit ∧ t.enc.qn = 7) := by decide

/-- A REF that ends at the last pixel. -/
theorem witness_CommitPhaseOfRef :
    let s := withEnc (fun e => { e with spos := 1, rcur := 0xFEF, totops := 1, litops := 1, qn := 1, qbn := 1, kind := .ref
                                        best := ⟨true, 0, 1, 3⟩, bpos := 0xFEE })
      (encAt [0x09#8, 0x09#8, 0x09#8, 0x09#8] .commit)
    EncRuns s .commit ∧ s.enc.kind = .ref ∧ s.enc.ring.wf := by decide

/-- A full block of eight REFs, with the queue full, without and with a shadow decoder. -/
theorem witness_PackPhaseWritesBlock :
    let s := withEnc (fun e => { e with qn := 8, qbn := 16, spos := 24, totops := 8 })
      (encAt (List.replicate 24 0x20#8) .pack)
    let t := withEnc (fun e => { e with shadow := some (Shadow.init 24 ⟨Dec.reset 2, 0, 0, false⟩) }) s
    (EncRuns s .pack ∧ s.enc.shadow = none) ∧ (EncRuns t .pack ∧ t.enc.shadow.isSome = true) := by decide

theorem witness_FlushPhaseEndsRun :
    let s := encAt [] .flush
    let t := withEnc (fun e => { e with qn := 1, qbn := 1, spos := 1, totops := 1, litops := 1 }) (encAt [0x05#8] .flush)
    (EncRuns s .flush ∧ s.enc.shadow = none ∧ s.enc.qn = 0) ∧ (EncRuns t .flush ∧ t.enc.shadow = none ∧ t.enc.qn ≠ 0) := by
  decide

/-- With an empty queue a shadow decoder that has finished as it should and one that has seen a mismatch; with `LIT 05` pending
(wire `7F FA`) one that agrees and one whose input differs. -/
theorem witness_SelfCheckDecidesFlush :
    let sh := Shadow.init 0 ⟨Dec.reset 2, 0, 0, false⟩
    let s := withEnc (fun e => { e with shadow := some sh }) (encAt [] .flush)
    let t := withEnc (fun e => { e with shadow := some { sh with mismatch := true } }) (encAt [] .flush)
    let one := Shadow.init 1 ⟨Dec.reset 2, 0, 0, false⟩
    let pending := fun x : Byte => withEnc
      (fun e => { e with qn := 1, qbn := 1, spos := 1, totops := 1, litops := 1, qflag := 0x80, qb := e.qb.set 0 0x05
                         shadow := some one }) (encAt [x] .flush)
    (EncRuns s .flush ∧ s.enc.shadow = some sh ∧ s.enc.qn = 0 ∧ (nextOf (encStep s)).map (fun t => t.enc.st) = some .done) ∧
    (EncRuns t .flush ∧ t.enc.shadow = some { sh with mismatch := true } ∧ t.enc.qn = 0 ∧
      (nextOf (encStep t)).map (fun t => (t.enc.st, t.enc.err)) = some (.fault, .roundTripMismatch)) ∧
    (EncRuns (pending 0x05) .flush ∧ (pending 0x05).enc.shadow = some one ∧ (pending 0x05).enc.qn ≠ 0 ∧
      (nextOf (encStep (pending 0x05))).map (fun t => (t.enc.st, t.outY)) = some (.done, [(0, 0x7F#8), (1, 0xFA#8)])) ∧
    (EncRuns (pending 0x06) .flush ∧ (pending 0x06).enc.shadow = some one ∧ (pending 0x06).enc.qn ≠ 0 ∧
      (nextOf (encStep (pending 0x06))).map (fun t => (t.enc.st, t.enc.err, t.outY)) =
        some (.fault, .roundTripMismatch, [])) := by decide

/-- 95 D1 fed to a shadow decoder, with a run of DEC on it that goes on to its end. -/
theorem witness_ShadowDecidesAsDecoder :
    (1#33).toNat < 2 ^ 32 ∧ [0x7F#8, 0xFA#8].length < 2 ^ 40 ∧
    (stateAfter (decSteps [0x7F#8, 0xFA#8] ((1#33).setWidth 32))
      (decLaunch State.reset [0x7F#8, 0xFA#8] ((1#33).setWidth 32))).map (fun t => t.dec.st) = some .done := by decide

theorem witness_EncodedSizeBound :
    let s := withEnc (fun e => { e with qn := 1, qbn := 1, spos := 1, totops := 1, litops := 1 }) (encAt [0x05#8] .flush)
    s.enc.st = .run ∧ (nextOf (encStep s)).map (fun t => (t.enc.st, t.enc.optr)) = some (RunState.done, 2#34) := by decide

theorem witness_StoppedEngineTakesNoStep :
    (State.reset.dec.st ≠ .init ∧ State.reset.dec.st ≠ .run) ∧ (State.reset.enc.st ≠ .init ∧ State.reset.enc.st ≠ .run) := by
  decide

/-- Steps that go on, and pairs of states that agree on what an engine reads and on nothing else. -/
theorem witness_EnginesShareNothing :
    let d := decAt [0x7F#8, 0xFA#8] 1 1 .lit
    let d' : State := { encE1 with dec := d.dec, inS := d.inS, outO := d.outO, draws := 9 }
    let e' : State := { d with enc := encE1.enc, inX := encE1.inX, outY := encE1.outY, draws := encE1.draws }
    (nextOf (decStep d)).isSome = true ∧ (nextOf (encStep encE1)).isSome = true ∧
    (d'.dec = d.dec ∧ d'.inS = d.inS ∧ d'.outO = d.outO ∧ d' ≠ d) ∧
    (e'.enc = encE1.enc ∧ e'.inX = encE1.inX ∧ e'.outY = encE1.outY ∧ e'.draws = encE1.draws ∧ e' ≠ encE1) := by decide

theorem witness_OnlyHostProgramsParameters :
    (nextOf (step (decAt [0x7F#8, 0xFA#8] 1 1 .lit))).isSome = true ∧ (decAt [0x7F#8, 0xFA#8] 1 1 .lit).agenda = [] := by
  decide

/-- A run that goes on, one that is done, and the four faults (`test_faults`, `test_count_first`). -/
theorem witness_WhatEndsRunOfDec :
    ((decAt [0x7F#8] 1 0 .flag).dec.st = .run ∧
      (nextOf (decStep (decAt [0x7F#8] 1 0 .flag))).map (fun t => t.dec.st) = some RunState.run) ∧
    ((decAt [] 0 0 .guard).dec.st = .run ∧
      (nextOf (decStep (decAt [] 0 0 .guard))).map (fun t => t.dec.st) = some RunState.done) ∧
    ((decAt [] 1 0 .flag).dec.st = .run ∧
      (nextOf (decStep (decAt [] 1 0 .flag))).map (fun t => t.dec.st) = some RunState.fault) := by decide

theorem witness_StepKeepsMemoryCanonical :
    MemoryCanonical (decEmitted [0x7F#8, 0xBE#8] 2 2 .guard) ∧
    (nextOf (step (decEmitted [0x7F#8, 0xBE#8] 2 2 .guard))).isSome = true := by
  refine ⟨⟨by decide, by decide, ?_, by decide, by decide⟩, by decide⟩
  intro sh h
  cases h

/-- A DEC in `RUN` with nothing emitted yet, and no host write due. -/
theorem witness_StepKeepsDecInvariant :
    (decAt [0x7F#8] 1 0 .guard).dec.ring.wf ∧ DecInvariant (decAt [0x7F#8] 1 0 .guard) ∧
    (nextOf (step (decAt [0x7F#8] 1 0 .guard))).isSome = true ∧
    ((decAt [0x7F#8] 1 0 .guard).agenda = [] ∧ DecCountsInRange (decAt [0x7F#8] 1 0 .guard)) := by
  refine ⟨by decide, ⟨fun _ => by decide, fun _ => ⟨by decide, by decide, ?_⟩⟩, by decide, rfl, fun _ => by decide⟩
  intro a
  exact (if_pos (Nat.zero_le _)).mpr rfl

/-- Nothing has been covered yet: the ring is the pre-seed. -/
theorem ringHolds_encAt : ∀ f, RingHolds (encAt [0x05#8] .guard).enc.ring 0 f := by
  intro f a
  exact (if_pos (Nat.zero_le _)).mpr rfl

/-- An ENC in `RUN` with nothing committed yet, and no host action due. -/
theorem witness_StepKeepsEncInvariant :
    (encAt [0x05#8] .guard).enc.ring.wf ∧ EncInvariant (encAt [0x05#8] .guard) ∧
    (nextOf (step (encAt [0x05#8] .guard))).isSome = true ∧
    ((encAt [0x05#8] .guard).agenda = [] ∧ EncCoversInput (encAt [0x05#8] .guard)) :=
  ⟨by decide, ⟨(fun h => by cases h), fun _ => ⟨by decide, ringHolds_encAt _⟩,
    fun _ => ⟨⟨by decide, by decide, by decide, by decide, by decide⟩, by decide, [], ringHolds_encAt _⟩⟩, by decide, rfl,
    fun _ => ⟨by decide, ringHolds_encAt _⟩⟩

theorem witness_InvariantsHoldAtStart :
    let d := withDec (fun d => { d with st := .init }) State.reset
    let e := withEnc (fun e => { e with st := .init, n := 0x100000000 }) State.reset
    (d.dec.st = .init ∧ (nextOf (decStep d)).isSome = true) ∧
    (e.enc.st = .init ∧ e.enc.n.toNat ≤ 2 ^ 32 ∧ (nextOf (encStep e)).isSome = true) := by decide

theorem witness_NoStepIsStuck :
    DecInvariant (decAt [0x7F#8] 1 0 .guard) ∧ EncInvariant (decAt [0x7F#8] 1 0 .guard) :=
  ⟨witness_StepKeepsDecInvariant.2.1, by decide, (fun h => by cases h), fun h => by cases h⟩

theorem witness_DecRunEnds :
    let s := decAt [0x7F#8, 0xFA#8] 1 0 .guard
    DecRuns s .guard ∧ s.agenda = [] ∧ s.dec.iptr = 0 ∧ s.dec.ocnt = 0 ∧ s.enc.st.stopped = true := by decide

/-- 95 D8: `LIT 00` alone; 95 D10: `P = 0` with no stream at all. -/
theorem witness_TrailingBytesIgnored :
    decFunction [0x7F#8, 0xFF#8] 1 = some (.ok [0x00#8]) ∧ decFunction [] 0 = some (.ok []) := by decide

theorem witness_DecResultDependsOnStreamAndCount :
    let s := withDec (fun d => { d with st := .fault }) (decEmitted [] 2 0 .flag)
    s.dec.st.stopped = true ∧ s.enc.st.stopped = true := by decide

/-- Distances 1 and 4095 on the pre-seed. -/
theorem witness_ValidCandidateReproducesInput :
    let s := decAt [0xFF#8, 0x2F#8, 0x01#8] 3 1 .refU
    let xs := [0x20#8, 0x20#8, 0x20#8]
    (1 ≤ 1 ∧ 1 ≤ 4095) ∧ 3 ≤ (3#5).toNat ∧ (3#5).toNat ≤ 18 ∧
    (3#5).toNat ≤ matchLength s.dec.ring s.dec.rcur 1 xs 3 ∧ (3#5).toNat ≤ matchLength s.dec.ring s.dec.rcur 4095 xs 3 ∧
    s.dec.iptr ≠ s.dec.slen ∧ s.dec.iptr + 1 ≠ s.dec.slen ∧ s.dec.ocnt.toNat + (3#5).toNat ≤ s.dec.p.toNat ∧
    s.dec.ring.wf := by decide

theorem witness_SelfCheckNeverFires : [0x00#8].length ≤ 2 ^ 32 := by decide

theorem witness_RoundTrip : [0x00#8].length < 2 ^ 32 := by decide

/-- Three pre-seed bytes to encode, at depth 1. -/
def encPreseed : State := encLaunch State.reset [0x20#8, 0x20#8, 0x20#8] { Policy.reset with depth := 1 }

/-- Before FLUSH, `REF FED, 3` is pending as `D0 FE` (95 E2). -/
theorem encPreseed_before_flush :
    ∃ s, stateAfter 7 encPreseed = some s ∧ EncRuns s .flush ∧ s.enc.shadow = none ∧ s.enc.qn = 1 ∧ s.enc.qflag = 0 ∧
      s.enc.qbn = 2 ∧ s.enc.qb = ((Config.freeQueue 3).setIfInBounds 0 0xD0#8).setIfInBounds 1 0xFE#8 ∧
      s.enc.optr = 0 ∧ s.outY = [] ∧ s.agenda = [] ∧ s.dec.st = .idle :=
  ⟨_, rfl, by decide, rfl, rfl, rfl, rfl, rfl, rfl, rfl, rfl, rfl⟩

theorem qb_take_two (q : Vector Byte 16) (a b : Byte) : ((q.setIfInBounds 0 a).setIfInBounds 1 b).toList.take 2 = [a, b] := by
  apply List.ext_getElem?
  intro i
  rcases i with _ | _ | i <;> simp

/-- FLUSH writes flag `00` and `D0 FE`, masked. -/
theorem test_encFunction_preseed :
    encFunction [0x20#8, 0x20#8, 0x20#8] { Policy.reset with depth := 1 } = some [0xFF#8, 0x2F#8, 0x01#8] := by
  obtain ⟨s, h, hr, h1, h2, h3, h4, h5, h6, h7, h8, h9⟩ := encPreseed_before_flush
  have hb : s.enc.blockWire = [0xFF#8, 0x2F#8, 0x01#8] := by
    unfold Enc.blockWire
    rw [h5, h4, h3]
    exact congrArg (fun l => (0 :: l).map mask) (qb_take_two _ _ _)
  have hs : step s = .next (flushStep s) := by
    have : s.dec.st.stopped = true := by rw [h9]; rfl
    simp [step, nextEvent, h8, this, encStep_run hr.1 hr.2.2.2 hr.2.2.1, encRunPhase, hr.2.1]
  have hf : (flushStep s).enc.st = .done ∧ (flushStep s).outY = [(0, 0xFF#8), (1, 0x2F#8), (2, 0x01#8)] ∧
      (flushStep s).enc.optr = 3 ∧
      (flushStep s).agenda = [] ∧ (flushStep s).dec = s.dec := by
    simp [flushStep, h2, selfCheckPasses, writeBlock, h1, Enc.clearQueue, hb, h6, h7, h8, Memory.writeAll, Memory.write]
  have h8' : stateAfter 8 encPreseed = some (flushStep s) := by
    rw [stateAfter_add (a := 7) (b := 1) h]
    simp only [stateAfter, runSteps, Host.Core.run]
    rw [show Sys2Proof.core.step s = .next (flushStep s) from hs]
  have h19 : stateAfter 19 encPreseed = some (flushStep s) := by
    rw [stateAfter_add (a := 8) (b := 11) h8']
    refine stateAfter_stopped _ hf.2.2.2.1 ?_ ?_
    · rw [hf.2.2.2.2, h9]; rfl
    · rw [hf.1]; rfl
  show (stateAfter 19 encPreseed).bind encOutcome = _
  rw [h19]
  simp only [Option.bind, encOutcome, hf, pixelsUpTo]
  decide

/-- The stream of three pre-seed bytes; the decoder starts to copy its REF after seven steps. -/
theorem witness_EncodedStreamIsStrict :
    [0x20#8, 0x20#8, 0x20#8].length < 2 ^ 32 ∧
    encFunction [0x20#8, 0x20#8, 0x20#8] { Policy.reset with depth := 1 } = some [0xFF#8, 0x2F#8, 0x01#8] ∧
    (stateAfter 7 (decLaunch State.reset [0xFF#8, 0x2F#8, 0x01#8] 3)).map (fun t => (t.dec.st, t.dec.ph, t.dec.ci)) =
      some (RunState.run, DecPhase.copy, 0#5) :=
  ⟨by decide, test_encFunction_preseed, by decide⟩

end Sys2Proof.Tests
end

section
/-! SUPPORT. What can move next (log entry 2), and what holds of every phase of a running DEC: it keeps the register ranges of
R59, it touches DEC and `O` alone, and it has a next state. -/

namespace Sys2Proof.Machine

/-! ## The agenda -/

theorem RunState.stopped_eq_false_iff (st : RunState) : st.stopped = false ↔ st = .init ∨ st = .run := by
  cases st <;> decide

theorem step_of_event {s : State} {event : Event} {rest : List Event} (h : s.agenda = event :: rest) :
    step s = runEvent event { s with agenda := rest } := by
  simp [step, nextEvent, h]

theorem step_of_decActive {s : State} (ha : s.agenda = []) (hd : s.dec.st.stopped = false) : step s = decStep s := by
  simp [step, nextEvent, ha, hd]

theorem step_of_decStopped {s : State} (ha : s.agenda = []) (hd : s.dec.st.stopped = true) : step s = encStep s := by
  simp [step, nextEvent, ha, hd]

/-- Settles O6: the three cases are the branches of `nextEvent`, a DEC that is not stopped being in INIT or RUN. -/
theorem agendaIsObeyed : Obligations.AgendaIsObeyed := by
  refine ⟨fun s event rest h => step_of_event h, fun s ha hd => ?_, fun s ha hi hr => ?_⟩
  · exact step_of_decActive ha ((RunState.stopped_eq_false_iff _).mpr hd)
  · refine step_of_decStopped ha (Bool.eq_true_of_not_eq_false fun h => ?_)
    exact ((RunState.stopped_eq_false_iff _).mp h).elim hi hr

/-! ## Counters and operands that stay in their width -/

/-- A counter below a bound of its own width counts up without wrapping (R143 (g)). -/
theorem toNat_succ_of_lt {w : Nat} {x y : BitVec w} (h : x.toNat < y.toNat) : (x + 1#w).toNat = x.toNat + 1 := by
  have hy := y.isLt
  have hone : 1 % 2 ^ w = 1 := Nat.mod_eq_of_lt (by omega)
  simp only [BitVec.toNat_add, BitVec.toNat_ofNat, hone]
  exact Nat.mod_eq_of_lt (by omega)

theorem toNat_succ_le_of_lt {w : Nat} {x y : BitVec w} (h : x.toNat < y.toNat) : (x + 1#w).toNat ≤ y.toNat :=
  (toNat_succ_of_lt h).trans_le h

/-- R94 with no bit lost: `length = (U mod 16) + 3`. -/
theorem refLength_toNat (u : Byte) : (refLength u).toNat = u.toNat % 16 + 3 := by
  have hand : u.toNat &&& 15 = u.toNat % 16 := Nat.and_two_pow_sub_one_eq_mod u.toNat 4
  simp only [refLength, BitVec.toNat_add, BitVec.toNat_setWidth, BitVec.toNat_and, BitVec.toNat_ofNat,
    Nat.reduceMod, Nat.reducePow, hand]
  omega

/-! ## A phase of a running DEC keeps the register ranges (R59) -/

/-- The three branches of GUARD (R122). -/
theorem Dec.guardStep_cases (d : Dec) :
    (d.ocnt = d.p ∧ d.guardStep = { d with st := .done }) ∨
    (d.ocnt ≠ d.p ∧ d.fcnt = 0 ∧ d.guardStep = { d with ph := .flag }) ∨
    (d.ocnt ≠ d.p ∧ d.fcnt ≠ 0 ∧ d.guardStep = { d with ph := .bit }) := by
  unfold Dec.guardStep
  by_cases ho : d.ocnt = d.p
  · simp [ho]
  · by_cases hf : d.fcnt = 0
    · exact .inr (.inl ⟨ho, hf, by rw [if_neg ho, if_pos hf]⟩)
    · exact .inr (.inr ⟨ho, hf, by rw [if_neg ho, if_neg hf]⟩)

/-- Short of `P`, and not above it, is below it. -/
theorem Dec.ocnt_lt_of_ne {d : Dec} (h : d.inRange = true) (ho : d.ocnt ≠ d.p) : d.ocnt.toNat < d.p.toNat := by
  obtain ⟨-, hle, -⟩ := Dec.inRange_bounds h
  exact Nat.lt_of_le_of_ne hle (BitVec.toNat_ne.mp ho)

theorem Dec.guardStep_inRange {d : Dec} (hp : d.ph = .guard) (h : d.inRange = true) : d.guardStep.inRange = true := by
  obtain ⟨hf, ho, hi⟩ := Dec.inRange_bounds h
  rcases d.guardStep_cases with ⟨-, heq⟩ | ⟨hne, -, heq⟩ | ⟨hne, hfc, heq⟩ <;> rw [heq]
  · exact (Dec.inRange_guard hp).mpr ⟨hf, ho, hi⟩
  · exact (Dec.inRange_fetch (.inl rfl)).mpr ⟨hf, Dec.ocnt_lt_of_ne (d := d) h hne, hi⟩
  · exact (Dec.inRange_bit rfl).mpr
      ⟨Nat.pos_of_ne_zero (BitVec.toNat_ne.mp hfc), hf, Dec.ocnt_lt_of_ne (d := d) h hne, hi⟩

theorem Dec.loadFlag_inRange {d : Dec} (hp : d.ph = .flag) (h : d.inRange = true) (hlt : d.iptr.toNat < d.slen.toNat)
    (kinds : Byte) : (d.loadFlag kinds).inRange = true := by
  obtain ⟨-, ho, -⟩ := (Dec.inRange_fetch (.inl hp)).mp h
  exact (Dec.inRange_bit rfl).mpr ⟨Nat.le_add_left 1 7, Nat.le_refl 8, ho, toNat_succ_le_of_lt hlt⟩

theorem Dec.bitStep_inRange {d : Dec} (hp : d.ph = .bit) (h : d.inRange = true) : d.bitStep.inRange = true := by
  obtain ⟨hf1, hf8, ho, hi⟩ := (Dec.inRange_bit hp).mp h
  refine (Dec.inRange_fetch ?_).mpr ⟨?_, ho, hi⟩
  · cases hk : d.kindBit <;> simp [hk]
  · simp only [Dec.bitStep_fcnt]; bv_omega

theorem literal_inRange {s : State} (hp : s.dec.ph = .lit) (h : s.dec.inRange = true)
    (hlt : s.dec.iptr.toNat < s.dec.slen.toNat) (v : Byte) : (literal v s).dec.inRange = true := by
  obtain ⟨hf, ho, -⟩ := (Dec.inRange_fetch (.inr (.inl hp))).mp h
  exact (Dec.inRange_guard rfl).mpr ⟨hf, toNat_succ_le_of_lt ho, toNat_succ_le_of_lt hlt⟩

theorem Dec.latchU_inRange {d : Dec} (hp : d.ph = .refU) (h : d.inRange = true) (hlt : d.iptr.toNat < d.slen.toNat)
    (u : Byte) : (d.latchU u).inRange = true := by
  obtain ⟨hf, ho, -⟩ := (Dec.inRange_fetch (.inr (.inr (.inl hp)))).mp h
  exact (Dec.inRange_fetch (.inr (.inr (.inr rfl)))).mpr ⟨hf, ho, toNat_succ_le_of_lt hlt⟩

theorem Dec.latchL_inRange {d : Dec} (hp : d.ph = .refL) (h : d.inRange = true) (hlt : d.iptr.toNat < d.slen.toNat)
    (l : Byte) : (d.latchL l).inRange = true := by
  obtain ⟨hf, ho, -⟩ := (Dec.inRange_fetch (.inr (.inr (.inr hp)))).mp h
  have hlen := refLength_toNat d.u
  refine (Dec.inRange_copy rfl).mpr ⟨hf, Nat.le_of_lt ho, toNat_succ_le_of_lt hlt, ?_, ?_, ?_⟩
  · simp only [Dec.latchL_len]; omega
  · simp only [Dec.latchL_len]; omega
  · simp

theorem Dec.copyExit_inRange {d : Dec} (h : d.inRange = true) : ({ d with ph := .guard } : Dec).inRange = true :=
  (Dec.inRange_guard rfl).mpr (Dec.inRange_bounds (d := d) h)

/-- A copy that is not over has a byte to copy and room for it (R128). -/
theorem Dec.copyDone_false {d : Dec} (hp : d.ph = .copy) (h : d.inRange = true) (hd : d.copyDone = false) :
    d.ci.toNat < d.len.toNat ∧ d.ocnt.toNat < d.p.toNat := by
  obtain ⟨-, -, -, -, -, hci⟩ := (Dec.inRange_copy hp).mp h
  obtain ⟨hci', ho⟩ : d.ci ≠ d.len ∧ d.ocnt ≠ d.p := by simpa [Dec.copyDone] using hd
  exact ⟨Nat.lt_of_le_of_ne hci (BitVec.toNat_ne.mp hci'), Dec.ocnt_lt_of_ne h ho⟩

theorem copyByte_inRange {s : State} (hp : s.dec.ph = .copy) (h : s.dec.inRange = true) (hd : s.dec.copyDone = false) :
    (copyByte s).dec.inRange = true := by
  obtain ⟨hf, -, hi, hl3, hl18, -⟩ := (Dec.inRange_copy hp).mp h
  obtain ⟨hci, ho⟩ := Dec.copyDone_false hp h hd
  exact (Dec.inRange_copy (d := (copyByte s).dec) hp).mpr
    ⟨hf, toNat_succ_le_of_lt ho, hi, hl3, hl18, toNat_succ_le_of_lt hci⟩

/-- The register ranges of R59 are an invariant of the phases of DEC. -/
theorem decRunPhase_inRange {s t : State} (hs : s.dec.slen.toNat ≤ s.inS.length) (hr : s.dec.inRange = true)
    (h : decRunPhase s = .next t) : t.dec.st = .fault ∨ t.dec.inRange = true := by
  rcases decRunPhase_next hs hr h with ⟨hp, rfl⟩ | ⟨-, -, rfl⟩ | ⟨hp, hlt, raw, -, rfl⟩ | ⟨hp, rfl⟩ | ⟨-, -, rfl⟩ |
    ⟨hp, hlt, raw, -, rfl⟩ | ⟨-, -, rfl⟩ | ⟨hp, hlt, raw, -, rfl⟩ | ⟨-, -, rfl⟩ | ⟨hp, hlt, raw, -, rfl⟩ | ⟨-, -, rfl⟩ |
    ⟨hp, hd, rfl⟩
  · exact .inr (Dec.guardStep_inRange hp hr)
  · exact .inl rfl
  · exact .inr (Dec.loadFlag_inRange hp hr hlt _)
  · exact .inr (Dec.bitStep_inRange hp hr)
  · exact .inl rfl
  · exact .inr (literal_inRange hp hr hlt _)
  · exact .inl rfl
  · exact .inr (Dec.latchU_inRange hp hr hlt _)
  · exact .inl rfl
  · exact .inr (Dec.latchL_inRange hp hr hlt _)
  · exact .inr (Dec.copyExit_inRange hr)
  · exact .inr (copyByte_inRange hp hr hd)

/-! ## What a phase of DEC leaves unchanged -/

@[simp] theorem Dec.guardStep_p (d : Dec) : d.guardStep.p = d.p := by
  rcases d.guardStep_cases with ⟨-, heq⟩ | ⟨-, -, heq⟩ | ⟨-, -, heq⟩ <;> rw [heq]

@[simp] theorem Dec.guardStep_slen (d : Dec) : d.guardStep.slen = d.slen := by
  rcases d.guardStep_cases with ⟨-, heq⟩ | ⟨-, -, heq⟩ | ⟨-, -, heq⟩ <;> rw [heq]

/-- A phase of DEC touches DEC and `O` alone, and neither `P` nor `SLEN` (R22, R23). -/
theorem decRunPhase_frame {s t : State} (hs : s.dec.slen.toNat ≤ s.inS.length) (hr : s.dec.inRange = true)
    (h : decRunPhase s = .next t) :
    t = { s with dec := t.dec, outO := t.outO } ∧ t.dec.p = s.dec.p ∧ t.dec.slen = s.dec.slen := by
  rcases decRunPhase_next hs hr h with ⟨-, rfl⟩ | ⟨-, -, rfl⟩ | ⟨-, -, raw, -, rfl⟩ | ⟨-, rfl⟩ | ⟨-, -, rfl⟩ |
    ⟨-, -, raw, -, rfl⟩ | ⟨-, -, rfl⟩ | ⟨-, -, raw, -, rfl⟩ | ⟨-, -, rfl⟩ | ⟨-, -, raw, -, rfl⟩ | ⟨-, -, rfl⟩ |
    ⟨-, -, rfl⟩ <;> exact ⟨rfl, by simp⟩

/-! ## Every phase has a next state -/

/-- FLAG and LIT have a next state whether or not their byte is there (R202, R203), and so has every other phase. -/
theorem decRunPhase_goesOn (s : State) : ∃ t, decRunPhase s = .next t := by
  unfold decRunPhase
  cases s.dec.ph with
  | flag =>
    cases s.streamRest with
    | nil => exact ⟨_, rfl⟩
    | cons raw rest =>
      simp only [decode, decodeStream, exec, execFlag]
      split <;> exact ⟨_, rfl⟩
  | lit =>
    cases s.streamRest with
    | nil => exact ⟨_, rfl⟩
    | cons raw rest =>
      simp only [decode, decodeStream, exec, execLit]
      split <;> exact ⟨_, rfl⟩
  | refU => cases s.streamRest <;> exact ⟨_, rfl⟩
  | refL => cases s.streamRest <;> exact ⟨_, rfl⟩
  | guard => exact ⟨_, rfl⟩
  | bit => exact ⟨_, rfl⟩
  | copy => exact ⟨_, rfl⟩

end Sys2Proof.Machine
end

section
/-! SUPPORT. How a run of DEC ends: what enters DONE and FAULT (R12, R202, R203), and the measure of R141. -/

namespace Sys2Proof.Machine

/-- What a phase step makes of the run state: DONE from GUARD at `OCNT = P` (R122), FAULT where a stream byte is missing
(R202, R203), and RUN otherwise. -/
theorem decRunPhase_st {s t : State} (hst : s.dec.st = .run) (hs : s.dec.slen.toNat ≤ s.inS.length)
    (hr : s.dec.inRange = true) (h : decRunPhase s = .next t) :
    t.dec.st = .run ∨
    (t.dec.st = .done ∧ s.dec.ph = .guard ∧ s.dec.ocnt = s.dec.p) ∨
    (s.dec.iptr = s.dec.slen ∧
      (s.dec.ph = .flag ∧ t = raiseFault .dec .unexpectedEnd .atFlag s ∨
       s.dec.ph = .lit ∧ t = raiseFault .dec .corrupt .atLit s ∨
       s.dec.ph = .refU ∧ t = raiseFault .dec .corrupt .atRefU s ∨
       s.dec.ph = .refL ∧ t = raiseFault .dec .corrupt .atRefL s)) := by
  rcases decRunPhase_next hs hr h with ⟨hp, rfl⟩ | ⟨hp, he, ht⟩ | ⟨-, -, raw, -, rfl⟩ | ⟨-, rfl⟩ | ⟨hp, he, ht⟩ |
    ⟨-, -, raw, -, rfl⟩ | ⟨hp, he, ht⟩ | ⟨-, -, raw, -, rfl⟩ | ⟨hp, he, ht⟩ | ⟨-, -, raw, -, rfl⟩ | ⟨-, -, rfl⟩ |
    ⟨-, -, rfl⟩
  · rcases s.dec.guardStep_cases with ⟨ho, heq⟩ | ⟨-, -, heq⟩ | ⟨-, -, heq⟩ <;> simp only [heq]
    · exact .inr (.inl ⟨trivial, hp, ho⟩)
    · exact .inl hst
    · exact .inl hst
  · exact .inr (.inr ⟨he, .inl ⟨hp, ht⟩⟩)
  · exact .inl hst
  · exact .inl hst
  · exact .inr (.inr ⟨he, .inr (.inl ⟨hp, ht⟩)⟩)
  · exact .inl hst
  · exact .inr (.inr ⟨he, .inr (.inr (.inl ⟨hp, ht⟩))⟩)
  · exact .inl hst
  · exact .inr (.inr ⟨he, .inr (.inr (.inr ⟨hp, ht⟩))⟩)
  · exact .inl hst
  · exact .inl hst
  · exact .inl hst

/-- Settles O48, from what a phase step makes of the run state. -/
theorem whatEndsRunOfDec : Obligations.WhatEndsRunOfDec := by
  intro s t hst h
  obtain ⟨hstop, -⟩ | ⟨hinit, -⟩ | ⟨-, hs, hr, hphase⟩ := decStep_next h
  · simp [hst, RunState.stopped] at hstop
  · simp [hst] at hinit
  rcases decRunPhase_st hst hs hr hphase with hrun | ⟨hdone, hp, ho⟩ | ⟨he, hf⟩
  · simp [hrun]
  · simp [hdone, hp, ho]
  · rcases hf with ⟨hp, rfl⟩ | ⟨hp, rfl⟩ | ⟨hp, rfl⟩ | ⟨hp, rfl⟩ <;> simp [hp, he]

/-! ## The measure of R141 -/

/-- The steps a run can take from a phase up to and with the next one that reads or emits a byte, or stops: the longest such
chain is COPY exit, GUARD, BIT and a fetch (R141). -/
def DecPhase.stepsToByte : DecPhase → Nat
  | .guard => 3
  | .flag => 2
  | .bit => 2
  | .lit => 1
  | .refU => 1
  | .refL => 1
  | .copy => 4

/-- R141: four steps for each byte still to be read or to be emitted, and the steps its phase has up to the next. -/
def Dec.stepsLeft (d : Dec) : Nat :=
  4 * ((d.slen.toNat - d.iptr.toNat) + (d.p.toNat - d.ocnt.toNat)) + d.ph.stepsToByte

theorem Dec.stepsLeft_pos (d : Dec) : 0 < d.stepsLeft := by
  have hpos : 0 < d.ph.stepsToByte := by cases d.ph <;> decide
  unfold Dec.stepsLeft
  omega

/-- A byte fetched, and nothing emitted, pays for up to four steps of the next phase. -/
theorem Dec.stepsLeft_lt_of_fetch {d d' : Dec} (hlt : d.iptr.toNat < d.slen.toNat) (hi : d'.iptr = d.iptr + 1)
    (hs : d'.slen = d.slen) (ho : d'.ocnt = d.ocnt) (hp : d'.p = d.p)
    (hph : d'.ph.stepsToByte < d.ph.stepsToByte + 4) : d'.stepsLeft < d.stepsLeft := by
  have hsucc : d'.iptr.toNat = d.iptr.toNat + 1 := by rw [hi]; exact toNat_succ_of_lt hlt
  simp only [Dec.stepsLeft, hsucc, hs, ho, hp]
  omega

/-- Every phase step of DEC that goes on uses up a step. -/
theorem decRunPhase_stepsLeft {s t : State} (hs : s.dec.slen.toNat ≤ s.inS.length) (hr : s.dec.inRange = true)
    (h : decRunPhase s = .next t) (ht : t.dec.st = .run) : t.dec.stepsLeft < s.dec.stepsLeft := by
  rcases decRunPhase_next hs hr h with ⟨hp, rfl⟩ | ⟨-, -, rfl⟩ | ⟨hp, hlt, raw, -, rfl⟩ | ⟨hp, rfl⟩ | ⟨-, -, rfl⟩ |
    ⟨hp, hlt, raw, -, rfl⟩ | ⟨-, -, rfl⟩ | ⟨hp, hlt, raw, -, rfl⟩ | ⟨-, -, rfl⟩ | ⟨hp, hlt, raw, -, rfl⟩ | ⟨hp, -, rfl⟩ |
    ⟨hp, hd, rfl⟩
  · rcases s.dec.guardStep_cases with ⟨-, heq⟩ | ⟨-, -, heq⟩ | ⟨-, -, heq⟩
    · simp [heq] at ht
    · simp [heq, Dec.stepsLeft, hp, DecPhase.stepsToByte]
    · simp [heq, Dec.stepsLeft, hp, DecPhase.stepsToByte]
  · cases ht
  · exact Dec.stepsLeft_lt_of_fetch hlt rfl rfl rfl rfl (by simp [hp, DecPhase.stepsToByte])
  · cases hk : s.dec.kindBit <;> simp [Dec.stepsLeft, hp, hk, DecPhase.stepsToByte]
  · cases ht
  · obtain ⟨-, ho, -⟩ := (Dec.inRange_fetch (.inr (.inl hp))).mp hr
    simp [toNat_succ_of_lt ho, Dec.stepsLeft, hp, DecPhase.stepsToByte, toNat_succ_of_lt hlt, -BitVec.toNat_add]
    omega
  · cases ht
  · exact Dec.stepsLeft_lt_of_fetch hlt rfl rfl rfl rfl (by simp [hp, DecPhase.stepsToByte])
  · cases ht
  · exact Dec.stepsLeft_lt_of_fetch hlt rfl rfl rfl rfl (by simp [hp, DecPhase.stepsToByte])
  · simp [Dec.stepsLeft, hp, DecPhase.stepsToByte]
  · obtain ⟨-, ho⟩ := Dec.copyDone_false hp hr hd
    simp [Dec.stepsLeft, hp, DecPhase.stepsToByte, toNat_succ_of_lt ho, -BitVec.toNat_add]
    omega

/-- A running DEC with no event due takes a step, and either stops or runs on with fewer steps left. -/
theorem step_of_decRuns {s : State} (hrun : DecRuns s s.dec.ph) (ha : s.agenda = []) :
    ∃ t, step s = .next t ∧
      (t.dec.st = .done ∨ t.dec.st = .fault ∨
        (DecRuns t t.dec.ph ∧ t.agenda = [] ∧ t.dec.stepsLeft < s.dec.stepsLeft)) := by
  obtain ⟨hst, -, hr, hs⟩ := hrun
  obtain ⟨t, ht⟩ := decRunPhase_goesOn s
  refine ⟨t, ?_, ?_⟩
  · rw [step_of_decActive ha (by rw [hst]; rfl), decStep_run hst hs hr, ht]
  · rcases decRunPhase_st hst hs hr ht with hgo | ⟨hdone, -⟩ | ⟨-, hf⟩
    · obtain ⟨hframe, -, hslen⟩ := decRunPhase_frame hs hr ht
      have hrange := (decRunPhase_inRange hs hr ht).resolve_left (by simp [hgo])
      have hslice : t.dec.slen.toNat ≤ t.inS.length := by
        rw [hslen, hframe]; exact hs
      have hagenda : t.agenda = [] := by rw [hframe]; exact ha
      exact .inr (.inr ⟨⟨hgo, rfl, hrange, hslice⟩, hagenda, decRunPhase_stepsLeft hs hr ht hgo⟩)
    · exact .inl hdone
    · rcases hf with ⟨-, rfl⟩ | ⟨-, rfl⟩ | ⟨-, rfl⟩ | ⟨-, rfl⟩ <;> exact .inr (.inl rfl)

theorem run_succ_of_step {s t : State} (h : step s = .next t) (k : Nat) :
    Host.Core.run Sys2Proof.core (k + 1) s = Host.Core.run Sys2Proof.core k t := by
  simp only [Host.Core.run]
  rw [show Sys2Proof.core.step s = .next t from h]

/-- R141: a running DEC left to itself stops within the steps it has left, from any phase. -/
theorem decRuns_ends {s : State} (hrun : DecRuns s s.dec.ph) (ha : s.agenda = []) :
    ∃ k t, k ≤ s.dec.stepsLeft ∧ Host.Core.run Sys2Proof.core k s = .next t ∧ (t.dec.st = .done ∨ t.dec.st = .fault) := by
  induction hn : s.dec.stepsLeft using Nat.strong_induction_on generalizing s with
  | _ n ih =>
    subst hn
    obtain ⟨t, hstep, hend⟩ := step_of_decRuns hrun ha
    have hone : Host.Core.run Sys2Proof.core 1 s = .next t := run_succ_of_step hstep 0
    rcases hend with hdone | hfault | ⟨hrun', ha', hlt⟩
    · exact ⟨1, t, s.dec.stepsLeft_pos, hone, .inl hdone⟩
    · exact ⟨1, t, s.dec.stepsLeft_pos, hone, .inr hfault⟩
    · obtain ⟨k, u, hk, hu, hstop⟩ := ih _ hlt hrun' ha' rfl
      exact ⟨k + 1, u, by omega, (run_succ_of_step hstep k).trans hu, hstop⟩

/-- Settles O54: at the start of a run the measure is `4 * (SLEN + P) + 3`. -/
theorem decRunEnds : Obligations.DecRunEnds := by
  intro s hrun ha hi ho _
  have hp := hrun.2.1
  obtain ⟨k, t, hk, hrest⟩ := decRuns_ends (hp ▸ hrun) ha
  refine ⟨k, t, ?_, hrest⟩
  simp only [Dec.stepsLeft, hp, hi, ho, DecPhase.stepsToByte] at hk
  omega

end Sys2Proof.Machine
end

section
/-! SUPPORT. What a host register access can do (R52, R53, R108, R219): the command of a CTRL write, the registers a write can
program, and what no write can change. -/

namespace Sys2Proof.Machine

/-! ## CTRL writes (R108) -/

theorem decode_ctrl_noCommand {v : Word} (engine : Engine) (hstart : v.getLsbD 0 = false) (habort : v.getLsbD 1 = false) :
    decode (.ctrl engine v) = .error .noCommand := by
  simp only [decode, decodeCtrl, hstart, habort, Bool.false_eq_true, if_false]

theorem decode_ctrl_start {v : Word} (engine : Engine) (hstart : v.getLsbD 0 = true) (habort : v.getLsbD 1 = false) :
    decode (.ctrl engine v) = .ok (.start engine (v.extractLsb' 3 29) (v.getLsbD 2)) := by
  simp only [decode, decodeCtrl, hstart, habort, Bool.false_eq_true, if_false, if_true]

theorem decode_ctrl_abort {v : Word} (engine : Engine) (habort : v.getLsbD 1 = true) :
    decode (.ctrl engine v) = .ok (.abort engine (v.extractLsb' 3 29) (v.getLsbD 2) (v.getLsbD 0)) := by
  simp only [decode, decodeCtrl, habort, if_true]

theorem writeCtrl_of_command {engine : Engine} {v : Word} {i : Instr} (h : decode (.ctrl engine v) = .ok i) (s : State) :
    writeCtrl engine v s = exec i s := by
  simp [writeCtrl, h]

theorem writeCtrl_of_noCommand {v : Word} (engine : Engine) (hstart : v.getLsbD 0 = false) (habort : v.getLsbD 1 = false)
    (s : State) : writeCtrl engine v s = .next (setIe engine (v.getLsbD 2) s) := by
  simp [writeCtrl, decode_ctrl_noCommand engine hstart habort]

theorem step_of_ctrlWrite {s : State} {engine : Engine} {v : Word} {rest : List Event}
    (h : s.agenda = .host (.write engine 0 v) :: rest) : step s = writeCtrl engine v { s with agenda := rest } :=
  step_of_event h

/-- Settles O8: the event at the head of the agenda is the CTRL write, and the decoder of the word decides. -/
theorem stepRunsCtrlCommand : Obligations.StepRunsCtrlCommand := by
  refine ⟨fun s rest engine value i ha hi => ?_, fun s rest value ha h0 h1 => ?_, fun s rest value ha h0 h1 => ?_⟩
  · rw [step_of_ctrlWrite ha, writeCtrl_of_command hi]
  · rw [step_of_ctrlWrite ha, writeCtrl_of_noCommand .dec h0 h1]; rfl
  · rw [step_of_ctrlWrite ha, writeCtrl_of_noCommand .enc h0 h1]; rfl

/-- Settles O25: `abortEngine` after `setIe` is the answer of ABORT in every state, and it names every field it draws. -/
theorem abortGoesToIdle : Obligations.AbortGoesToIdle := by
  refine ⟨fun s unused ie startBit => ?_, fun s unused ie startBit => ?_⟩
  · exact ⟨abortEngine .dec (setIe .dec ie s), rfl, rfl, rfl, rfl, rfl, rfl, rfl, rfl⟩
  · exact ⟨abortEngine .enc (setIe .enc ie s), rfl, rfl, rfl, rfl, rfl, rfl, rfl, rfl, rfl, rfl, rfl, rfl, rfl, rfl⟩

/-- What START can do: a write of IE alone where it is ignored, or an accepted launch (R219). -/
theorem execStart_next {engine : Engine} {unused : BitVec 29} {ie : Bool} {s t : State}
    (h : execStart engine unused ie s = .next t) :
    t = setIe engine ie s ∨
    (engine = .dec ∧ s.dec.st.stopped = true ∧ s.dec.slen.toNat ≤ s.inS.length ∧
      t = { s with dec := { s.dec with ie := ie, st := .init } }) ∨
    (engine = .enc ∧ s.enc.st.stopped = true ∧ s.enc.n.toNat ≤ 2 ^ 32 ∧ s.enc.n.toNat ≤ s.inX.length ∧
      t = { s with enc := { s.enc with ie := ie, st := .init } }) := by
  cases engine with
  | dec =>
    simp only [execStart, startDec] at h
    split at h
    · rename_i hst
      split at h
      · cases h
      · rename_i hs
        exact .inr (.inl ⟨rfl, hst, Nat.not_lt.mp hs, (Host.Outcome.next.inj h).symm⟩)
    · exact .inl (Host.Outcome.next.inj h).symm
  | enc =>
    simp only [execStart, startEnc] at h
    split at h
    · rename_i hst
      split at h
      · cases h
      · rename_i hn
        split at h
        · cases h
        · rename_i hx
          exact .inr (.inr ⟨rfl, hst, Nat.not_lt.mp hn, Nat.not_lt.mp hx, (Host.Outcome.next.inj h).symm⟩)
    · exact .inl (Host.Outcome.next.inj h).symm

/-- What a CTRL write can do: ABORT, a write of IE alone (an ignored START among them), or an accepted START (R219). -/
theorem writeCtrl_next {engine : Engine} {v : Word} {s t : State} (h : writeCtrl engine v s = .next t) :
    t = abortEngine engine (setIe engine (v.getLsbD 2) s) ∨
    t = setIe engine (v.getLsbD 2) s ∨
    (engine = .dec ∧ s.dec.st.stopped = true ∧ s.dec.slen.toNat ≤ s.inS.length ∧
      t = { s with dec := { s.dec with ie := v.getLsbD 2, st := .init } }) ∨
    (engine = .enc ∧ s.enc.st.stopped = true ∧ s.enc.n.toNat ≤ 2 ^ 32 ∧ s.enc.n.toNat ≤ s.inX.length ∧
      t = { s with enc := { s.enc with ie := v.getLsbD 2, st := .init } }) := by
  cases habort : v.getLsbD 1 with
  | true =>
    rw [writeCtrl_of_command (decode_ctrl_abort engine habort)] at h
    exact .inl (Host.Outcome.next.inj h).symm
  | false =>
    cases hstart : v.getLsbD 0 with
    | false =>
      rw [writeCtrl_of_noCommand engine hstart habort] at h
      exact .inr (.inl (Host.Outcome.next.inj h).symm)
    | true =>
      rw [writeCtrl_of_command (decode_ctrl_start engine hstart habort)] at h
      exact .inr (execStart_next (unused := v.extractLsb' 3 29) h)

/-! ## The programmable registers (R22, R23, R34, R44 to R50) -/

/-- The index of a table register from its offset (R53). -/
theorem tableIndex_of_lt {base count j : Nat} (h : j < count) : tableIndex base count (base + 4 * j) = some ⟨j, h⟩ := by
  have hj : (base + 4 * j - base) / 4 = j := by omega
  unfold tableIndex
  rw [dif_pos ⟨by omega, by omega, by omega⟩]
  simp only [hj]

theorem tableIndex_of_ge {base count offset : Nat} (h : base + 4 * count ≤ offset) : tableIndex base count offset = none := by
  unfold tableIndex
  rw [dif_neg]
  omega

theorem Enc.writeReg_lw (e : Enc) (v : Word) (j : Fin 16) :
    e.writeReg (0x80 + 4 * j.val) v = some { e with lw := e.lw.set j.val (v.extractLsb' 0 16) } := by
  unfold Enc.writeReg
  split
  case h_7 => simp only [tableIndex_of_lt j.isLt]
  all_goals omega

theorem Enc.writeReg_dw (e : Enc) (v : Word) (b : Fin 12) :
    e.writeReg (0xC0 + 4 * b.val) v = some { e with dw := e.dw.set b.val (v.extractLsb' 0 16) } := by
  unfold Enc.writeReg
  split
  case h_7 =>
    have hlw : tableIndex 0x80 16 (0xC0 + 4 * b.val) = none := tableIndex_of_ge (by omega)
    simp only [hlw, tableIndex_of_lt b.isLt]
  all_goals omega

/-- A DEC write programs `P` or `SLEN` and nothing else. -/
theorem Dec.writeReg_some {d d' : Dec} {offset : Nat} {v : Word} (h : d.writeReg offset v = some d') :
    offset ∈ [0x08, 0x0C, 0x10] ∧ d' = { d with p := d'.p, slen := d'.slen } := by
  unfold Dec.writeReg at h
  split at h <;> cases h <;> exact ⟨by decide, rfl⟩

/-- An ENC write programs `N` or the configuration and nothing else. -/
theorem Enc.writeReg_some {e e' : Enc} {offset : Nat} {v : Word} (h : e.writeReg offset v = some e') :
    (offset ∈ [0x08, 0x0C] ∧ e' = { e with n := e'.n }) ∨
    e' = { e with tlr := e'.tlr, minlen := e'.minlen, maxlen := e'.maxlen, depth := e'.depth, lw := e'.lw, dw := e'.dw
                  lazy := e'.lazy } := by
  unfold Enc.writeReg at h
  split at h
  case h_1 => cases h; exact .inl ⟨by decide, rfl⟩
  case h_2 => cases h; exact .inl ⟨by decide, rfl⟩
  case h_7 => split at h <;> cases h <;> exact .inr rfl
  all_goals cases h; exact .inr rfl

theorem writeProgrammable_dec {s : State} {offset : BitVec 16} {v : Word} {d : Dec}
    (h : s.dec.writeReg offset.toNat v = some d) :
    writeProgrammable .dec offset v s = if s.dec.st.stopped then .next { s with dec := d } else .next s := by
  simp only [writeProgrammable, h]

theorem writeProgrammable_enc {s : State} {offset : BitVec 16} {v : Word} {e : Enc}
    (h : s.enc.writeReg offset.toNat v = some e) :
    writeProgrammable .enc offset v s = if s.enc.st.stopped then .next { s with enc := e } else .next s := by
  simp only [writeProgrammable, h]

theorem writeProgrammable_dec_none {s : State} {offset : BitVec 16} {v : Word} (h : s.dec.writeReg offset.toNat v = none) :
    writeProgrammable .dec offset v s =
      if (s.dec.readReg 0 offset.toNat).isSome then .next s else .refused .noSuchRegister := by
  simp only [writeProgrammable, h]
  cases s.dec.readReg 0 offset.toNat <;> rfl

theorem writeProgrammable_enc_none {s : State} {offset : BitVec 16} {v : Word} (h : s.enc.writeReg offset.toNat v = none) :
    writeProgrammable .enc offset v s =
      if (s.enc.readReg 0 offset.toNat).isSome then .next s else .refused .noSuchRegister := by
  simp only [writeProgrammable, h]
  cases s.enc.readReg 0 offset.toNat <;> rfl

/-- What a write beside CTRL can do: nothing, or, to a stopped engine, program a register of it (R219). -/
theorem writeProgrammable_next {engine : Engine} {offset : BitVec 16} {v : Word} {s t : State}
    (h : writeProgrammable engine offset v s = .next t) :
    t = s ∨
    (engine = .dec ∧ s.dec.st.stopped = true ∧ ∃ d, s.dec.writeReg offset.toNat v = some d ∧ t = { s with dec := d }) ∨
    (engine = .enc ∧ s.enc.st.stopped = true ∧ ∃ e, s.enc.writeReg offset.toNat v = some e ∧ t = { s with enc := e }) := by
  cases engine with
  | dec =>
    cases hw : s.dec.writeReg offset.toNat v with
    | some d =>
      rw [writeProgrammable_dec hw] at h
      split at h
      · rename_i hst
        exact .inr (.inl ⟨rfl, hst, d, rfl, (Host.Outcome.next.inj h).symm⟩)
      · exact .inl (Host.Outcome.next.inj h).symm
    | none =>
      rw [writeProgrammable_dec_none hw] at h
      split at h <;> cases h
      exact .inl rfl
  | enc =>
    cases hw : s.enc.writeReg offset.toNat v with
    | some e =>
      rw [writeProgrammable_enc hw] at h
      split at h
      · rename_i hst
        exact .inr (.inr ⟨rfl, hst, e, rfl, (Host.Outcome.next.inj h).symm⟩)
      · exact .inl (Host.Outcome.next.inj h).symm
    | none =>
      rw [writeProgrammable_enc_none hw] at h
      split at h <;> cases h
      exact .inl rfl

/-- A write of an offset other than 0 programs a register. -/
theorem step_of_write {s : State} {engine : Engine} {offset : BitVec 16} {v : Word} {rest : List Event}
    (h : s.agenda = .host (.write engine offset v) :: rest) (ho : offset ≠ 0) :
    step s = writeProgrammable engine offset v { s with agenda := rest } := by
  rw [step_of_event h]
  simp only [runEvent, hostStep, writeRegister, if_neg ho]

/-- R209, R219: a DEC in INIT or RUN ignores a write of a programmable register. -/
theorem step_of_write_dec_active {s : State} {offset : BitVec 16} {v : Word} {rest : List Event} {d : Dec}
    (h : s.agenda = .host (.write .dec offset v) :: rest) (ho : offset ≠ 0) (hst : s.dec.st = .init ∨ s.dec.st = .run)
    (hw : s.dec.writeReg offset.toNat v = some d) : step s = .next { s with agenda := rest } := by
  have hs : s.dec.st.stopped = false := (RunState.stopped_eq_false_iff _).mpr hst
  rw [step_of_write h ho, writeProgrammable_dec (s := { s with agenda := rest }) hw]
  simp only [hs, Bool.false_eq_true, if_false]

/-- The same for an ENC in INIT or RUN. -/
theorem step_of_write_enc_active {s : State} {offset : BitVec 16} {v : Word} {rest : List Event} {e : Enc}
    (h : s.agenda = .host (.write .enc offset v) :: rest) (ho : offset ≠ 0) (hst : s.enc.st = .init ∨ s.enc.st = .run)
    (hw : s.enc.writeReg offset.toNat v = some e) : step s = .next { s with agenda := rest } := by
  have hs : s.enc.st.stopped = false := (RunState.stopped_eq_false_iff _).mpr hst
  rw [step_of_write h ho, writeProgrammable_enc (s := { s with agenda := rest }) hw]
  simp only [hs, Bool.false_eq_true, if_false]

/-- The offset of a weight register fits the 16 bits of an offset (R53). -/
theorem toNat_tableOffset {base j : Nat} (h : base + 4 * j < 2 ^ 16) : (BitVec.ofNat 16 (base + 4 * j)).toNat = base + 4 * j := by
  rw [BitVec.toNat_ofNat, Nat.mod_eq_of_lt h]

theorem tableOffset_ne_zero {base j : Nat} (h : base + 4 * j < 2 ^ 16) (hb : 0 < base) :
    BitVec.ofNat 16 (base + 4 * j) ≠ 0 := by
  intro h0
  have hn := toNat_tableOffset h
  simp only [h0, BitVec.ofNat_eq_ofNat, BitVec.toNat_ofNat, Nat.zero_mod] at hn
  omega

theorem Enc.writeReg_lwOffset (e : Enc) (v : Word) (j : Fin 16) :
    e.writeReg (BitVec.ofNat 16 (0x80 + 4 * j.val)).toNat v = some { e with lw := e.lw.set j.val (v.extractLsb' 0 16) } := by
  rw [toNat_tableOffset (by omega), Enc.writeReg_lw]

theorem Enc.writeReg_dwOffset (e : Enc) (v : Word) (b : Fin 12) :
    e.writeReg (BitVec.ofNat 16 (0xC0 + 4 * b.val)).toNat v = some { e with dw := e.dw.set b.val (v.extractLsb' 0 16) } := by
  rw [toNat_tableOffset (by omega), Enc.writeReg_dw]

/-- Settles O28, register by register: each offset is programmable, and an engine that is not stopped ignores the write. -/
theorem programmingIgnoredWhileRunning : Obligations.ProgrammingIgnoredWhileRunning := by
  refine ⟨fun s rest offset value ha hst ho => ?_, fun s rest offset value ha hst ho => ?_⟩
  · simp only [List.mem_cons, List.not_mem_nil, or_false] at ho
    rcases ho with rfl | rfl | rfl <;> exact step_of_write_dec_active ha (by decide) hst rfl
  · rcases ho with ho | ⟨j, rfl⟩ | ⟨b, rfl⟩
    · simp only [List.mem_cons, List.not_mem_nil, or_false] at ho
      rcases ho with rfl | rfl | rfl | rfl | rfl | rfl <;> exact step_of_write_enc_active ha (by decide) hst rfl
    · exact step_of_write_enc_active ha (tableOffset_ne_zero (by omega) (by decide)) hst (Enc.writeReg_lwOffset _ _ _)
    · exact step_of_write_enc_active ha (tableOffset_ne_zero (by omega) (by decide)) hst (Enc.writeReg_dwOffset _ _ _)

end Sys2Proof.Machine
end

section
/-! SUPPORT. The operation step of D4 is a chain of phase steps: FLAG and LIT are one phase each, and a REF is its phases
REFU, REFL and COPY in order (R126 to R128). -/

namespace Sys2Proof.Machine

/-! ## The fields of a REF and its two bytes (R94, R95) -/

theorem refPosition_toNat (u l : Byte) : (refPosition u l).toNat = u.toNat / 16 + 16 * l.toNat := by
  have hu := u.isLt
  have hl := l.isLt
  have hor := Nat.shiftLeft_add_eq_or_of_lt (i := 4) (b := u.toNat / 16) (by omega) l.toNat
  simp only [Nat.shiftLeft_eq, Nat.reducePow] at hor
  simp only [refPosition, BitVec.toNat_or, BitVec.toNat_ushiftRight, BitVec.toNat_shiftLeft, BitVec.toNat_setWidth,
    Nat.shiftRight_eq_div_pow, Nat.shiftLeft_eq, Nat.reducePow, Nat.mod_eq_of_lt (show u.toNat < 4096 by omega),
    Nat.mod_eq_of_lt (show l.toNat < 4096 by omega), Nat.mod_eq_of_lt (show l.toNat * 16 < 4096 by omega)]
  rw [Nat.or_comm, ← hor]
  omega

theorem refL_refPosition (u l : Byte) : refL (refPosition u l) = l := by
  have hu := u.isLt
  have hl := l.isLt
  apply BitVec.eq_of_toNat_eq
  simp only [refL, BitVec.toNat_setWidth, BitVec.toNat_ushiftRight, refPosition_toNat, Nat.shiftRight_eq_div_pow,
    Nat.reducePow]
  omega

theorem refU_refPosition (u l : Byte) : refU (refPosition u l) (refLength u) = u := by
  have hu := u.isLt
  have hand : ∀ n : Nat, n &&& 15 = n % 16 := fun n => Nat.and_two_pow_sub_one_eq_mod n 4
  have hlen : (refLength u - 3#5).toNat = u.toNat % 16 := by
    rw [BitVec.toNat_sub_of_le (by rw [BitVec.le_def, refLength_toNat]; simp), refLength_toNat]
    simp
  have hor := Nat.shiftLeft_add_eq_or_of_lt (i := 4) (b := u.toNat % 16) (by omega) (u.toNat / 16)
  simp only [Nat.shiftLeft_eq, Nat.reducePow] at hor
  apply BitVec.eq_of_toNat_eq
  simp only [refU, BitVec.toNat_or, BitVec.toNat_shiftLeft, BitVec.toNat_setWidth, BitVec.toNat_and, BitVec.toNat_ofNat,
    hlen, hand, refPosition_toNat, Nat.shiftLeft_eq, Nat.reducePow, Nat.reduceMod]
  rw [show (u.toNat / 16 + 16 * l.toNat) % 16 % 256 * 16 % 256 = u.toNat / 16 * 16 by omega,
    show u.toNat % 16 % 256 = u.toNat % 16 by omega, ← hor]
  omega

/-! ## Phase steps, one after another -/

/-- `t` is reached from `s` by phase steps of DEC. -/
def DecReaches (s t : State) : Prop := Relation.ReflTransGen (fun a b => decStep a = .next b) s t

theorem DecReaches.single {s t : State} (h : decStep s = .next t) : DecReaches s t := Relation.ReflTransGen.single h

theorem DecReaches.head {s u t : State} (h : decStep s = .next u) (h' : DecReaches u t) : DecReaches s t :=
  Relation.ReflTransGen.head h h'

/-- What holds of `s` and is kept by every phase step of DEC holds of every state reached. -/
theorem DecReaches.induct {s t : State} (h : DecReaches s t) (Q : State → Prop) (hs : Q s)
    (hstep : ∀ a b, Q a → decStep a = .next b → Q b) : Q t := by
  induction h with
  | refl => exact hs
  | tail _ hab ih => exact hstep _ _ ih hab

/-- DEC is in `RUN` with its registers in range and the slice it was launched with: a phase step is the rule's. -/
theorem decStep_of_decRuns {s : State} {ph : DecPhase} (h : DecRuns s ph) : decStep s = decRunPhase s :=
  decStep_run h.1 h.2.2.2 h.2.2.1

/-- From the copy of a REF to the GUARD after it: what is left of the copy, byte by byte, then the exit (R128). -/
theorem DecReaches.copy {s : State} (k : Nat) (hrun : DecRuns s .copy)
    (hk : k = min (s.dec.len.toNat - s.dec.ci.toNat) (s.dec.p.toNat - s.dec.ocnt.toNat)) :
    DecReaches s { copyBytes k s with dec := { (copyBytes k s).dec with ph := .guard } } := by
  induction k generalizing s with
  | zero =>
    have hstep := decStep_of_decRuns hrun
    obtain ⟨-, hp, hr, -⟩ := hrun
    have hdone : s.dec.copyDone = true := by
      by_contra hd
      obtain ⟨hci, ho⟩ := Dec.copyDone_false hp hr (Bool.eq_false_of_not_eq_true hd)
      omega
    refine .single ?_
    rw [hstep]
    simp only [decRunPhase, hp, copyStep, hdone, if_true, copyBytes]
  | succ k ih =>
    have hstep := decStep_of_decRuns hrun
    obtain ⟨hst, hp, hr, hs⟩ := hrun
    have hd : s.dec.copyDone = false := by
      by_contra hd
      rcases (Dec.copyDone_iff s.dec).mp (Bool.eq_true_of_not_eq_false hd) with heq | heq <;> rw [heq] at hk <;> omega
    obtain ⟨hci, ho⟩ := Dec.copyDone_false hp hr hd
    simp only [decRunPhase, hp, copyStep, hd, Bool.false_eq_true, if_false] at hstep
    refine .head hstep (ih ⟨hst, hp, copyByte_inRange hp hr hd, hs⟩ ?_)
    have hci' : (copyByte s).dec.ci.toNat = s.dec.ci.toNat + 1 := toNat_succ_of_lt hci
    have ho' : (copyByte s).dec.ocnt.toNat = s.dec.ocnt.toNat + 1 := toNat_succ_of_lt ho
    rw [hci', ho']
    show k = min (s.dec.len.toNat - _) (s.dec.p.toNat - _)
    omega

/-- A byte at the stream index is a byte before `SLEN`. -/
theorem State.iptr_lt_of_streamRest {s : State} {raw : Byte} {rest : List Byte} (hs : s.dec.slen.toNat ≤ s.inS.length)
    (h : s.streamRest = raw :: rest) : s.dec.iptr.toNat < s.dec.slen.toNat := by
  have hlen := State.streamRest_length hs
  rw [h, List.length_cons] at hlen
  omega

/-- One byte consumed: the rest of the stream is what follows it (R24, R142). -/
theorem State.streamRest_advance {s s' : State} {raw : Byte} {rest : List Byte} (hs : s.dec.slen.toNat ≤ s.inS.length)
    (h : s.streamRest = raw :: rest) (hS : s'.inS = s.inS) (hslen : s'.dec.slen = s.dec.slen)
    (hi : s'.dec.iptr = s.dec.iptr + 1) : s'.streamRest = rest := by
  have hsucc : s'.dec.iptr.toNat = s.dec.iptr.toNat + 1 := by
    rw [hi]; exact toNat_succ_of_lt (State.iptr_lt_of_streamRest hs h)
  have htail := congrArg (List.drop 1) h
  unfold State.streamRest at htail ⊢
  rw [List.drop_drop] at htail
  rw [hS, hslen, hsucc]
  exact htail

/-- REFU with its byte there (R127). -/
theorem DecRuns.refU {s : State} {raw : Byte} {rest : List Byte} (h : DecRuns s .refU) (hrest : s.streamRest = raw :: rest) :
    decStep s = .next { s with dec := s.dec.latchU (mask raw) } ∧
    DecRuns { s with dec := s.dec.latchU (mask raw) } .refL ∧
    State.streamRest { s with dec := s.dec.latchU (mask raw) } = rest := by
  have hstep := decStep_of_decRuns h
  obtain ⟨hst, hp, hr, hs⟩ := h
  have hlt := State.iptr_lt_of_streamRest hs hrest
  refine ⟨?_, ⟨hst, rfl, Dec.latchU_inRange hp hr hlt _, hs⟩, State.streamRest_advance hs hrest rfl rfl rfl⟩
  rw [hstep]
  simp only [decRunPhase, hp, hrest]

/-- REFL with its byte there (R127). -/
theorem DecRuns.refL {s : State} {raw : Byte} {rest : List Byte} (h : DecRuns s .refL) (hrest : s.streamRest = raw :: rest) :
    decStep s = .next { s with dec := s.dec.latchL (mask raw) } ∧
    DecRuns { s with dec := s.dec.latchL (mask raw) } .copy := by
  have hstep := decStep_of_decRuns h
  obtain ⟨hst, hp, hr, hs⟩ := h
  have hlt := State.iptr_lt_of_streamRest hs hrest
  refine ⟨?_, ⟨hst, rfl, Dec.latchL_inRange hp hr hlt _, hs⟩⟩
  rw [hstep]
  simp only [decRunPhase, hp, hrest]

theorem Dec.exhausted_of_lt {d : Dec} (h : d.iptr.toNat < d.slen.toNat) : d.exhausted = false := by
  simp only [Dec.exhausted, beq_eq_false_iff_ne, ne_eq]
  intro heq
  rw [heq] at h
  exact Nat.lt_irrefl _ h

/-- `exec` of the REF whose two bytes are at the stream index: both latched, then the copy. -/
theorem execRef_of_streamRest {s : State} {u l : Byte} {tail : List Byte} (h : DecRuns s .refU)
    (hrest : s.streamRest = u :: l :: tail) :
    execRef (refPosition (mask u) (mask l)) (refLength (mask u)) s =
      .next (copyAll { s with dec := (s.dec.latchU (mask u)).latchL (mask l) }) := by
  obtain ⟨-, ⟨-, -, -, hs₁⟩, hrest₁⟩ := h.refU hrest
  have hx := Dec.exhausted_of_lt (State.iptr_lt_of_streamRest h.2.2.2 hrest)
  have hx₁ := Dec.exhausted_of_lt (State.iptr_lt_of_streamRest hs₁ hrest₁)
  simp only [execRef, hx, refU_refPosition, refL_refPosition, Bool.false_eq_true, if_false, hx₁]

/-- What decodes where a REF is due is the REF of the two bytes there. -/
theorem decode_ref_ok {wire : List Byte} {i : Instr} (h : decode (.stream .ref wire) = .ok i) :
    ∃ u l tail, wire = u :: l :: tail ∧ i = .ref (refPosition (mask u) (mask l)) (refLength (mask u)) := by
  match wire, h with
  | u :: l :: tail, h => exact ⟨u, l, tail, rfl, (Except.ok.inj h).symm⟩

/-- A REF whose two bytes are there is its phases taken together (R126 against R127, R128). -/
theorem DecReaches.ref {s t : State} {i : Instr} (hrun : DecRuns s .refU)
    (hi : decode (.stream .ref s.streamRest) = .ok i) (h : exec i s = .next t) : DecReaches s t := by
  obtain ⟨u, l, tail, hrest, rfl⟩ := decode_ref_ok hi
  obtain ⟨hstep₁, hrun₁, hrest₁⟩ := hrun.refU hrest
  obtain ⟨hstep₂, hrun₂⟩ := hrun₁.refL hrest₁
  have ht := (execRef_of_streamRest hrun hrest).symm.trans h
  rw [← Host.Outcome.next.inj ht]
  exact .head hstep₁ (.head hstep₂ (.copy _ hrun₂ rfl))

/-- Which operation is due, and in which phase (R98, R107). -/
theorem dueInstr_some {s : State} {i : Instr} (h : dueInstr s = some i) :
    (s.dec.ph = .flag ∧ decode (.stream .flag s.streamRest) = .ok i) ∨
    (s.dec.ph = .lit ∧ decode (.stream .lit s.streamRest) = .ok i) ∨
    (s.dec.ph = .refU ∧ decode (.stream .ref s.streamRest) = .ok i) := by
  have hok : ∀ x : Except DecodeError Instr, x.toOption = some i → x = .ok i := by
    intro x hx
    cases x with
    | ok j => exact congrArg Except.ok (Option.some.inj hx)
    | error e => cases hx
  cases hp : s.dec.ph <;> simp only [dueInstr, hp, reduceCtorEq] at h
  case flag => exact .inl ⟨rfl, hok _ h⟩
  case lit => exact .inr (.inl ⟨rfl, hok _ h⟩)
  case refU => exact .inr (.inr ⟨rfl, hok _ h⟩)

/-- The operation step of D4 is a chain of phase steps. -/
theorem decOperation_reaches {s t : State} (h : decOperation s = .next t) : DecReaches s t := by
  unfold decOperation at h
  split at h
  · rename_i i hst hdue
    split at h
    · cases h
    · rename_i hs
      split at h
      · rename_i hr
        have hs' : s.dec.slen.toNat ≤ s.inS.length := Nat.not_lt.mp hs
        rcases dueInstr_some hdue with ⟨hp, hi⟩ | ⟨hp, hi⟩ | ⟨hp, hi⟩
        · exact .single (by rw [decStep_run hst hs' hr]; simp only [decRunPhase, hp, hi, h])
        · exact .single (by rw [decStep_run hst hs' hr]; simp only [decRunPhase, hp, hi, h])
        · exact .ref ⟨hst, hp, hr, hs'⟩ hi h
      · cases h
  · exact .single h

end Sys2Proof.Machine
end

section
/-! SUPPORT. The invariant of DEC (R59): what each kind of event can do to DEC and `O`, said once, and that each keeps it. -/

namespace Sys2Proof.Machine

/-! ## What a step can do to DEC and `O` -/

/-- A host register write, as DEC sees it: DEC leaves the states of R59, or only its IE, or only its `P` and `SLEN`, change. -/
theorem writeRegister_next_dec {engine : Engine} {offset : BitVec 16} {v : Word} {s t : State}
    (h : writeRegister engine offset v s = .next t) :
    t.dec.st.started = false ∨
    (t.outO = s.outO ∧ ∃ ie, t.dec = { s.dec with ie := ie }) ∨
    (t.outO = s.outO ∧ s.dec.st.stopped = true ∧ engine = .dec ∧ offset ∈ [0x08#16, 0x0C#16, 0x10#16] ∧
      t.dec = { s.dec with p := t.dec.p, slen := t.dec.slen }) := by
  unfold writeRegister at h
  split at h
  · rcases writeCtrl_next h with rfl | rfl | ⟨rfl, -, -, rfl⟩ | ⟨rfl, -, -, -, rfl⟩
    · cases engine with
      | dec => exact .inl rfl
      | enc => exact .inr (.inl ⟨rfl, s.dec.ie, rfl⟩)
    · cases engine with
      | dec => exact .inr (.inl ⟨rfl, v.getLsbD 2, rfl⟩)
      | enc => exact .inr (.inl ⟨rfl, s.dec.ie, rfl⟩)
    · exact .inl rfl
    · exact .inr (.inl ⟨rfl, s.dec.ie, rfl⟩)
  · rcases writeProgrammable_next h with rfl | ⟨rfl, hst, d, hw, rfl⟩ | ⟨rfl, -, e, -, rfl⟩
    · exact .inr (.inl ⟨rfl, _, rfl⟩)
    · obtain ⟨ho, hd⟩ := Dec.writeReg_some hw
      refine .inr (.inr ⟨rfl, hst, rfl, ?_, hd⟩)
      simp only [List.mem_cons, List.not_mem_nil, or_false, ← BitVec.toNat_inj] at ho ⊢
      exact ho
    · exact .inr (.inl ⟨rfl, s.dec.ie, rfl⟩)

theorem readRegister_dec {offset : BitVec 16} {s : State} {w : Word}
    (h : s.dec.readReg (Config.freeBits 32 s.draws) offset.toNat = some w) :
    readRegister .dec offset s = .next { s with rdata := w, draws := s.draws + 1 } := by
  simp only [readRegister, h]

theorem readRegister_enc {offset : BitVec 16} {s : State} {w : Word}
    (h : s.enc.readReg (Config.freeBits 32 s.draws) offset.toNat = some w) :
    readRegister .enc offset s = .next { s with rdata := w, draws := s.draws + 1 } := by
  simp only [readRegister, h]

/-- A host read changes `rdata` and `draws` alone. -/
theorem readRegister_next {engine : Engine} {offset : BitVec 16} {s t : State} (h : readRegister engine offset s = .next t) :
    t = { s with rdata := t.rdata, draws := t.draws } := by
  cases engine with
  | dec =>
    cases hw : s.dec.readReg (Config.freeBits 32 s.draws) offset.toNat with
    | some w => rw [readRegister_dec hw] at h; cases h; rfl
    | none => simp only [readRegister, hw] at h; cases h
  | enc =>
    cases hw : s.enc.readReg (Config.freeBits 32 s.draws) offset.toNat with
    | some w => rw [readRegister_enc hw] at h; cases h; rfl
    | none => simp only [readRegister, hw] at h; cases h

/-- The host binds a slice while the engine that reads it is stopped (R78, R255). -/
theorem hostStep_bindStream_next {bytes : List Byte} {s t : State} (h : hostStep (.bindStream bytes) s = .next t) :
    s.dec.st.stopped = true ∧ t = { s with inS := bytes } := by
  simp only [hostStep] at h
  split at h
  · rename_i hst
    exact ⟨hst, (Host.Outcome.next.inj h).symm⟩
  · cases h

theorem hostStep_bindPixels_next {bytes : List Byte} {s t : State} (h : hostStep (.bindPixels bytes) s = .next t) :
    s.enc.st.stopped = true ∧ t = { s with inX := bytes } := by
  simp only [hostStep] at h
  split at h
  · rename_i hst
    exact ⟨hst, (Host.Outcome.next.inj h).symm⟩
  · cases h

/-- A phase of ENC changes ENC, `Y` and the counter of free values alone. -/
theorem encRunPhase_frame {s t : State} (h : encRunPhase s = .next t) :
    t = { s with enc := t.enc, outY := t.outY, draws := t.draws } := by
  rcases encRunPhase_next h with ⟨-, rfl⟩ | ⟨-, rfl⟩ | ⟨-, rfl⟩ | ⟨-, -, b, rest, -, rfl⟩ | ⟨-, -, -, rfl⟩ | ⟨-, rfl⟩ |
    ⟨-, rfl⟩
  · rfl
  · rfl
  · rfl
  · rfl
  · rfl
  · rfl
  · unfold flushStep
    dsimp only
    split <;> split <;> rfl

theorem encStep_frame {s t : State} (h : encStep s = .next t) :
    t = { s with enc := t.enc, outY := t.outY, draws := t.draws } := by
  rcases encStep_next h with ⟨-, rfl⟩ | ⟨-, rfl⟩ | ⟨-, -, -, hphase⟩
  · rfl
  · rfl
  · exact encRunPhase_frame hphase

/-- A step of DEC changes DEC and `O` alone, and neither `P` nor `SLEN`. -/
theorem decStep_frame {s t : State} (h : decStep s = .next t) :
    t = { s with dec := t.dec, outO := t.outO } ∧ t.dec.p = s.dec.p ∧ t.dec.slen = s.dec.slen := by
  rcases decStep_next h with ⟨-, rfl⟩ | ⟨-, rfl⟩ | ⟨-, hs, hr, hphase⟩
  · exact ⟨rfl, rfl, rfl⟩
  · exact ⟨rfl, rfl, rfl⟩
  · exact decRunPhase_frame hs hr hphase

theorem DecReaches.frame {s t : State} (h : DecReaches s t) :
    t = { s with dec := t.dec, outO := t.outO } ∧ t.dec.p = s.dec.p ∧ t.dec.slen = s.dec.slen := by
  induction h with
  | refl => exact ⟨rfl, rfl, rfl⟩
  | @tail u t _ hut ih =>
    obtain ⟨hu, hup, hus⟩ := ih
    obtain ⟨ht, htp, hts⟩ := decStep_frame hut
    exact ⟨by rw [ht, hu], htp.trans hup, hts.trans hus⟩

/-- What any step can do to DEC and `O`: phase steps of DEC, or what the host can do to it. -/
theorem step_next_dec {s t : State} (h : step s = .next t) :
    (∃ rest, DecReaches { s with agenda := rest } t) ∨
    t.dec.st.started = false ∨
    (t.outO = s.outO ∧ ∃ ie, t.dec = { s.dec with ie := ie }) ∨
    (t.outO = s.outO ∧ s.dec.st.stopped = true ∧ t.dec = { s.dec with p := t.dec.p, slen := t.dec.slen } ∧
      ∃ offset value rest, offset ∈ [0x08#16, 0x0C#16, 0x10#16] ∧ s.agenda = .host (.write .dec offset value) :: rest) := by
  rcases step_cases s with ⟨event, rest, ha, hstep⟩ | ⟨-, -, hstep⟩ | ⟨ha, -, hstep⟩ <;> rw [h] at hstep
  · cases event with
    | host action =>
      cases action with
      | hardwareReset => rw [Host.Outcome.next.inj hstep]; exact .inr (.inl rfl)
      | write engine offset value =>
        rcases writeRegister_next_dec hstep.symm with hst | hie | ⟨hO, hst, rfl, ho, hd⟩
        · exact .inr (.inl hst)
        · exact .inr (.inr (.inl hie))
        · exact .inr (.inr (.inr ⟨hO, hst, hd, offset, value, rest, ho, ha⟩))
      | read engine offset =>
        rw [readRegister_next hstep.symm]
        exact .inr (.inr (.inl ⟨rfl, s.dec.ie, rfl⟩))
      | bindStream bytes =>
        rw [(hostStep_bindStream_next hstep.symm).2]
        exact .inr (.inr (.inl ⟨rfl, s.dec.ie, rfl⟩))
      | bindPixels bytes =>
        rw [(hostStep_bindPixels_next hstep.symm).2]
        exact .inr (.inr (.inl ⟨rfl, s.dec.ie, rfl⟩))
    | phase engine =>
      cases engine with
      | dec => exact .inl ⟨rest, .single hstep.symm⟩
      | enc =>
        rw [encStep_frame hstep.symm]
        exact .inr (.inr (.inl ⟨rfl, s.dec.ie, rfl⟩))
    | operation => exact .inl ⟨rest, decOperation_reaches hstep.symm⟩
  · rw [encStep_frame hstep.symm]
    exact .inr (.inr (.inl ⟨rfl, s.dec.ie, rfl⟩))
  · exact .inl ⟨s.agenda, .single hstep.symm⟩

/-! ## Count, cursor and ring content under a phase step -/

/-- R59 (d) and (e): the cursor follows the count, and the ring holds what has been emitted. -/
def DecContent (s : State) : Prop :=
  s.dec.rcur = Config.cursorInit + BitVec.ofNat 12 s.dec.ocnt.toNat ∧
  RingHolds s.dec.ring s.dec.ocnt.toNat s.outO.read

/-- Before the first byte the ring is the pre-seed (R121). -/
theorem RingHolds.seeded (byteAt : Nat → Option Byte) : RingHolds Ring.seeded 0 byteAt := by
  intro a
  simp

theorem DecContent.congr {s t : State} (h : DecContent s) (hc : t.dec.ocnt = s.dec.ocnt) (hr : t.dec.rcur = s.dec.rcur)
    (hring : t.dec.ring = s.dec.ring) (hO : t.outO = s.outO) : DecContent t := by
  unfold DecContent
  rw [hc, hr, hring, hO]
  exact h

/-- The cursor moves with the count (R129). -/
theorem cursor_succ (k : Nat) :
    Config.cursorInit + BitVec.ofNat 12 k + 1 = Config.cursorInit + BitVec.ofNat 12 (k + 1) := by
  rw [BitVec.add_assoc, BitVec.ofNat_add k 1]
  rfl

/-- One byte emitted with room for it keeps the content (R129). -/
theorem DecContent.emit {s t : State} {v : Byte} (h : DecContent s) (hwf : s.dec.ring.wf)
    (hlt : s.dec.ocnt.toNat < s.dec.p.toNat) (hc : t.dec.ocnt = s.dec.ocnt + 1) (hr : t.dec.rcur = s.dec.rcur + 1)
    (hring : t.dec.ring = s.dec.ring.write s.dec.rcur v) (hO : t.outO = s.outO.write s.dec.ocnt.toNat v) :
    DecContent t := by
  obtain ⟨hcur, hholds⟩ := h
  have hsucc : t.dec.ocnt.toNat = s.dec.ocnt.toNat + 1 := by rw [hc]; exact toNat_succ_of_lt hlt
  refine ⟨?_, ?_⟩
  · rw [hr, hcur, hsucc, cursor_succ]
  · rw [hring, hO, hsucc, hcur]
    exact RingHolds.emit hwf hholds

/-- R59 (d) and (e) are an invariant of the phases of DEC. -/
theorem decRunPhase_content {s t : State} (hs : s.dec.slen.toNat ≤ s.inS.length) (hr : s.dec.inRange = true)
    (hwf : s.dec.ring.wf) (hc : DecContent s) (h : decRunPhase s = .next t) : t.dec.ring.wf ∧ DecContent t := by
  rcases decRunPhase_next hs hr h with ⟨-, rfl⟩ | ⟨-, -, rfl⟩ | ⟨-, -, raw, -, rfl⟩ | ⟨-, rfl⟩ | ⟨-, -, rfl⟩ |
    ⟨hp, -, raw, -, rfl⟩ | ⟨-, -, rfl⟩ | ⟨-, -, raw, -, rfl⟩ | ⟨-, -, rfl⟩ | ⟨-, -, raw, -, rfl⟩ | ⟨-, -, rfl⟩ |
    ⟨hp, hd, rfl⟩
  · rcases s.dec.guardStep_cases with ⟨-, heq⟩ | ⟨-, -, heq⟩ | ⟨-, -, heq⟩ <;> rw [heq] <;> exact ⟨hwf, hc⟩
  · exact ⟨hwf, hc⟩
  · exact ⟨hwf, hc⟩
  · exact ⟨hwf, hc⟩
  · exact ⟨hwf, hc⟩
  · have hlt := ((Dec.inRange_fetch (.inr (.inl hp))).mp hr).2.1
    exact ⟨Ring.write_wf hwf _ _, hc.emit hwf hlt rfl rfl rfl rfl⟩
  · exact ⟨hwf, hc⟩
  · exact ⟨hwf, hc⟩
  · exact ⟨hwf, hc⟩
  · exact ⟨hwf, hc⟩
  · exact ⟨hwf, hc⟩
  · exact ⟨copyByte_ring_wf hwf, hc.emit hwf (Dec.copyDone_false hp hr hd).2 rfl rfl rfl rfl⟩

/-- A phase step leaves the counters within their bounds, a faulting one included (R59 (b), (c), R205). -/
theorem decRunPhase_counts {s t : State} (hst : s.dec.st = .run) (hs : s.dec.slen.toNat ≤ s.inS.length)
    (hr : s.dec.inRange = true) (h : decRunPhase s = .next t) :
    t.dec.fcnt.toNat ≤ 8 ∧ t.dec.ocnt.toNat ≤ t.dec.p.toNat ∧ t.dec.iptr.toNat ≤ t.dec.slen.toNat := by
  rcases decRunPhase_inRange hs hr h with hf | hr'
  · rcases decRunPhase_st hst hs hr h with hgo | ⟨hdone, -⟩ | ⟨-, hfault⟩
    · simp [hf] at hgo
    · simp [hf] at hdone
    · have hb := Dec.inRange_bounds hr
      rcases hfault with ⟨-, rfl⟩ | ⟨-, rfl⟩ | ⟨-, rfl⟩ | ⟨-, rfl⟩ <;> exact hb
  · exact Dec.inRange_bounds hr'

/-! ## Every step keeps the invariant -/

/-- The invariant says of a DEC that has left the states of R59 nothing. -/
theorem DecInvariant.of_not_started {s : State} (h : s.dec.st.started = false) : DecInvariant s ∧ DecCountsInRange s := by
  have hrun : s.dec.st ≠ .run := by rintro hst; rw [hst] at h; cases h
  simp [DecInvariant, DecCountsInRange, h, hrun]

theorem decInit_invariant (s : State) :
    DecInvariant { s with dec := s.dec.init } ∧ DecCountsInRange { s with dec := s.dec.init } := by
  have hrange : s.dec.init.inRange = true :=
    (Dec.inRange_guard rfl).mpr ⟨Nat.zero_le _, Nat.zero_le _, Nat.zero_le _⟩
  exact ⟨⟨fun _ => hrange, fun _ => ⟨Nat.zero_le _, rfl, RingHolds.seeded _⟩⟩, fun _ => ⟨Nat.zero_le _, Nat.zero_le _⟩⟩

/-- A phase step of DEC keeps its invariant, and R59 (b) and (c) with it. -/
theorem decStep_keeps_invariant {s t : State} (hwf : s.dec.ring.wf) (hi : DecInvariant s) (h : decStep s = .next t) :
    t.dec.ring.wf ∧ DecInvariant t ∧ (DecCountsInRange s → DecCountsInRange t) := by
  rcases decStep_next h with ⟨-, rfl⟩ | ⟨-, rfl⟩ | ⟨hst, hs, hr, hphase⟩
  · exact ⟨hwf, hi, id⟩
  · exact ⟨Ring.seeded_wf, (decInit_invariant s).1, fun _ => (decInit_invariant s).2⟩
  · obtain ⟨-, hcontent⟩ := hi
    have hc : DecContent s := (hcontent (by rw [hst]; rfl)).2
    obtain ⟨hwf', hcur, hholds⟩ := decRunPhase_content hs hr hwf hc hphase
    obtain ⟨hf, ho, hip⟩ := decRunPhase_counts hst hs hr hphase
    refine ⟨hwf', ⟨fun hrun => ?_, fun _ => ⟨hf, hcur, hholds⟩⟩, fun _ _ => ⟨ho, hip⟩⟩
    exact (decRunPhase_inRange hs hr hphase).resolve_left (by rw [hrun]; decide)

theorem DecReaches.keeps_invariant {s t : State} (h : DecReaches s t) (hwf : s.dec.ring.wf) (hi : DecInvariant s) :
    t.dec.ring.wf ∧ DecInvariant t ∧ (DecCountsInRange s → DecCountsInRange t) := by
  induction h with
  | refl => exact ⟨hwf, hi, id⟩
  | tail _ hut ih =>
    obtain ⟨hwfu, hiu, hcu⟩ := ih
    obtain ⟨hwft, hit, hct⟩ := decStep_keeps_invariant hwfu hiu hut
    exact ⟨hwft, hit, hct ∘ hcu⟩

/-- `IE` is in no range of R59. -/
theorem Dec.inRange_ie (d : Dec) (ie : Bool) : ({ d with ie := ie } : Dec).inRange = d.inRange := rfl

/-- Settles O50: phase steps keep the invariant along a chain; every other event leaves the states of R59, changes IE, or
programs a stopped DEC, of which the invariant says nothing about `P` and `SLEN`. -/
theorem stepKeepsDecInvariant : Obligations.StepKeepsDecInvariant := by
  intro s t hwf hi h
  rcases step_next_dec h with ⟨rest, hreach⟩ | hst | ⟨hO, ie, hd⟩ | ⟨hO, hst, hd, offset, value, rest, ho, ha⟩
  · obtain ⟨-, hit, hct⟩ := hreach.keeps_invariant hwf hi
    exact ⟨hit, fun _ => hct⟩
  · obtain ⟨hit, hct⟩ := DecInvariant.of_not_started hst
    exact ⟨hit, fun _ _ => hct⟩
  · unfold DecInvariant DecCountsInRange
    rw [hd, hO]
    exact ⟨hi, fun _ hc => hc⟩
  · have hrun : s.dec.st ≠ .run := by intro hr; rw [hr] at hst; cases hst
    refine ⟨⟨fun hr => absurd hr ?_, fun hstarted => ?_⟩, fun hno => absurd ha (hno offset value rest ho)⟩
    · rw [hd]; exact hrun
    · rw [hd] at hstarted ⊢
      rw [hO]
      exact hi.2 hstarted

end Sys2Proof.Machine
end

section
/-! SUPPORT. The scan for the best candidate (R156 to R163): what it has found after each probed distance. -/

namespace Sys2Proof.Machine

theorem matchFrom_le (r : Ring) (c : RingAddr) (d : Nat) (xs : List Byte) (i lim : Nat) : matchFrom r c d xs i lim ≤ lim := by
  induction lim generalizing xs i with
  | zero => cases xs <;> exact Nat.le_refl 0
  | succ lim ih =>
    cases xs with
    | nil => exact Nat.zero_le _
    | cons x xs =>
      simp only [matchFrom]
      split
      · exact Nat.succ_le_succ (ih xs (i + 1))
      · exact Nat.zero_le _

/-- R156: `L(d)` is at most its cap. -/
theorem matchLength_le (r : Ring) (c : RingAddr) (d : Nat) (xs : List Byte) (lim : Nat) : matchLength r c d xs lim ≤ lim :=
  matchFrom_le r c d xs 0 lim

/-- The registers `b` hold the distance `d`: the valid one of greatest score among `1 .. n`, the nearest of those (R163). -/
structure Best.HoldsBestUpTo (b : Best) (m : Nat → MatchEntry) (n d : Nat) : Prop where
  pos : 1 ≤ d
  le : d ≤ n
  valid : (m d).valid = true
  dist : b.dist = BitVec.ofNat 12 d
  len : b.len = BitVec.ofNat 5 (m d).len
  score : b.score = (m d).score
  greatest : ∀ k, 1 ≤ k → k ≤ n → (m k).valid = true → (m k).score ≤ b.score
  nearest : ∀ k, 1 ≤ k → k ≤ n → (m k).valid = true → (m k).score = b.score → d ≤ k

/-- After the distances `1 .. n`: either a best candidate is held, or none of them is valid (R163). -/
def Best.ScannedUpTo (b : Best) (m : Nat → MatchEntry) (n : Nat) : Prop :=
  (b.valid = true ∧ ∃ d, b.HoldsBestUpTo m n d) ∨ (b.valid = false ∧ ∀ k, 1 ≤ k → k ≤ n → (m k).valid = false)

/-- The two outcomes of a probe (R163). -/
theorem Best.probe_cases (b : Best) (d : Nat) (m : MatchEntry) :
    (m.valid = true ∧ (b.valid = false ∨ b.score < m.score) ∧
      b.probe d m = { valid := true, score := m.score, dist := BitVec.ofNat 12 d, len := BitVec.ofNat 5 m.len }) ∨
    ((m.valid = false ∨ b.valid = true ∧ m.score ≤ b.score) ∧ b.probe d m = b) := by
  unfold Best.probe
  cases hm : m.valid <;> cases hb : b.valid <;> simp
  simp only [BitVec.lt_def, BitVec.le_def]
  omega

theorem Best.ScannedUpTo.probe {b : Best} {m : Nat → MatchEntry} {n : Nat} (h : b.ScannedUpTo m n) :
    (b.probe (n + 1) (m (n + 1))).ScannedUpTo m (n + 1) := by
  have hsplit : ∀ k, k ≤ n + 1 → k ≤ n ∨ k = n + 1 := fun k hk => by omega
  rcases b.probe_cases (n + 1) (m (n + 1)) with ⟨hm, hbetter, heq⟩ | ⟨hkeep, heq⟩ <;> rw [heq]
  · -- the new distance is the first valid one, or scores strictly higher than every earlier one
    have hbelow : ∀ k, 1 ≤ k → k ≤ n → (m k).valid = true → (m k).score < (m (n + 1)).score := by
      intro k h1 hk hv
      rcases h with ⟨hbv, d, hd⟩ | ⟨-, hnone⟩
      · have hlt := hbetter.resolve_left (by rw [hbv]; decide)
        exact Nat.lt_of_le_of_lt (hd.greatest k h1 hk hv) hlt
      · rw [hnone k h1 hk] at hv; cases hv
    refine .inl ⟨rfl, n + 1, ?_⟩
    refine { pos := Nat.le_add_left 1 n, le := Nat.le_refl _, valid := hm, dist := rfl, len := rfl, score := rfl
             greatest := ?_, nearest := ?_ }
    · intro k h1 hk hv
      rcases hsplit k hk with hk | rfl
      · exact BitVec.le_of_lt (hbelow k h1 hk hv)
      · exact BitVec.le_refl _
    · intro k h1 hk hv hscore
      rcases hsplit k hk with hk | rfl
      · exact absurd hscore (BitVec.ne_of_lt (hbelow k h1 hk hv))
      · exact Nat.le_refl _
  · rcases h with ⟨hbv, d, hd⟩ | ⟨hbv, hnone⟩
    · refine .inl ⟨hbv, d, { hd with le := Nat.le_succ_of_le hd.le, greatest := ?_, nearest := ?_ }⟩
      · intro k h1 hk hv
        rcases hsplit k hk with hk | rfl
        · exact hd.greatest k h1 hk hv
        · exact (hkeep.resolve_left (by rw [hv]; decide)).2
      · intro k h1 hk hv hscore
        rcases hsplit k hk with hk | rfl
        · exact hd.nearest k h1 hk hv hscore
        · exact Nat.le_succ_of_le hd.le
    · refine .inr ⟨hbv, fun k h1 hk => ?_⟩
      rcases hsplit k hk with hk | rfl
      · exact hnone k h1 hk
      · exact hkeep.resolve_right (by rw [hbv]; simp)

theorem Best.scan (m : Nat → MatchEntry) (n : Nat) :
    ((List.range' 1 n).foldl (fun b d => b.probe d (m d)) Best.none).ScannedUpTo m n := by
  induction n with
  | zero => exact .inr ⟨rfl, fun k h1 hk => by omega⟩
  | succ n ih =>
    rw [List.range'_1_concat, List.foldl_append, Nat.add_comm 1 n]
    exact ih.probe

/-- What the best candidate of a scan is (R158, R163). -/
theorem Enc.bestCandidate_scanned (e : Enc) (r : Ring) (c : RingAddr) (xs : List Byte) (lim : Nat) :
    (e.bestCandidate r c xs lim).ScannedUpTo (e.matchEntry r c xs lim) e.depthEff :=
  Best.scan _ _

/-- Validity of a table entry (R157). -/
theorem Enc.matchEntry_valid (e : Enc) (r : Ring) (c : RingAddr) (xs : List Byte) (lim d : Nat) :
    (e.matchEntry r c xs lim d).valid = true ↔ max e.minlen.toNat 3 ≤ matchLength r c d xs lim := by
  exact decide_eq_true_iff

/-- The distance and the length of a best candidate fit their registers (R39). -/
theorem Enc.bestCandidate_fields {e : Enc} {r : Ring} {c : RingAddr} {xs : List Byte} {lim d : Nat} (hlim : lim ≤ 18)
    (hd : (e.bestCandidate r c xs lim).HoldsBestUpTo (e.matchEntry r c xs lim) e.depthEff d) :
    (e.bestCandidate r c xs lim).dist.toNat = d ∧ (e.bestCandidate r c xs lim).len.toNat = matchLength r c d xs lim := by
  have hd' : d ≤ 4095 := hd.le.trans (Nat.min_le_right _ _)
  have hl : matchLength r c d xs lim ≤ 18 := (matchLength_le r c d xs lim).trans hlim
  rw [hd.dist, hd.len, BitVec.toNat_ofNat, BitVec.toNat_ofNat, Nat.mod_eq_of_lt (by omega),
    Nat.mod_eq_of_lt (by simp only [Enc.matchEntry]; omega)]
  exact ⟨rfl, rfl⟩

/-- Settles O34, from what the scan holds after its last distance. -/
theorem bestCandidateIsNearestOfBestScore : Obligations.BestCandidateIsNearestOfBestScore := by
  intro e r c xs lim hlim
  dsimp only
  rcases e.bestCandidate_scanned r c xs lim with ⟨hv, d, hd⟩ | ⟨hv, hnone⟩
  · obtain ⟨hdist, hlen⟩ := Enc.bestCandidate_fields hlim hd
    have hvalid := (e.matchEntry_valid r c xs lim d).mp hd.valid
    refine ⟨⟨fun _ => ⟨d, hd.pos, hd.le, hvalid⟩, fun _ => hv⟩, fun _ => ?_⟩
    rw [hdist]
    refine ⟨⟨hd.pos, hd.le, hvalid⟩, hlen, ?_, fun k hk => ?_, fun k hk hscore => ?_⟩
    · rw [hlen]; exact hd.score
    · exact hd.greatest k hk.1 hk.2.1 ((e.matchEntry_valid r c xs lim k).mpr hk.2.2)
    · exact hd.nearest k hk.1 hk.2.1 ((e.matchEntry_valid r c xs lim k).mpr hk.2.2) hscore
  · refine ⟨⟨fun h => (by rw [hv] at h; cases h), fun ⟨k, h1, hk, hl⟩ => ?_⟩, fun h => (by rw [hv] at h; cases h)⟩
    have := hnone k h1 hk
    rw [(e.matchEntry_valid r c xs lim k).mpr hl] at this
    cases this

/-- A best candidate has a length of the format within the cap (R157). -/
theorem Enc.bestCandidate_len {e : Enc} {r : Ring} {c : RingAddr} {xs : List Byte} {lim : Nat} (hlim : lim ≤ 18)
    (hv : (e.bestCandidate r c xs lim).valid = true) :
    3 ≤ (e.bestCandidate r c xs lim).len.toNat ∧ (e.bestCandidate r c xs lim).len.toNat ≤ lim := by
  obtain ⟨-, hbest⟩ := bestCandidateIsNearestOfBestScore e r c xs lim hlim
  obtain ⟨⟨-, -, hmin⟩, hlen, -⟩ := hbest hv
  rw [hlen]
  exact ⟨(Nat.le_max_right _ _).trans hmin, matchLength_le _ _ _ _ _⟩

end Sys2Proof.Machine
end

section
/-! SUPPORT. The phases of ENC: the register ranges of R59 and 93 U16 by phase, and that every phase keeps them and the ring
content. -/

namespace Sys2Proof.Machine

/-! ## The register ranges of ENC -/

/-- What `Enc.inRange` says in every phase: R59, the bound of R34, and the size relation behind R183. -/
def Enc.CountersBounded (e : Enc) : Prop :=
  e.CountersInRange ∧ e.spos.toNat ≤ e.n.toNat ∧ e.n.toNat ≤ 2 ^ 32 ∧
  8 * (e.optr.toNat + e.qbn.toNat) + e.qn.toNat ≤ 8 * e.spos.toNat + e.totops.toNat

theorem Enc.inRange_bounds {e : Enc} (h : e.inRange = true) : e.CountersBounded := by
  simp only [Enc.inRange, Bool.and_eq_true, decide_eq_true_eq] at h
  obtain ⟨⟨⟨⟨⟨⟨⟨⟨h1, h2⟩, h3⟩, h4⟩, h5⟩, h6⟩, h7⟩, h8⟩, -⟩ := h
  exact ⟨⟨h1, h2, h3, h4, h5⟩, h6, h7, h8⟩

theorem Enc.inRange_guard {e : Enc} (hp : e.ph = .guard) : e.inRange = true ↔ e.CountersBounded ∧ e.qn.toNat ≤ 7 := by
  simp only [Enc.inRange, Enc.CountersBounded, Enc.CountersInRange, hp, Bool.and_eq_true, decide_eq_true_eq, and_assoc]

theorem Enc.inRange_search {e : Enc} (hp : e.ph = .search) :
    e.inRange = true ↔ e.CountersBounded ∧ e.qn.toNat ≤ 7 ∧ e.spos.toNat < e.n.toNat := by
  simp only [Enc.inRange, Enc.CountersBounded, Enc.CountersInRange, hp, Bool.and_eq_true, decide_eq_true_eq, and_assoc]

theorem Enc.inRange_select {e : Enc} (hp : e.ph = .select) :
    e.inRange = true ↔
      e.CountersBounded ∧ e.qn.toNat ≤ 7 ∧ e.spos.toNat < e.n.toNat ∧ e.bestInRange = true := by
  simp only [Enc.inRange, Enc.CountersBounded, Enc.CountersInRange, hp, Bool.and_eq_true, decide_eq_true_eq, and_assoc]

theorem Enc.inRange_commit {e : Enc} (hp : e.ph = .commit) :
    e.inRange = true ↔
      e.CountersBounded ∧ e.qn.toNat ≤ 7 ∧ e.spos.toNat < e.n.toNat ∧ e.bestInRange = true ∧
      (e.kind = .lit ∨ e.best.valid = true) := by
  simp only [Enc.inRange, Enc.CountersBounded, Enc.CountersInRange, hp, Bool.and_eq_true, Bool.or_eq_true, beq_iff_eq,
    decide_eq_true_eq, and_assoc]

theorem Enc.inRange_pack {e : Enc} (hp : e.ph = .pack) : e.inRange = true ↔ e.CountersBounded ∧ e.qn.toNat = 8 := by
  simp only [Enc.inRange, Enc.CountersBounded, Enc.CountersInRange, hp, Bool.and_eq_true, decide_eq_true_eq, and_assoc]

theorem Enc.inRange_flush {e : Enc} (hp : e.ph = .flush) :
    e.inRange = true ↔ e.CountersBounded ∧ e.qn.toNat ≤ 7 ∧ e.spos = e.n := by
  simp only [Enc.inRange, Enc.CountersBounded, Enc.CountersInRange, hp, Bool.and_eq_true, decide_eq_true_eq, and_assoc]

theorem Enc.bestInRange_iff (e : Enc) :
    e.bestInRange = true ↔
      (e.best.valid = true →
        3 ≤ e.best.len.toNat ∧ e.best.len.toNat ≤ 18 ∧ e.spos.toNat + e.best.len.toNat ≤ e.n.toNat) := by
  cases hv : e.best.valid <;> simp [Enc.bestInRange, hv, and_assoc]

/-! ## GUARD, SEARCH, SELECT keep the ranges -/

theorem Enc.guardStep_inRange {e : Enc} (hp : e.ph = .guard) (h : e.inRange = true) : e.guardStep.inRange = true := by
  obtain ⟨hc, hq⟩ := (Enc.inRange_guard hp).mp h
  unfold Enc.guardStep
  split
  · rename_i hs
    exact (Enc.inRange_flush rfl).mpr ⟨hc, hq, hs⟩
  · rename_i hs
    exact (Enc.inRange_search rfl).mpr ⟨hc, hq, Nat.lt_of_le_of_ne hc.2.1 (BitVec.toNat_ne.mp hs)⟩

/-- R156: no length is above 18 or beyond the input that is left. -/
theorem Enc.matchLimit_le (e : Enc) (s : Nat) : e.matchLimit s ≤ 18 ∧ e.matchLimit s ≤ e.n.toNat - s :=
  ⟨(Nat.min_le_left _ _).trans (Nat.min_le_right _ _), Nat.min_le_right _ _⟩

theorem Enc.searchStep_inRange {e : Enc} (hp : e.ph = .search) (h : e.inRange = true) (x : List Byte) :
    (e.searchStep x).inRange = true := by
  obtain ⟨hc, hq, hs⟩ := (Enc.inRange_search hp).mp h
  refine (Enc.inRange_select rfl).mpr ⟨hc, hq, hs, (Enc.bestInRange_iff _).mpr fun hv => ?_⟩
  obtain ⟨h18, hrest⟩ := e.matchLimit_le e.spos.toNat
  obtain ⟨h3, hl⟩ := Enc.bestCandidate_len h18 hv
  refine ⟨h3, hl.trans h18, ?_⟩
  show e.spos.toNat + (e.bestHere x).len.toNat ≤ e.n.toNat
  have hle : (e.bestHere x).len.toNat ≤ e.n.toNat - e.spos.toNat := hl.trans hrest
  omega

/-- SELECT decides for a REF only where there is a candidate (R166). -/
theorem Enc.decision_cases (e : Enc) : e.decision = .lit ∨ e.best.valid = true := by
  unfold Enc.decision
  cases e.best.valid
  · exact .inl rfl
  · exact .inr rfl

theorem Enc.selectStep_inRange {e : Enc} (hp : e.ph = .select) (h : e.inRange = true) : e.selectStep.inRange = true := by
  obtain ⟨hc, hq, hs, hb⟩ := (Enc.inRange_select hp).mp h
  exact (Enc.inRange_commit rfl).mpr ⟨hc, hq, hs, hb, e.decision_cases⟩

/-! ## COMMIT keeps the ranges (R167, R168) -/

/-- PACK follows where the eighth operation is pending. -/
theorem Enc.afterCommit_inRange {e : Enc} (h : e.CountersBounded) : e.afterCommit.inRange = true := by
  have hq8 : e.qn.toNat ≤ 8 := h.1.1
  by_cases hq : e.qn = 8
  · have hp : e.afterCommit.ph = .pack := by simp only [Enc.afterCommit, hq, if_true]
    exact (Enc.inRange_pack hp).mpr ⟨h, by show e.qn.toNat = 8; rw [hq]; rfl⟩
  · have hp : e.afterCommit.ph = .guard := by simp only [Enc.afterCommit, hq, if_false]
    refine (Enc.inRange_guard hp).mpr ⟨h, ?_⟩
    have hne : e.qn.toNat ≠ 8 := BitVec.toNat_ne.mp hq
    show e.qn.toNat ≤ 7
    omega

theorem toNat_add_one_of_le {w : Nat} {x : BitVec w} (k : Nat) (h : x.toNat ≤ k) (hk : k + 1 < 2 ^ w) :
    (x + 1#w).toNat = x.toNat + 1 := by
  rw [BitVec.toNat_add, BitVec.toNat_ofNat, Nat.mod_eq_of_lt (show 1 < 2 ^ w by omega), Nat.mod_eq_of_lt (by omega)]

theorem Enc.commitLit_inRange {e : Enc} (hp : e.ph = .commit) (h : e.inRange = true) (b : Byte) :
    (e.commitLit b).inRange = true ∧ (e.commitLit b).spos.toNat = e.spos.toNat + 1 := by
  obtain ⟨⟨⟨hq8, hqb, hqb2, hlit, htot⟩, hsn, hn, hsize⟩, hq, hs, -⟩ := (Enc.inRange_commit hp).mp h
  have hqn : (e.qn + 1#4).toNat = e.qn.toNat + 1 := toNat_add_one_of_le 7 hq (by decide)
  have hqbn : (e.qbn + 1#5).toNat = e.qbn.toNat + 1 := toNat_add_one_of_le 14 (by omega) (by decide)
  have hl : (e.litops + 1#33).toNat = e.litops.toNat + 1 := toNat_add_one_of_le (2 ^ 32) (by omega) (by decide)
  have ht : (e.totops + 1#33).toNat = e.totops.toNat + 1 := toNat_add_one_of_le (2 ^ 32) (by omega) (by decide)
  have hsp : (e.spos + 1#33).toNat = e.spos.toNat + 1 := toNat_add_one_of_le (2 ^ 32) (by omega) (by decide)
  refine ⟨Enc.afterCommit_inRange ?_, hsp⟩
  simp only [Enc.CountersBounded, Enc.CountersInRange, Enc.ringWrite_qn, Enc.ringWrite_qbn, Enc.ringWrite_litops,
    Enc.ringWrite_totops, Enc.ringWrite_spos, Enc.ringWrite_n, Enc.ringWrite_optr, Enc.pushByte_qn, Enc.pushByte_qbn,
    Enc.pushByte_litops, Enc.pushByte_totops, Enc.pushByte_spos, Enc.pushByte_n, Enc.pushByte_optr,
    BitVec.ofNat_eq_ofNat, hqn, hqbn, hl, ht, hsp]
  omega

/-- `RingWrite` of several bytes changes the ring and the cursor alone (R171). -/
theorem Enc.ringWriteAll_frame (bs : List Byte) (e : Enc) :
    e.ringWriteAll bs = { e with ring := (e.ringWriteAll bs).ring, rcur := (e.ringWriteAll bs).rcur } := by
  induction bs generalizing e with
  | nil => rfl
  | cons b bs ih => exact ih (e.ringWrite b)

/-- The length of a REF to be committed covers at least three bytes of the input that is left (R157, R166). -/
theorem Enc.commitRef_len {e : Enc} (hp : e.ph = .commit) (hk : e.kind = .ref) (h : e.inRange = true) :
    3 ≤ e.best.len.toNat ∧ e.spos.toNat + e.best.len.toNat ≤ e.n.toNat := by
  obtain ⟨-, -, -, hb, hkind⟩ := (Enc.inRange_commit hp).mp h
  obtain ⟨h3, -, hle⟩ := (e.bestInRange_iff).mp hb (hkind.resolve_left (by rw [hk]; decide))
  exact ⟨h3, hle⟩

theorem Enc.commitRef_inRange {e : Enc} (hp : e.ph = .commit) (hk : e.kind = .ref) (h : e.inRange = true)
    (bs : List Byte) :
    (e.commitRef bs).inRange = true ∧ (e.commitRef bs).spos.toNat = e.spos.toNat + e.best.len.toNat := by
  obtain ⟨h3, hle⟩ := Enc.commitRef_len hp hk h
  obtain ⟨⟨⟨hq8, hqb, hqb2, hlit, htot⟩, hsn, hn, hsize⟩, hq, -⟩ := (Enc.inRange_commit hp).mp h
  have hqn : (e.qn + 1#4).toNat = e.qn.toNat + 1 := toNat_add_one_of_le 7 hq (by decide)
  have hqbn₁ : (e.qbn + 1#5).toNat = e.qbn.toNat + 1 := toNat_add_one_of_le 14 (by omega) (by decide)
  have hqbn : (e.qbn + 1#5 + 1#5).toNat = e.qbn.toNat + 2 := by
    rw [toNat_add_one_of_le 15 (by omega) (by decide), hqbn₁]
  have ht : (e.totops + 1#33).toNat = e.totops.toNat + 1 := toNat_add_one_of_le (2 ^ 32) (by omega) (by decide)
  have hlen := e.best.len.isLt
  have hsp : (e.spos + e.best.len.setWidth 33).toNat = e.spos.toNat + e.best.len.toNat := by
    rw [BitVec.toNat_add, BitVec.toNat_setWidth, Nat.mod_eq_of_lt (show e.best.len.toNat < 2 ^ 33 by omega),
      Nat.mod_eq_of_lt (by omega)]
  unfold Enc.commitRef
  rw [Enc.ringWriteAll_frame]
  refine ⟨Enc.afterCommit_inRange ?_, hsp⟩
  simp only [Enc.CountersBounded, Enc.CountersInRange, Enc.pushByte_qn, Enc.pushByte_qbn,
    Enc.pushByte_litops, Enc.pushByte_totops, Enc.pushByte_spos, Enc.pushByte_n, Enc.pushByte_optr,
    BitVec.ofNat_eq_ofNat, hqn, hqbn, ht, hsp]
  omega

/-! ## PACK and FLUSH -/

/-- A block is its flag byte and the bytes in use (R170). -/
theorem Enc.blockWire_length {e : Enc} (h : e.qbn.toNat ≤ 16) : e.blockWire.length = e.qbn.toNat + 1 := by
  simp [Enc.blockWire, h]

/-- Block emission empties the queue and moves `OPTR`; of ENC only the shadow changes beside (R170). -/
theorem writeBlock_enc (s : State) :
    (writeBlock s).enc =
      { s.enc with optr := s.enc.optr + BitVec.ofNat 34 s.enc.blockWire.length, qn := 0, qflag := 0
                   qb := Config.freeQueue s.draws, qbn := 0
                   shadow := s.enc.shadow.map (Shadow.feedAll s.inX s.enc.blockWire) } := rfl

theorem packStep_inRange {s : State} (hp : s.enc.ph = .pack) (h : s.enc.inRange = true) :
    (packStep s).enc.inRange = true := by
  obtain ⟨⟨⟨hq8, hqb, hqb2, hlit, htot⟩, hsn, hn, hsize⟩, hq⟩ := (Enc.inRange_pack hp).mp h
  have hoptr : (s.enc.optr + BitVec.ofNat 34 (s.enc.qbn.toNat + 1)).toNat = s.enc.optr.toNat + (s.enc.qbn.toNat + 1) := by
    rw [BitVec.toNat_add, BitVec.toNat_ofNat, Nat.mod_eq_of_lt (show s.enc.qbn.toNat + 1 < 2 ^ 34 by omega),
      Nat.mod_eq_of_lt (by omega)]
  refine (Enc.inRange_guard rfl).mpr ⟨?_, Nat.zero_le 7⟩
  simp only [packStep, writeBlock_enc, Enc.blockWire_length (show s.enc.qbn.toNat ≤ 16 by omega), Enc.CountersBounded,
    Enc.CountersInRange, BitVec.ofNat_eq_ofNat, BitVec.toNat_ofNat, Nat.zero_mod, hoptr]
  omega

/-- FLUSH raises the fault and does nothing else, or ends the run with an empty queue (R173, R182). -/
theorem flushStep_cases (s : State) :
    flushStep s = raiseFault .enc .roundTripMismatch .none s ∨
    (s.enc.qn = 0 ∧ ∃ sh, flushStep s = { s with enc := { s.enc with shadow := sh, st := .done } }) ∨
    (s.enc.qn ≠ 0 ∧ ∃ sh, flushStep s = { writeBlock s with enc := { (writeBlock s).enc with shadow := sh, st := .done } }) := by
  by_cases hq : s.enc.qn = 0
  · simp only [flushStep, hq, if_true]
    split
    · exact .inr (.inl ⟨trivial, _, rfl⟩)
    · exact .inl rfl
  · simp only [flushStep, hq, if_false]
    split
    · exact .inr (.inr ⟨hq, _, rfl⟩)
    · exact .inl rfl

/-- What a phase of ENC leaves in range: everything while the run goes on, the queue and the counters where it ends. -/
theorem encRunPhase_inRange {s t : State} (hr : s.enc.inRange = true) (h : encRunPhase s = .next t) :
    t.enc.CountersInRange ∧ t.enc.spos.toNat ≤ t.enc.n.toNat ∧
      (t.enc.inRange = true ∨ t.enc.st = .done ∨ t.enc.st = .fault) := by
  have of_inRange : ∀ e : Enc, e.inRange = true →
      e.CountersInRange ∧ e.spos.toNat ≤ e.n.toNat ∧ (e.inRange = true ∨ e.st = .done ∨ e.st = .fault) := by
    intro e he
    obtain ⟨hc, hs, -⟩ := Enc.inRange_bounds he
    exact ⟨hc, hs, .inl he⟩
  rcases encRunPhase_next h with ⟨hp, rfl⟩ | ⟨hp, rfl⟩ | ⟨hp, rfl⟩ | ⟨hp, -, b, rest, -, rfl⟩ | ⟨hp, hk, -, rfl⟩ |
    ⟨hp, rfl⟩ | ⟨hp, rfl⟩
  · exact of_inRange _ (Enc.guardStep_inRange hp hr)
  · exact of_inRange _ (Enc.searchStep_inRange hp hr _)
  · exact of_inRange _ (Enc.selectStep_inRange hp hr)
  · exact of_inRange _ (Enc.commitLit_inRange hp hr b).1
  · exact of_inRange _ (Enc.commitRef_inRange hp hk hr _).1
  · exact of_inRange _ (packStep_inRange hp hr)
  · obtain ⟨⟨hq8, hqb, hqb2, hlit, htot⟩, hsn, -⟩ := Enc.inRange_bounds hr
    rcases flushStep_cases s with heq | ⟨-, sh, heq⟩ | ⟨-, sh, heq⟩ <;> rw [heq]
    · exact ⟨⟨hq8, hqb, hqb2, hlit, htot⟩, hsn, .inr (.inr rfl)⟩
    · exact ⟨⟨hq8, hqb, hqb2, hlit, htot⟩, hsn, .inr (.inl rfl)⟩
    · exact ⟨⟨Nat.zero_le _, Nat.zero_le _, Nat.zero_le _, hlit, htot⟩, hsn, .inr (.inl rfl)⟩

/-! ## The ring of ENC holds the input covered (R59 (e), R171) -/

theorem lastIndex_lt {k j : Nat} (h : j < k) : lastIndex k j < k := by
  unfold lastIndex
  omega

/-- R59 (e) speaks of the first `k` bytes alone. -/
theorem RingHolds.congr {r : Ring} {k : Nat} {f g : Nat → Option Byte} (h : RingHolds r k f) (hfg : ∀ j, j < k → f j = g j) :
    RingHolds r k g := by
  intro a
  have ha := h a
  dsimp only at ha ⊢
  split at ha
  · rename_i hk
    rw [if_pos hk]; exact ha
  · rename_i hk
    rw [if_neg hk, ← hfg _ (lastIndex_lt (Nat.not_le.mp hk))]; exact ha

/-- The `k`-th byte of `x` written at the cursor (R171); `Emit` into a space that holds `x` says the same (R129). -/
theorem RingHolds.write {r : Ring} {k : Nat} {x : List Byte} {v : Byte} (hr : r.wf) (h : RingHolds r k (fun j => x[j]?))
    (hv : x[k]? = some v) :
    RingHolds (r.write (Config.cursorInit + BitVec.ofNat 12 k) v) (k + 1) (fun j => x[j]?) := by
  have hk : k < x.length := (List.getElem?_eq_some_iff.mp hv).1
  have hread : ∀ j, j < k → x[j]? = (Memory.writeAll [] 0 x).read j := by
    intro j hj
    rw [Memory.read_writeAll, if_pos ⟨Nat.zero_le _, by omega⟩, Nat.sub_zero]
  refine (RingHolds.emit hr (h.congr hread)).congr fun j hj => ?_
  rw [Memory.read_write]
  split
  · rename_i heq
    rw [heq, hv]
  · exact (hread j (by omega)).symm

/-- The cursor follows the source position, and the ring holds the input covered. -/
def EncContent (s : State) : Prop :=
  s.enc.rcur = Config.cursorInit + BitVec.ofNat 12 s.enc.spos.toNat ∧
  RingHolds s.enc.ring s.enc.spos.toNat (fun j => s.inX[j]?)

/-- Input bytes written in order from the `k`-th on (R168, R171). -/
theorem Enc.ringWriteAll_holds {x bs : List Byte} {k : Nat} {e : Enc} (hr : e.ring.wf)
    (hcur : e.rcur = Config.cursorInit + BitVec.ofNat 12 k) (h : RingHolds e.ring k (fun j => x[j]?))
    (hbs : ∀ i, i < bs.length → x[k + i]? = bs[i]?) :
    (e.ringWriteAll bs).rcur = Config.cursorInit + BitVec.ofNat 12 (k + bs.length) ∧
    RingHolds (e.ringWriteAll bs).ring (k + bs.length) (fun j => x[j]?) := by
  induction bs generalizing e k with
  | nil => exact ⟨hcur, h⟩
  | cons b bs ih =>
    have hb : x[k]? = some b := hbs 0 (Nat.zero_lt_succ _)
    have hwrite : RingHolds (e.ringWrite b).ring (k + 1) (fun j => x[j]?) := by
      rw [Enc.ringWrite_ring, hcur]
      exact h.write hr hb
    have hnext : (e.ringWrite b).rcur = Config.cursorInit + BitVec.ofNat 12 (k + 1) := by
      rw [Enc.ringWrite_rcur, hcur]
      exact cursor_succ k
    have htail : ∀ i, i < bs.length → x[k + 1 + i]? = bs[i]? := by
      intro i hi
      have := hbs (i + 1) (Nat.succ_lt_succ hi)
      rwa [List.getElem?_cons_succ, ← Nat.add_assoc, Nat.add_right_comm] at this
    have hgo := ih (Ring.write_wf hr _ _) hnext hwrite htail
    rw [Nat.add_right_comm, Nat.add_assoc] at hgo
    exact hgo

theorem EncContent.commitLit {s : State} {b : Byte} {rest : List Byte} (h : EncContent s) (hp : s.enc.ph = .commit)
    (hr : s.enc.inRange = true) (hwf : s.enc.ring.wf) (hx : s.pixelRest = b :: rest) :
    EncContent { s with enc := s.enc.commitLit b } := by
  obtain ⟨hcur, hholds⟩ := h
  have hb : s.inX[s.enc.spos.toNat]? = some b := by
    rw [← Nat.add_zero s.enc.spos.toNat, ← List.getElem?_drop]
    exact congrArg (fun l => l[0]?) hx
  unfold EncContent
  rw [(Enc.commitLit_inRange hp hr b).2]
  refine ⟨?_, ?_⟩
  · show s.enc.rcur + 1 = _
    rw [hcur]
    exact cursor_succ _
  · show RingHolds (s.enc.ring.write s.enc.rcur b) _ _
    rw [hcur]
    exact hholds.write hwf hb

theorem EncContent.commitRef {s : State} (h : EncContent s) (hp : s.enc.ph = .commit) (hk : s.enc.kind = .ref)
    (hr : s.enc.inRange = true) (hwf : s.enc.ring.wf) (hl : s.enc.best.len.toNat ≤ s.pixelRest.length) :
    EncContent { s with enc := s.enc.commitRef (s.pixelRest.take s.enc.best.len.toNat) } := by
  obtain ⟨hcur, hholds⟩ := h
  have hlen : (s.pixelRest.take s.enc.best.len.toNat).length = s.enc.best.len.toNat := by
    rw [List.length_take, Nat.min_eq_left hl]
  have hbs : ∀ i, i < (s.pixelRest.take s.enc.best.len.toNat).length →
      s.inX[s.enc.spos.toNat + i]? = (s.pixelRest.take s.enc.best.len.toNat)[i]? := by
    intro i hi
    rw [hlen] at hi
    rw [List.getElem?_take_of_lt hi, State.pixelRest, List.getElem?_drop]
  have hwritten :=
    Enc.ringWriteAll_holds (e := (s.enc.pushByte (refU s.enc.bpos s.enc.best.len)).pushByte (refL s.enc.bpos))
      hwf hcur hholds hbs
  rw [hlen] at hwritten
  unfold EncContent
  rw [(Enc.commitRef_inRange hp hk hr _).2]
  exact hwritten

/-- Every phase of ENC keeps cursor and ring content. -/
theorem encRunPhase_content {s t : State} (hr : s.enc.inRange = true) (hwf : s.enc.ring.wf) (hc : EncContent s)
    (h : encRunPhase s = .next t) : EncContent t := by
  rcases encRunPhase_next h with ⟨-, rfl⟩ | ⟨-, rfl⟩ | ⟨-, rfl⟩ | ⟨hp, -, b, rest, hx, rfl⟩ | ⟨hp, hk, hl, rfl⟩ |
    ⟨-, rfl⟩ | ⟨-, rfl⟩
  · show EncContent { s with enc := if _ then _ else _ }
    split <;> exact hc
  · exact hc
  · exact hc
  · exact hc.commitLit hp hr hwf hx
  · exact hc.commitRef hp hk hr hwf hl
  · exact hc
  · rcases flushStep_cases s with heq | ⟨-, sh, heq⟩ | ⟨-, sh, heq⟩ <;> rw [heq] <;> exact hc

end Sys2Proof.Machine
end

section
/-! SUPPORT. The invariant of ENC (R59): what each kind of event can do to ENC, said once, that each keeps the invariant, and
that with the invariants of both engines no step is stuck. -/

namespace Sys2Proof.Machine

/-! ## What a step can do to ENC -/

/-- The host acts on ENC by no rule that its invariant can feel: IE and, in a stopped engine, the configuration. -/
structure Enc.SameRun (e e' : Enc) : Prop where
  st : e'.st = e.st
  n : e'.n = e.n
  spos : e'.spos = e.spos
  ring : e'.ring = e.ring
  rcur : e'.rcur = e.rcur
  counters : e.CountersInRange → e'.CountersInRange
  inRange : e'.inRange = e.inRange

theorem Enc.SameRun.refl (e : Enc) : e.SameRun e := ⟨rfl, rfl, rfl, rfl, rfl, id, rfl⟩

theorem Enc.SameRun.ie (e : Enc) (ie : Bool) : e.SameRun { e with ie := ie } := ⟨rfl, rfl, rfl, rfl, rfl, id, rfl⟩

theorem Enc.SameRun.config (e : Enc) (tlr : BitVec 17) (minlen maxlen : BitVec 5) (depth : BitVec 13)
    (lw : Vector (BitVec 16) 16) (dw : Vector (BitVec 16) 12) (lazy : Bool) :
    e.SameRun { e with tlr := tlr, minlen := minlen, maxlen := maxlen, depth := depth, lw := lw, dw := dw, lazy := lazy } :=
  ⟨rfl, rfl, rfl, rfl, rfl, id, rfl⟩

/-- A host register write, as ENC sees it: ENC leaves the states of R59, with an `N` that R34 allows where it enters INIT; or
its run is as before; or `N` of a stopped ENC changes alone. -/
theorem writeRegister_next_enc {engine : Engine} {offset : BitVec 16} {v : Word} {s t : State}
    (h : writeRegister engine offset v s = .next t) :
    t.inX = s.inX ∧
    ((t.enc.st.started = false ∧ (t.enc.st = .init → t.enc.n.toNat ≤ 2 ^ 32)) ∨
     s.enc.SameRun t.enc ∨
     (s.enc.st.stopped = true ∧ engine = .enc ∧ offset ∈ [0x08#16, 0x0C#16] ∧ t.enc = { s.enc with n := t.enc.n })) := by
  unfold writeRegister at h
  split at h
  · rcases writeCtrl_next h with rfl | rfl | ⟨rfl, -, -, rfl⟩ | ⟨rfl, -, hn, -, rfl⟩
    · cases engine with
      | dec => exact ⟨rfl, .inr (.inl (.refl _))⟩
      | enc => exact ⟨rfl, .inl ⟨rfl, nofun⟩⟩
    · cases engine with
      | dec => exact ⟨rfl, .inr (.inl (.refl _))⟩
      | enc => exact ⟨rfl, .inr (.inl (.ie _ _))⟩
    · exact ⟨rfl, .inr (.inl (.refl _))⟩
    · exact ⟨rfl, .inl ⟨rfl, fun _ => hn⟩⟩
  · rcases writeProgrammable_next h with rfl | ⟨rfl, -, d, -, rfl⟩ | ⟨rfl, hst, e, hw, rfl⟩
    · exact ⟨rfl, .inr (.inl (.refl _))⟩
    · exact ⟨rfl, .inr (.inl (.refl _))⟩
    · rcases Enc.writeReg_some hw with ⟨ho, he⟩ | he
      · refine ⟨rfl, .inr (.inr ⟨hst, rfl, ?_, he⟩)⟩
        simp only [List.mem_cons, List.not_mem_nil, or_false, ← BitVec.toNat_inj] at ho ⊢
        exact ho
      · refine ⟨rfl, .inr (.inl ?_)⟩
        rw [he]
        exact .config _ _ _ _ _ _ _ _

/-- What any step can do to ENC and `X`: a phase step of ENC, or what the host can do to it. -/
theorem step_next_enc {s t : State} (h : step s = .next t) :
    (∃ rest, encStep { s with agenda := rest } = .next t) ∨
    (t.enc.st.started = false ∧ (t.enc.st = .init → t.enc.n.toNat ≤ 2 ^ 32)) ∨
    (t.inX = s.inX ∧ s.enc.SameRun t.enc) ∨
    (t.inX = s.inX ∧ s.enc.st.stopped = true ∧ t.enc = { s.enc with n := t.enc.n } ∧
      ∃ offset value rest, offset ∈ [0x08#16, 0x0C#16] ∧ s.agenda = .host (.write .enc offset value) :: rest) ∨
    (s.enc.st.stopped = true ∧ t.enc = s.enc ∧ ∃ bytes rest, s.agenda = .host (.bindPixels bytes) :: rest) := by
  have of_decReaches : ∀ rest, DecReaches { s with agenda := rest } t → t.inX = s.inX ∧ s.enc.SameRun t.enc := by
    intro rest hreach
    rw [hreach.frame.1]
    exact ⟨rfl, .refl _⟩
  rcases step_cases s with ⟨event, rest, ha, hstep⟩ | ⟨ha, -, hstep⟩ | ⟨ha, -, hstep⟩ <;> rw [h] at hstep
  · cases event with
    | host action =>
      cases action with
      | hardwareReset => rw [Host.Outcome.next.inj hstep]; exact .inr (.inl ⟨rfl, nofun⟩)
      | write engine offset value =>
        rcases writeRegister_next_enc hstep.symm with ⟨hX, hst | hrun | ⟨hst, rfl, ho, he⟩⟩
        · exact .inr (.inl hst)
        · exact .inr (.inr (.inl ⟨hX, hrun⟩))
        · exact .inr (.inr (.inr (.inl ⟨hX, hst, he, offset, value, rest, ho, ha⟩)))
      | read engine offset =>
        rw [readRegister_next hstep.symm]
        exact .inr (.inr (.inl ⟨rfl, .refl _⟩))
      | bindStream bytes =>
        rw [(hostStep_bindStream_next hstep.symm).2]
        exact .inr (.inr (.inl ⟨rfl, .refl _⟩))
      | bindPixels bytes =>
        obtain ⟨hst, rfl⟩ := hostStep_bindPixels_next hstep.symm
        exact .inr (.inr (.inr (.inr ⟨hst, rfl, bytes, rest, ha⟩)))
    | phase engine =>
      cases engine with
      | dec => exact .inr (.inr (.inl (of_decReaches rest (.single hstep.symm))))
      | enc => exact .inl ⟨rest, hstep.symm⟩
    | operation => exact .inr (.inr (.inl (of_decReaches rest (decOperation_reaches hstep.symm))))
  · exact .inl ⟨s.agenda, hstep.symm⟩
  · exact .inr (.inr (.inl (of_decReaches s.agenda (.single hstep.symm))))

/-! ## Every step keeps the invariant -/

/-- The invariant says of an ENC that has left the states of R59 only that `N` is allowed in INIT. -/
theorem EncInvariant.of_not_started {s : State} (h : s.enc.st.started = false)
    (hn : s.enc.st = .init → s.enc.n.toNat ≤ 2 ^ 32) : EncInvariant s ∧ EncCoversInput s := by
  have hrun : s.enc.st ≠ .run := by rintro hst; rw [hst] at h; cases h
  exact ⟨⟨hn, fun hr => absurd hr hrun, fun hs => by rw [h] at hs; cases hs⟩, fun hs => by rw [h] at hs; cases hs⟩

/-- What a running ENC holds is what the invariant asks for, in the run and where it ends. -/
theorem EncInvariant.of_content {s : State} (hinit : s.enc.st ≠ .init) (hc : s.enc.CountersInRange)
    (hs : s.enc.spos.toNat ≤ s.enc.n.toNat) (hcontent : EncContent s) (hr : s.enc.st = .run → s.enc.inRange = true) :
    EncInvariant s ∧ EncCoversInput s := by
  obtain ⟨hcur, hholds⟩ := hcontent
  exact ⟨⟨fun h => absurd h hinit, fun h => ⟨hr h, hholds⟩, fun _ => ⟨hc, hcur, s.inX, hholds⟩⟩, fun _ => ⟨hs, hholds⟩⟩

/-- The INIT step of ENC establishes the invariant (R153). -/
theorem encInit_invariant {s : State} (hn : s.enc.n.toNat ≤ 2 ^ 32) (qb : Vector Byte 16) (draws : Nat) :
    EncInvariant { s with enc := s.enc.init qb, draws := draws } ∧
    EncCoversInput { s with enc := s.enc.init qb, draws := draws } := by
  have hrange : (s.enc.init qb).inRange = true :=
    (Enc.inRange_guard rfl).mpr
      ⟨⟨⟨Nat.zero_le _, Nat.zero_le _, Nat.zero_le _, Nat.zero_le _, Nat.zero_le _⟩, Nat.zero_le _, hn, Nat.zero_le _⟩,
        Nat.zero_le _⟩
  obtain ⟨hc, hs, -⟩ := Enc.inRange_bounds hrange
  exact EncInvariant.of_content nofun hc hs ⟨rfl, RingHolds.seeded _⟩ fun _ => hrange

/-- A phase of a running ENC does not lead back to INIT or IDLE. -/
theorem encRunPhase_st {s t : State} (hst : s.enc.st = .run) (h : encRunPhase s = .next t) :
    t.enc.st = .run ∨ t.enc.st = .done ∨ t.enc.st = .fault := by
  rcases encRunPhase_next h with ⟨-, rfl⟩ | ⟨-, rfl⟩ | ⟨-, rfl⟩ | ⟨-, -, b, rest, -, rfl⟩ | ⟨-, -, -, rfl⟩ | ⟨-, rfl⟩ |
    ⟨-, rfl⟩
  · refine .inl ?_
    show (Enc.guardStep _).st = _
    unfold Enc.guardStep
    split <;> exact hst
  · exact .inl hst
  · exact .inl hst
  · exact .inl hst
  · refine .inl ?_
    unfold Enc.commitRef
    rw [Enc.ringWriteAll_frame]
    exact hst
  · exact .inl hst
  · rcases flushStep_cases s with heq | ⟨-, sh, heq⟩ | ⟨-, sh, heq⟩ <;> rw [heq] <;> simp

/-- A phase step of ENC keeps its invariant, and what `EncCoversInput` says with it. -/
theorem encStep_keeps_invariant {s t : State} (hwf : s.enc.ring.wf) (hi : EncInvariant s) (h : encStep s = .next t) :
    EncInvariant t ∧ (EncCoversInput s → EncCoversInput t) := by
  rcases encStep_next h with ⟨-, rfl⟩ | ⟨hst, rfl⟩ | ⟨hst, -, hr, hphase⟩
  · exact ⟨hi, id⟩
  · obtain ⟨hit, hct⟩ := encInit_invariant (hi.1 hst) (Config.freeQueue s.draws) (s.draws + 1)
    exact ⟨hit, fun _ => hct⟩
  · obtain ⟨-, hrun, hstarted⟩ := hi
    have hcontent : EncContent s := ⟨(hstarted (by rw [hst]; rfl)).2.1, (hrun hst).2⟩
    obtain ⟨hc, hs, hend⟩ := encRunPhase_inRange hr hphase
    have hstt := encRunPhase_st hst hphase
    obtain ⟨hit, hct⟩ := EncInvariant.of_content (s := t) (by rintro hinit; simp [hinit] at hstt) hc hs
      (encRunPhase_content hr hwf hcontent hphase) fun hr' => hend.resolve_right (by simp [hr'])
    exact ⟨hit, fun _ => hct⟩

/-- An unchanged run keeps the invariant. -/
theorem EncInvariant.sameRun {s t : State} (hX : t.inX = s.inX) (hrun : s.enc.SameRun t.enc) (hi : EncInvariant s) :
    EncInvariant t ∧ (EncCoversInput s → EncCoversInput t) := by
  unfold EncInvariant EncCoversInput
  rw [hX, hrun.st, hrun.n, hrun.spos, hrun.ring, hrun.rcur, hrun.inRange]
  obtain ⟨hinit, hr, hstarted⟩ := hi
  exact ⟨⟨hinit, hr, fun hs => ⟨hrun.counters (hstarted hs).1, (hstarted hs).2⟩⟩, id⟩

/-- What the host does to a stopped ENC beside START leaves what the invariant says of it, `N` and `X` aside. -/
theorem EncInvariant.stopped {s t : State} (hst : s.enc.st.stopped = true) (he : t.enc = { s.enc with n := t.enc.n })
    (hi : EncInvariant s) : EncInvariant t := by
  have hinit : s.enc.st ≠ .init := by intro h; rw [h] at hst; cases hst
  have hrun : s.enc.st ≠ .run := by intro h; rw [h] at hst; cases hst
  have hstt : t.enc.st = s.enc.st := by rw [he]
  refine ⟨fun h => absurd (hstt ▸ h) hinit, fun h => absurd (hstt ▸ h) hrun, fun h => ?_⟩
  have hs := hi.2.2 (hstt ▸ h)
  rw [he]
  exact hs

/-- Settles O51: a phase step keeps the invariant; every other event leaves the states of R59, leaves the run as it was, or
changes `N` or `X` of a stopped ENC. -/
theorem stepKeepsEncInvariant : Obligations.StepKeepsEncInvariant := by
  intro s t hwf hi h
  rcases step_next_enc h with ⟨rest, hstep⟩ | ⟨hst, hn⟩ | ⟨hX, hrun⟩ | ⟨-, hst, he, offset, value, rest, ho, ha⟩ |
    ⟨hst, he, bytes, rest, ha⟩
  · obtain ⟨hit, hct⟩ := encStep_keeps_invariant (s := { s with agenda := rest }) hwf hi hstep
    exact ⟨hit, fun _ _ => hct⟩
  · obtain ⟨hit, hct⟩ := EncInvariant.of_not_started hst hn
    exact ⟨hit, fun _ _ _ => hct⟩
  · obtain ⟨hit, hct⟩ := hi.sameRun hX hrun
    exact ⟨hit, fun _ _ => hct⟩
  · exact ⟨hi.stopped hst he, fun hno => absurd ha (hno offset value rest ho)⟩
  · exact ⟨hi.stopped hst (by rw [he]), fun _ hno => absurd ha (hno bytes rest)⟩

/-! ## At the start, and no step is stuck -/

/-- Settles O24, one field after another; the ring is the pre-seed by definition of `Ring.seeded`. -/
theorem initStepOfEnc : Obligations.InitStepOfEnc := by
  intro s hst
  have hstep : encStep s = .next { s with enc := s.enc.init (Config.freeQueue s.draws), draws := s.draws + 1 } := by
    simp only [encStep, hst]
  refine ⟨_, hstep, fun a => rfl, rfl, fun hnone => ?_, fun sh hsh => ?_⟩
  · show s.enc.shadow.map _ = none
    rw [hnone]; rfl
  · refine ⟨Shadow.init s.enc.n sh, ?_, fun a => rfl, rfl⟩
    show s.enc.shadow.map _ = _
    rw [hsh]; rfl

/-- Settles O52: at reset both engines are IDLE, of which the invariants say nothing; an INIT step establishes them. -/
theorem invariantsHoldAtStart : Obligations.InvariantsHoldAtStart := by
  refine ⟨fun selfCheck => ?_, DecInvariant.of_not_started rfl, EncInvariant.of_not_started rfl nofun, ?_, ?_⟩
  · refine ⟨Ring.drawn_wf 0, Ring.drawn_wf 1, fun sh hsh => ?_, ⟨.nil, nofun⟩, ⟨.nil, nofun⟩⟩
    cases selfCheck with
    | true => rw [← Option.some.inj hsh]; exact Ring.drawn_wf 2
    | false => cases hsh
  · intro s t hst h
    rcases decStep_next h with ⟨hstop, -⟩ | ⟨-, rfl⟩ | ⟨hrun, -⟩
    · rw [hst] at hstop; cases hstop
    · exact decInit_invariant s
    · rw [hst] at hrun; cases hrun
  · intro s t hst hn h
    rcases encStep_next h with ⟨hstop, -⟩ | ⟨-, rfl⟩ | ⟨hrun, -⟩
    · rw [hst] at hstop; cases hstop
    · exact encInit_invariant hn _ _
    · rw [hst] at hrun; cases hrun

/-- The stream operations and the commands have no fault of the model among their answers. -/
theorem exec_ne_fault (i : Instr) (s : State) (r : Fault) : exec i s ≠ .fault r := by
  cases i with
  | flag kinds => simp only [exec, execFlag]; split <;> nofun
  | lit data => simp only [exec, execLit]; split <;> nofun
  | ref position length =>
    simp only [exec, execRef]
    split
    · nofun
    · split <;> nofun
  | start engine unused ie =>
    cases engine with
    | dec =>
      simp only [exec, execStart, startDec]
      split
      · split
        · nofun
        · nofun
      · nofun
    | enc =>
      simp only [exec, execStart, startEnc]
      split
      · split
        · nofun
        · split <;> nofun
      · nofun
  | abort engine unused ie startBit => nofun

theorem hostStep_ne_fault (a : HostAction) (s : State) (r : Fault) : hostStep a s ≠ .fault r := by
  cases a with
  | hardwareReset => nofun
  | bindStream bytes => simp only [hostStep]; split <;> nofun
  | bindPixels bytes => simp only [hostStep]; split <;> nofun
  | read engine offset => simp only [hostStep, readRegister]; split <;> nofun
  | write engine offset value =>
    simp only [hostStep, writeRegister]
    split
    · simp only [writeCtrl]
      split
      · exact exec_ne_fault _ s r
      · nofun
    · cases engine with
      | dec =>
        simp only [writeProgrammable]
        split
        · split <;> nofun
        · nofun
        · nofun
      | enc =>
        simp only [writeProgrammable]
        split
        · split <;> nofun
        · nofun
        · nofun

/-- A phase step of DEC is stuck only with registers that no rule produces (93 U16). -/
theorem decStep_fault {s : State} {r : Fault} (h : decStep s = .fault r) : s.dec.st = .run ∧ s.dec.inRange = false := by
  unfold decStep at h
  cases hst : s.dec.st <;> simp only [hst, reduceCtorEq] at h
  split at h
  · cases h
  · split at h
    · obtain ⟨t, ht⟩ := decRunPhase_goesOn s
      rw [ht] at h; cases h
    · rename_i hr
      exact ⟨rfl, Bool.eq_false_of_not_eq_true hr⟩

theorem decOperation_fault {s : State} {r : Fault} (h : decOperation s = .fault r) :
    s.dec.st = .run ∧ s.dec.inRange = false := by
  unfold decOperation at h
  split at h
  · rename_i i hst hdue
    split at h
    · cases h
    · split at h
      · exact absurd h (exec_ne_fault i s r)
      · rename_i hr
        exact ⟨hst, Bool.eq_false_of_not_eq_true hr⟩
  · exact decStep_fault h

theorem encRunPhase_ne_fault (s : State) (r : Fault) : encRunPhase s ≠ .fault r := by
  unfold encRunPhase
  cases s.enc.ph with
  | commit =>
    simp only [commitStep]
    cases s.enc.kind with
    | lit => cases s.pixelRest <;> nofun
    | ref => simp only []; split <;> nofun
  | guard => nofun
  | search => nofun
  | select => nofun
  | pack => nofun
  | flush => nofun

theorem encStep_fault {s : State} {r : Fault} (h : encStep s = .fault r) : s.enc.st = .run ∧ s.enc.inRange = false := by
  unfold encStep at h
  cases hst : s.enc.st <;> simp only [hst, reduceCtorEq] at h
  split at h
  · cases h
  · split at h
    · exact absurd h (encRunPhase_ne_fault s r)
    · rename_i hr
      exact ⟨rfl, Bool.eq_false_of_not_eq_true hr⟩

/-- Settles O53: a step is stuck only in RUN with registers out of range, which the invariants exclude. -/
theorem noStepIsStuck : Obligations.NoStepIsStuck := by
  intro s r hd he h
  have dec_ok : ¬ (s.dec.st = .run ∧ s.dec.inRange = false) := fun ⟨hst, hr⟩ => by
    rw [hd.1 hst] at hr; cases hr
  have enc_ok : ¬ (s.enc.st = .run ∧ s.enc.inRange = false) := fun ⟨hst, hr⟩ => by
    rw [(he.2.1 hst).1] at hr; cases hr
  rcases step_cases s with ⟨event, rest, -, hstep⟩ | ⟨-, -, hstep⟩ | ⟨-, -, hstep⟩ <;> rw [h] at hstep
  · cases event with
    | host action => exact hostStep_ne_fault _ _ _ hstep.symm
    | phase engine =>
      cases engine with
      | dec => exact dec_ok (decStep_fault (s := { s with agenda := rest }) hstep.symm)
      | enc => exact enc_ok (encStep_fault (s := { s with agenda := rest }) hstep.symm)
    | operation => exact dec_ok (decOperation_fault (s := { s with agenda := rest }) hstep.symm)
  · exact enc_ok (encStep_fault hstep.symm)
  · exact dec_ok (decStep_fault hstep.symm)

end Sys2Proof.Machine
end

section
/-! SUPPORT. What each engine reads and writes (R20, R78, R83), and who changes the host's registers (R22, R23, R34, R51). -/

namespace Sys2Proof.Machine

/-! ## What an engine reads -/

/-- An outcome with its next state changed. -/
def mapNext (f : State → State) : Host.Outcome State Fault Refusal → Host.Outcome State Fault Refusal
  | .next t => .next (f t)
  | .fault r => .fault r
  | .refused r => .refused r

/-- The block `o` with DEC, `S` and `O` taken from `s`. -/
def State.withDecSide (o s : State) : State := { o with dec := s.dec, inS := s.inS, outO := s.outO }

/-- The block `o` with ENC, `X`, `Y` and the counter of free values taken from `s`. -/
def State.withEncSide (o s : State) : State := { o with enc := s.enc, inX := s.inX, outY := s.outY, draws := s.draws }

theorem decRunPhase_withDecSide (o s : State) : decRunPhase (o.withDecSide s) = mapNext o.withDecSide (decRunPhase s) := by
  have hrest : (o.withDecSide s).streamRest = s.streamRest := rfl
  have hdec : (o.withDecSide s).dec = s.dec := rfl
  unfold decRunPhase
  rw [hrest, hdec]
  cases s.dec.ph with
  | guard => rfl
  | bit => rfl
  | flag =>
    cases s.streamRest with
    | nil => rfl
    | cons raw rest =>
      simp only [decode, decodeStream, exec, execFlag, hdec]
      split <;> rfl
  | lit =>
    cases s.streamRest with
    | nil => rfl
    | cons raw rest =>
      simp only [decode, decodeStream, exec, execLit, hdec]
      split <;> rfl
  | refU => cases s.streamRest <;> rfl
  | refL => cases s.streamRest <;> rfl
  | copy =>
    simp only [copyStep, hdec, mapNext]
    split <;> rfl

/-- DEC, `S` and `O` alone decide what a step of DEC does. -/
theorem decStep_withDecSide (o s : State) : decStep (o.withDecSide s) = mapNext o.withDecSide (decStep s) := by
  have hdec : (o.withDecSide s).dec = s.dec := rfl
  have hS : (o.withDecSide s).inS = s.inS := rfl
  unfold decStep
  rw [hdec, hS]
  cases s.dec.st with
  | run =>
    dsimp only
    split
    · rfl
    · split
      · exact decRunPhase_withDecSide o s
      · rfl
  | init => rfl
  | idle => rfl
  | done => rfl
  | fault => rfl

theorem flushStep_withEncSide (o s : State) : flushStep (o.withEncSide s) = o.withEncSide (flushStep s) := by
  have henc : (o.withEncSide s).enc = s.enc := rfl
  unfold flushStep
  rw [henc]
  by_cases hq : s.enc.qn = 0
  · simp only [if_pos hq]
    rw [show selfCheckPasses (o.withEncSide s) = selfCheckPasses s from rfl]
    split <;> rfl
  · simp only [if_neg hq]
    rw [show selfCheckPasses (writeBlock (o.withEncSide s)) = selfCheckPasses (writeBlock s) from rfl]
    split <;> rfl

theorem encRunPhase_withEncSide (o s : State) : encRunPhase (o.withEncSide s) = mapNext o.withEncSide (encRunPhase s) := by
  have henc : (o.withEncSide s).enc = s.enc := rfl
  have hrest : (o.withEncSide s).pixelRest = s.pixelRest := rfl
  unfold encRunPhase
  rw [henc]
  cases s.enc.ph with
  | commit =>
    simp only [commitStep, henc, hrest]
    cases s.enc.kind with
    | lit => cases s.pixelRest <;> rfl
    | ref => dsimp only; split <;> rfl
  | flush => exact congrArg Host.Outcome.next (flushStep_withEncSide o s)
  | guard => rfl
  | search => rfl
  | select => rfl
  | pack => rfl

/-- ENC, `X`, `Y` and the counter of free values alone decide what a step of ENC does. -/
theorem encStep_withEncSide (o s : State) : encStep (o.withEncSide s) = mapNext o.withEncSide (encStep s) := by
  have henc : (o.withEncSide s).enc = s.enc := rfl
  have hX : (o.withEncSide s).inX = s.inX := rfl
  unfold encStep
  rw [henc, hX]
  cases s.enc.st with
  | run =>
    dsimp only
    split
    · rfl
    · split
      · exact encRunPhase_withEncSide o s
      · rfl
  | init => rfl
  | idle => rfl
  | done => rfl
  | fault => rfl

/-- Settles O46: the frame of each engine's step, and that its side of the block decides the step. -/
theorem enginesShareNothing : Obligations.EnginesShareNothing := by
  refine ⟨fun s t h => (decStep_frame h).1, fun s t h => encStep_frame h, fun s s' hd hS hO => ?_,
    fun s s' he hX hY hdr => ?_⟩
  · have hstep : decStep s' = mapNext s'.withDecSide (decStep s) := by
      rw [← decStep_withDecSide, State.withDecSide, ← hd, ← hS, ← hO]
    refine ⟨fun t h => ?_, fun r h => by rw [hstep, h]; rfl, fun r h => by rw [hstep, h]; rfl⟩
    have hSt : t.inS = s'.inS := by rw [(decStep_frame h).1, hS]
    rw [hstep, h, mapNext, State.withDecSide, hSt]
  · have hstep : encStep s' = mapNext s'.withEncSide (encStep s) := by
      rw [← encStep_withEncSide, State.withEncSide, ← he, ← hX, ← hY, ← hdr]
    refine ⟨fun t h => ?_, fun r h => by rw [hstep, h]; rfl, fun r h => by rw [hstep, h]; rfl⟩
    have hXt : t.inX = s'.inX := by rw [encStep_frame h, hX]
    rw [hstep, h, mapNext, State.withEncSide, hXt]

/-! ## Who changes the host's registers -/

/-- The configuration registers of ENC (R8, R44 to R50). -/
def Enc.policy (e : Enc) : Policy :=
  { tlr := e.tlr, minlen := e.minlen, maxlen := e.maxlen, depth := e.depth, lw := e.lw, dw := e.dw, lazy := e.lazy }

/-- A phase of ENC keeps `N` and the configuration (R34, R51 (e)). -/
theorem encRunPhase_parameters {s t : State} (h : encRunPhase s = .next t) :
    t.enc.n = s.enc.n ∧ t.enc.policy = s.enc.policy := by
  rcases encRunPhase_next h with ⟨-, rfl⟩ | ⟨-, rfl⟩ | ⟨-, rfl⟩ | ⟨-, -, b, rest, -, rfl⟩ | ⟨-, -, -, rfl⟩ | ⟨-, rfl⟩ |
    ⟨-, rfl⟩
  · show (Enc.guardStep _).n = _ ∧ (Enc.guardStep _).policy = _
    unfold Enc.guardStep
    split <;> exact ⟨rfl, rfl⟩
  · exact ⟨rfl, rfl⟩
  · exact ⟨rfl, rfl⟩
  · exact ⟨rfl, rfl⟩
  · unfold Enc.commitRef
    rw [Enc.ringWriteAll_frame]
    exact ⟨rfl, rfl⟩
  · exact ⟨rfl, rfl⟩
  · rcases flushStep_cases s with heq | ⟨-, sh, heq⟩ | ⟨-, sh, heq⟩ <;> rw [heq] <;> exact ⟨rfl, rfl⟩

theorem encStep_parameters {s t : State} (h : encStep s = .next t) :
    t.enc.n = s.enc.n ∧ t.enc.policy = s.enc.policy := by
  rcases encStep_next h with ⟨-, rfl⟩ | ⟨-, rfl⟩ | ⟨-, -, -, hphase⟩
  · exact ⟨rfl, rfl⟩
  · exact ⟨rfl, rfl⟩
  · exact encRunPhase_parameters hphase

/-- What the host programs: `P`, `SLEN`, `N` and the configuration are the same in both blocks. -/
def SameParameters (s t : State) : Prop :=
  t.dec.p = s.dec.p ∧ t.dec.slen = s.dec.slen ∧ t.enc.n = s.enc.n ∧ t.enc.policy = s.enc.policy

theorem SameParameters.of_decReaches {s t : State} (h : DecReaches s t) : SameParameters s t := by
  obtain ⟨hframe, hp, hslen⟩ := h.frame
  exact ⟨hp, hslen, by rw [hframe], by rw [hframe]⟩

theorem SameParameters.of_encStep {s t : State} (h : encStep s = .next t) : SameParameters s t := by
  obtain ⟨hn, hpolicy⟩ := encStep_parameters h
  exact ⟨by rw [encStep_frame h], by rw [encStep_frame h], hn, hpolicy⟩

/-- An event that is neither a register write nor the reset input changes no parameter. -/
theorem runEvent_sameParameters {event : Event} {s t : State} (h : runEvent event s = .next t)
    (hw : ∀ engine offset value, event ≠ .host (.write engine offset value)) (hr : event ≠ .host .hardwareReset) :
    SameParameters s t := by
  cases event with
  | host action =>
    cases action with
    | hardwareReset => exact absurd rfl hr
    | write engine offset value => exact absurd rfl (hw engine offset value)
    | read engine offset => rw [readRegister_next h]; exact ⟨rfl, rfl, rfl, rfl⟩
    | bindStream bytes => rw [(hostStep_bindStream_next h).2]; exact ⟨rfl, rfl, rfl, rfl⟩
    | bindPixels bytes => rw [(hostStep_bindPixels_next h).2]; exact ⟨rfl, rfl, rfl, rfl⟩
  | phase engine =>
    cases engine with
    | dec => exact .of_decReaches (.single h)
    | enc => exact .of_encStep h
  | operation => exact .of_decReaches (decOperation_reaches h)

/-- Settles O47, for every event that is left and for a step with no event due. -/
theorem onlyHostProgramsParameters : Obligations.OnlyHostProgramsParameters := by
  intro s t h hw hr
  have hsame : SameParameters s t := by
    rcases step_cases s with ⟨event, rest, ha, hstep⟩ | ⟨-, -, hstep⟩ | ⟨-, -, hstep⟩ <;> rw [h] at hstep
    · refine runEvent_sameParameters (s := { s with agenda := rest }) hstep.symm (fun engine offset value he => ?_)
        fun he => ?_
      · exact hw engine offset value rest (he ▸ ha)
      · exact hr rest (he ▸ ha)
    · exact .of_encStep hstep.symm
    · exact .of_decReaches (.single hstep.symm)
  obtain ⟨hp, hslen, hn, hpolicy⟩ := hsame
  simp only [Enc.policy, Policy.mk.injEq] at hpolicy
  obtain ⟨htlr, hmin, hmax, hdepth, hlw, hdw, hlazy⟩ := hpolicy
  exact ⟨hp, hslen, hn, htlr, hmin, hmax, hdepth, hlw, hdw, hlazy⟩

end Sys2Proof.Machine
end

section
/-! SUPPORT. The words of the register interface (R52, R53, R58): fields in a word, what a write stores and what a read returns. -/

namespace Sys2Proof.Machine

/-! ## Words and their fields -/

/-- Two words side by side. -/
theorem toNat_append_eq {m n : Nat} (x : BitVec m) (y : BitVec n) : (x ++ y).toNat = x.toNat * 2 ^ n + y.toNat := by
  rw [BitVec.toNat_append, ← Nat.shiftLeft_add_eq_or_of_lt y.isLt, Nat.shiftLeft_eq]

/-- A field that fits the word is its value, `2 ^ lo` times. -/
theorem toNat_field {w : Nat} {v : BitVec w} {lo : Nat} (h : v.toNat * 2 ^ lo < 2 ^ 32) :
    (field v lo).toNat = v.toNat * 2 ^ lo := by
  have hv : v.toNat < 2 ^ 32 := Nat.lt_of_le_of_lt (Nat.le_mul_of_pos_right _ (Nat.two_pow_pos lo)) h
  rw [field, BitVec.toNat_shiftLeft, BitVec.toNat_setWidth, Nat.mod_eq_of_lt hv, Nat.shiftLeft_eq, Nat.mod_eq_of_lt h]

/-- A field above the bits in use is added to them. -/
theorem toNat_or_field {w : Nat} {x : Word} {v : BitVec w} {lo : Nat} (hx : x.toNat < 2 ^ lo)
    (h : v.toNat * 2 ^ lo < 2 ^ 32) : (x ||| field v lo).toNat = x.toNat + v.toNat * 2 ^ lo := by
  rw [BitVec.toNat_or, toNat_field h, Nat.or_comm, ← Nat.shiftLeft_eq, ← Nat.shiftLeft_add_eq_or_of_lt hx, Nat.add_comm]

theorem toNat_field_zero {w : Nat} (v : BitVec w) (hw : w ≤ 32) : (field v 0).toNat = v.toNat := by
  have hv : v.toNat < 2 ^ 32 := Nat.lt_of_lt_of_le v.isLt (Nat.pow_le_pow_right (by decide) hw)
  rw [toNat_field (by rwa [Nat.pow_zero, Nat.mul_one]), Nat.pow_zero, Nat.mul_one]

/-- R58: the working registers of a stopped engine read as they are. -/
theorem working_stopped {st : RunState} (h : st.stopped = true) (draw bits value : Word) :
    working st draw bits value = value := by
  rw [working, if_pos h]

/-! ## What a write stores (R22, R23, R34, R44 to R50) -/

theorem step_of_write_dec_stopped {s : State} {offset : BitVec 16} {v : Word} {rest : List Event} {d : Dec}
    (h : s.agenda = .host (.write .dec offset v) :: rest) (ho : offset ≠ 0) (hst : s.dec.st.stopped = true)
    (hw : s.dec.writeReg offset.toNat v = some d) : step s = .next { s with agenda := rest, dec := d } := by
  rw [step_of_write h ho, writeProgrammable_dec (s := { s with agenda := rest }) hw]
  simp only [hst, if_true]

theorem step_of_write_enc_stopped {s : State} {offset : BitVec 16} {v : Word} {rest : List Event} {e : Enc}
    (h : s.agenda = .host (.write .enc offset v) :: rest) (ho : offset ≠ 0) (hst : s.enc.st.stopped = true)
    (hw : s.enc.writeReg offset.toNat v = some e) : step s = .next { s with agenda := rest, enc := e } := by
  rw [step_of_write h ho, writeProgrammable_enc (s := { s with agenda := rest }) hw]
  simp only [hst, if_true]

/-- The bits of a word that a register of `w` bits takes, from bit `lo` on. -/
theorem extractLsb'_eq_ofNat {w : Nat} (v : Word) (lo : Nat) :
    v.extractLsb' lo w = BitVec.ofNat w (v.toNat / 2 ^ lo % 2 ^ w) := by
  apply BitVec.eq_of_toNat_eq
  rw [BitVec.extractLsb'_toNat, BitVec.toNat_ofNat, Nat.shiftRight_eq_div_pow, Nat.mod_mod]

theorem extractLsb'_zero_eq_ofNat {w : Nat} (v : Word) : v.extractLsb' 0 w = BitVec.ofNat w (v.toNat % 2 ^ w) := by
  rw [extractLsb'_eq_ofNat, Nat.pow_zero, Nat.div_one]

/-- The low word of a longer register stored (R23, R34). -/
theorem storeLow_eq {hi : Nat} (x : BitVec (hi + 32)) (v : Word) :
    x.extractLsb' 32 hi ++ v = BitVec.ofNat (hi + 32) (x.toNat / 2 ^ 32 * 2 ^ 32 + v.toNat) := by
  have hx : x.toNat / 2 ^ 32 < 2 ^ hi := Nat.div_lt_of_lt_mul (by rw [Nat.mul_comm, ← Nat.pow_add]; exact x.isLt)
  have hval : (x.extractLsb' 32 hi ++ v).toNat = x.toNat / 2 ^ 32 * 2 ^ 32 + v.toNat := by
    rw [toNat_append_eq, BitVec.extractLsb'_toNat, Nat.shiftRight_eq_div_pow, Nat.mod_eq_of_lt hx]
  rw [← hval, BitVec.ofNat_toNat, BitVec.setWidth_eq]

/-- The high part of a longer register stored (R23, R34). -/
theorem storeHigh_eq {hi : Nat} (x : BitVec (hi + 32)) (v : Word) :
    v.extractLsb' 0 hi ++ x.extractLsb' 0 32 =
      BitVec.ofNat (hi + 32) (v.toNat % 2 ^ hi * 2 ^ 32 + x.toNat % 2 ^ 32) := by
  have hval : (v.extractLsb' 0 hi ++ x.extractLsb' 0 32).toNat = v.toNat % 2 ^ hi * 2 ^ 32 + x.toNat % 2 ^ 32 := by
    rw [toNat_append_eq, BitVec.extractLsb'_toNat, BitVec.extractLsb'_toNat, Nat.shiftRight_zero, Nat.shiftRight_zero]
  rw [← hval, BitVec.ofNat_toNat, BitVec.setWidth_eq]

/-- R44: the clamp of the 17-bit field. -/
theorem clampTlr_eq (v : Word) : clampTlr (v.extractLsb' 0 17) = BitVec.ofNat 17 (min (v.toNat % 2 ^ 17) 65536) := by
  have hlt : (65536#17 < v.extractLsb' 0 17) ↔ 65536 < v.toNat % 2 ^ 17 := by
    rw [BitVec.lt_def, BitVec.extractLsb'_toNat]; rfl
  unfold clampTlr
  split
  · rename_i h
    rw [Nat.min_eq_right (Nat.le_of_lt (hlt.mp h))]
  · rename_i h
    rw [Nat.min_eq_left (Nat.not_lt.mp (hlt.not.mp h)), extractLsb'_zero_eq_ofNat]

/-- Settles O29, register by register: each write stores the bits the map gives the register. -/
theorem programmingStoresFields : Obligations.ProgrammingStoresFields := by
  refine ⟨fun s rest offset value d ha hst hd => ?_, fun s rest offset value e ha hst he => ?_⟩
  · simp only [List.mem_cons, Prod.mk.injEq, List.not_mem_nil, or_false] at hd
    rcases hd with ⟨rfl, rfl⟩ | ⟨rfl, rfl⟩ | ⟨rfl, rfl⟩
    · exact step_of_write_dec_stopped ha (by decide) hst rfl
    · rw [← storeLow_eq (hi := 8)]
      exact step_of_write_dec_stopped ha (by decide) hst rfl
    · rw [← storeHigh_eq (hi := 8)]
      exact step_of_write_dec_stopped ha (by decide) hst rfl
  · rcases he with he | ⟨j, rfl, rfl⟩ | ⟨b, rfl, rfl⟩
    · simp only [List.mem_cons, Prod.mk.injEq, List.not_mem_nil, or_false] at he
      rcases he with ⟨rfl, rfl⟩ | ⟨rfl, rfl⟩ | ⟨rfl, rfl⟩ | ⟨rfl, rfl⟩ | ⟨rfl, rfl⟩ | ⟨rfl, rfl⟩
      · rw [← storeLow_eq (hi := 1)]
        exact step_of_write_enc_stopped ha (by decide) hst rfl
      · have hn : value.extractLsb' 0 1 ++ s.enc.n.extractLsb' 0 32 =
            BitVec.ofNat 33 (value.toNat % 2 * 2 ^ 32 + s.enc.n.toNat % 2 ^ 32) := storeHigh_eq s.enc.n value
        rw [← hn]
        exact step_of_write_enc_stopped ha (by decide) hst rfl
      · rw [← clampTlr_eq]
        exact step_of_write_enc_stopped ha (by decide) hst rfl
      · have hmin : value.extractLsb' 0 5 = BitVec.ofNat 5 (value.toNat % 32) := extractLsb'_zero_eq_ofNat value
        have hmax : value.extractLsb' 8 5 = BitVec.ofNat 5 (value.toNat / 256 % 32) := extractLsb'_eq_ofNat value 8
        rw [← hmin, ← hmax]
        exact step_of_write_enc_stopped ha (by decide) hst rfl
      · rw [← extractLsb'_zero_eq_ofNat]
        exact step_of_write_enc_stopped ha (by decide) hst rfl
      · rw [← Nat.testBit_zero]
        exact step_of_write_enc_stopped ha (by decide) hst rfl
    · rw [← extractLsb'_zero_eq_ofNat]
      exact step_of_write_enc_stopped ha (tableOffset_ne_zero (by omega) (by decide)) hst (Enc.writeReg_lwOffset _ _ _)
    · rw [← extractLsb'_zero_eq_ofNat]
      exact step_of_write_enc_stopped ha (tableOffset_ne_zero (by omega) (by decide)) hst (Enc.writeReg_dwOffset _ _ _)

end Sys2Proof.Machine
end

section
/-! SUPPORT. What a host read returns (R52, R53, R58): each word in numbers, and STATUS under the codes of the spec. -/

namespace Sys2Proof.Machine

/-! ## A read of a register -/

/-- What a read of DEC leaves: the word in `rdata`, and the frame. -/
theorem step_of_read_dec {s : State} {offset : BitVec 16} {rest : List Event} {w : Word} {value : Nat}
    (h : s.agenda = .host (.read .dec offset) :: rest)
    (hw : s.dec.readReg (Config.freeBits 32 s.draws) offset.toNat = some w) (hv : w.toNat = value) :
    ∃ t, step s = .next t ∧ t.rdata.toNat = value ∧ t = { s with agenda := rest, rdata := t.rdata, draws := t.draws } :=
  ⟨_, (step_of_event h).trans (readRegister_dec (s := { s with agenda := rest }) hw), hv, rfl⟩

theorem step_of_read_enc {s : State} {offset : BitVec 16} {rest : List Event} {w : Word} {value : Nat}
    (h : s.agenda = .host (.read .enc offset) :: rest)
    (hw : s.enc.readReg (Config.freeBits 32 s.draws) offset.toNat = some w) (hv : w.toNat = value) :
    ∃ t, step s = .next t ∧ t.rdata.toNat = value ∧ t = { s with agenda := rest, rdata := t.rdata, draws := t.draws } :=
  ⟨_, (step_of_event h).trans (readRegister_enc (s := { s with agenda := rest }) hw), hv, rfl⟩

/-- A read of a working register of a stopped DEC (R58). -/
theorem step_of_read_dec_stopped {s : State} {offset : BitVec 16} {rest : List Event} {bits w : Word} {value : Nat}
    (h : s.agenda = .host (.read .dec offset) :: rest) (hst : s.dec.st.stopped = true)
    (hw : s.dec.readReg (Config.freeBits 32 s.draws) offset.toNat =
      some (working s.dec.st (Config.freeBits 32 s.draws) bits w)) (hv : w.toNat = value) :
    ∃ t, step s = .next t ∧ t.rdata.toNat = value ∧ t = { s with agenda := rest, rdata := t.rdata, draws := t.draws } :=
  step_of_read_dec h (hw.trans (congrArg some (working_stopped hst _ _ _))) hv

theorem step_of_read_enc_stopped {s : State} {offset : BitVec 16} {rest : List Event} {bits w : Word} {value : Nat}
    (h : s.agenda = .host (.read .enc offset) :: rest) (hst : s.enc.st.stopped = true)
    (hw : s.enc.readReg (Config.freeBits 32 s.draws) offset.toNat =
      some (working s.enc.st (Config.freeBits 32 s.draws) bits w)) (hv : w.toNat = value) :
    ∃ t, step s = .next t ∧ t.rdata.toNat = value ∧ t = { s with agenda := rest, rdata := t.rdata, draws := t.draws } :=
  step_of_read_enc h (hw.trans (congrArg some (working_stopped hst _ _ _))) hv

/-! ## The ring windows and the weight tables -/

theorem ringWindow_of_addr (a : RingAddr) : ringWindow (0x1000 + a.toNat) = some a := by
  have ha := a.isLt
  rw [ringWindow, if_pos ⟨by omega, by omega⟩, Nat.add_sub_cancel_left, BitVec.ofNat_toNat, BitVec.setWidth_eq]

theorem toNat_ringOffset (a : RingAddr) : (0x1000#16 + a.setWidth 16).toNat = 0x1000 + a.toNat := by
  have ha := a.isLt
  rw [BitVec.toNat_add, BitVec.toNat_setWidth, BitVec.toNat_ofNat]
  omega

theorem Dec.readReg_ring (d : Dec) (draw : Word) (a : RingAddr) :
    d.readReg draw (0x1000#16 + a.setWidth 16).toNat =
      some (working d.st draw 0x000000FF (field (d.ring.read a) 0)) := by
  rw [toNat_ringOffset]
  unfold Dec.readReg
  split
  case h_13 => rw [ringWindow_of_addr]; rfl
  all_goals omega

theorem Enc.readReg_ring (e : Enc) (draw : Word) (a : RingAddr) :
    e.readReg draw (0x1000#16 + a.setWidth 16).toNat =
      some (working e.st draw 0x000000FF (field (e.ring.read a) 0)) := by
  rw [toNat_ringOffset]
  unfold Enc.readReg
  split
  case h_19 =>
    rw [ringWindow_of_addr, tableIndex_of_ge (by omega), tableIndex_of_ge (by omega)]
  all_goals omega

theorem Enc.readReg_lw (e : Enc) (draw : Word) (j : Fin 16) :
    e.readReg draw (BitVec.ofNat 16 (0x80 + 4 * j.val)).toNat = some (field e.lw[j] 0) := by
  rw [toNat_tableOffset (by omega)]
  unfold Enc.readReg
  split
  case h_19 => rw [tableIndex_of_lt j.isLt]
  all_goals omega

theorem Enc.readReg_dw (e : Enc) (draw : Word) (b : Fin 12) :
    e.readReg draw (BitVec.ofNat 16 (0xC0 + 4 * b.val)).toNat = some (field e.dw[b] 0) := by
  rw [toNat_tableOffset (by omega)]
  unfold Enc.readReg
  split
  case h_19 => rw [tableIndex_of_ge (by omega), tableIndex_of_lt b.isLt]
  all_goals omega

/-! ## Words in numbers -/

/-- `CTRL` reads IE in bit 2 (R52). -/
theorem toNat_ctrlRead (ie : Bool) : (ctrlRead ie).toNat = 4 * ie.toNat := by
  cases ie <;> rfl

/-- The low word of a longer register. -/
theorem toNat_lowWord {w : Nat} (x : BitVec w) : (x.extractLsb' 0 32).toNat = x.toNat % 2 ^ 32 := by
  rw [BitVec.extractLsb'_toNat, Nat.shiftRight_zero]

/-- The rest of a longer register, in a word of its own. -/
theorem toNat_highWord {hi : Nat} (x : BitVec (32 + hi)) (hhi : hi ≤ 32) :
    (field (x.extractLsb' 32 hi) 0).toNat = x.toNat / 2 ^ 32 := by
  have hx : x.toNat / 2 ^ 32 < 2 ^ hi := Nat.div_lt_of_lt_mul (by rw [← Nat.pow_add]; exact x.isLt)
  rw [toNat_field_zero _ hhi, BitVec.extractLsb'_toNat, Nat.shiftRight_eq_div_pow, Nat.mod_eq_of_lt hx]

/-- Two fields in a word. -/
theorem toNat_fields₂ {a b lo : Nat} (x : BitVec a) (y : BitVec b) (ha : a ≤ lo) (hb : b + lo ≤ 32) :
    (field x 0 ||| field y lo).toNat = x.toNat + 2 ^ lo * y.toNat := by
  have hx : (field x 0).toNat < 2 ^ lo := by
    rw [toNat_field_zero x (by omega)]
    exact Nat.lt_of_lt_of_le x.isLt (Nat.pow_le_pow_right (by decide) ha)
  have hy : y.toNat * 2 ^ lo < 2 ^ 32 := calc
    y.toNat * 2 ^ lo < 2 ^ b * 2 ^ lo := Nat.mul_lt_mul_of_pos_right y.isLt (Nat.two_pow_pos lo)
    _ = 2 ^ (b + lo) := (Nat.pow_add 2 b lo).symm
    _ ≤ 2 ^ 32 := Nat.pow_le_pow_right (by decide) hb
  rw [toNat_or_field hx hy, toNat_field_zero x (by omega), Nat.mul_comm]

/-- Three fields in a word. -/
theorem toNat_fields₃ {a b c lo lo' : Nat} (x : BitVec a) (y : BitVec b) (z : BitVec c) (ha : a ≤ lo) (hb : b + lo ≤ lo')
    (hc : c + lo' ≤ 32) :
    (field x 0 ||| field y lo ||| field z lo').toNat = x.toNat + 2 ^ lo * y.toNat + 2 ^ lo' * z.toNat := by
  have hxy := toNat_fields₂ x y ha (by omega)
  have hlt : (field x 0 ||| field y lo).toNat < 2 ^ lo' := by
    have hx : x.toNat < 2 ^ lo := Nat.lt_of_lt_of_le x.isLt (Nat.pow_le_pow_right (by decide) ha)
    calc (field x 0 ||| field y lo).toNat = x.toNat + 2 ^ lo * y.toNat := hxy
      _ < 2 ^ lo * (y.toNat + 1) := by rw [Nat.mul_succ]; omega
      _ ≤ 2 ^ lo * 2 ^ b := Nat.mul_le_mul_left _ y.isLt
      _ = 2 ^ (b + lo) := by rw [← Nat.pow_add, Nat.add_comm]
      _ ≤ 2 ^ lo' := Nat.pow_le_pow_right (by decide) hb
  have hz : z.toNat * 2 ^ lo' < 2 ^ 32 := calc
    z.toNat * 2 ^ lo' < 2 ^ c * 2 ^ lo' := Nat.mul_lt_mul_of_pos_right z.isLt (Nat.two_pow_pos lo')
    _ = 2 ^ (c + lo') := (Nat.pow_add 2 c lo').symm
    _ ≤ 2 ^ 32 := Nat.pow_le_pow_right (by decide) hc
  rw [toNat_or_field hlt hz, hxy, Nat.mul_comm (2 ^ lo')]

/-- Settles O30, register by register: the word the map gives, and its number. -/
theorem readsOfRegisters : Obligations.ReadsOfRegisters := by
  refine ⟨fun s rest offset value ha hread => ?_, fun s rest offset value ha hread => ?_⟩
  · simp only [List.mem_cons, Prod.mk.injEq, List.not_mem_nil, or_false] at hread
    rcases hread with (⟨rfl, rfl⟩ | ⟨rfl, rfl⟩ | ⟨rfl, rfl⟩ | ⟨rfl, rfl⟩) | ⟨hst, hread⟩
    · exact step_of_read_dec ha rfl (toNat_ctrlRead _)
    · exact step_of_read_dec ha rfl rfl
    · exact step_of_read_dec ha rfl (toNat_lowWord _)
    · exact step_of_read_dec ha rfl (toNat_highWord (hi := 8) _ (by decide))
    rcases hread with (⟨rfl, rfl⟩ | ⟨rfl, rfl⟩ | ⟨rfl, rfl⟩ | ⟨rfl, rfl⟩ | ⟨rfl, rfl⟩ | ⟨rfl, rfl⟩ | ⟨rfl, rfl⟩) |
      ⟨a, rfl, rfl⟩
    · exact step_of_read_dec_stopped ha hst rfl (toNat_lowWord _)
    · exact step_of_read_dec_stopped ha hst rfl (toNat_highWord (hi := 8) _ (by decide))
    · exact step_of_read_dec_stopped ha hst rfl rfl
    · exact step_of_read_dec_stopped ha hst rfl (toNat_field_zero _ (by decide))
    · exact step_of_read_dec_stopped ha hst rfl (toNat_fields₂ _ _ (by decide) (by decide))
    · exact step_of_read_dec_stopped ha hst rfl (toNat_fields₃ _ _ _ (by decide) (by decide) (by decide))
    · exact step_of_read_dec_stopped ha hst rfl (toNat_fields₂ _ _ (by decide) (by decide))
    · exact step_of_read_dec_stopped ha hst (Dec.readReg_ring _ _ _) (toNat_field_zero _ (by decide))
  · simp only [List.mem_cons, Prod.mk.injEq, List.not_mem_nil, or_false] at hread
    rcases hread with (⟨rfl, rfl⟩ | ⟨rfl, rfl⟩ | ⟨rfl, rfl⟩ | ⟨rfl, rfl⟩ | ⟨rfl, rfl⟩ | ⟨rfl, rfl⟩ | ⟨rfl, rfl⟩) |
      ⟨j, rfl, rfl⟩ | ⟨b, rfl, rfl⟩ | ⟨hst, hread⟩
    · exact step_of_read_enc ha rfl (toNat_ctrlRead _)
    · exact step_of_read_enc ha rfl (toNat_lowWord _)
    · exact step_of_read_enc ha rfl (toNat_highWord (hi := 1) _ (by decide))
    · exact step_of_read_enc ha rfl (toNat_field_zero _ (by decide))
    · exact step_of_read_enc ha rfl (toNat_fields₂ _ _ (by decide) (by decide))
    · exact step_of_read_enc ha rfl (toNat_field_zero _ (by decide))
    · exact step_of_read_enc ha rfl ((toNat_field_zero _ (by decide)).trans (BitVec.toNat_ofBool _))
    · exact step_of_read_enc ha (Enc.readReg_lw _ _ _) (toNat_field_zero _ (by decide))
    · exact step_of_read_enc ha (Enc.readReg_dw _ _ _) (toNat_field_zero _ (by decide))
    rcases hread with (⟨rfl, rfl⟩ | ⟨rfl, rfl⟩ | ⟨rfl, rfl⟩ | ⟨rfl, rfl⟩ | ⟨rfl, rfl⟩ | ⟨rfl, rfl⟩ | ⟨rfl, rfl⟩ |
      ⟨rfl, rfl⟩ | ⟨rfl, rfl⟩ | ⟨rfl, rfl⟩) | ⟨a, rfl, rfl⟩
    · exact step_of_read_enc_stopped ha hst rfl (toNat_lowWord _)
    · exact step_of_read_enc_stopped ha hst rfl (toNat_highWord (hi := 1) _ (by decide))
    · exact step_of_read_enc_stopped ha hst rfl (toNat_lowWord _)
    · exact step_of_read_enc_stopped ha hst rfl (toNat_highWord (hi := 2) _ (by decide))
    · exact step_of_read_enc_stopped ha hst rfl (toNat_field_zero _ (by decide))
    · exact step_of_read_enc_stopped ha hst rfl (toNat_fields₃ _ _ _ (by decide) (by decide) (by decide))
    · exact step_of_read_enc_stopped ha hst rfl (toNat_lowWord _)
    · exact step_of_read_enc_stopped ha hst rfl (toNat_highWord (hi := 1) _ (by decide))
    · exact step_of_read_enc_stopped ha hst rfl (toNat_lowWord _)
    · exact step_of_read_enc_stopped ha hst rfl (toNat_highWord (hi := 1) _ (by decide))
    · exact step_of_read_enc_stopped ha hst (Enc.readReg_ring _ _ _) (toNat_field_zero _ (by decide))

/-! ## STATUS -/

/-- The exact part of STATUS in numbers (R52, R53). -/
theorem toNat_statusWord (st : RunState) (err : Cause) (errph : FaultPhase) :
    (statusWord st err errph).toNat = st.code.toNat + 16 * err.code.toNat + 256 * errph.code.toNat ∧
    (statusWord st err errph).toNat < 2 ^ 12 := by
  have hst : st.code.toNat ≤ 4 := by cases st <;> decide
  have herr : err.code.toNat ≤ 3 := by cases err <;> decide
  have herrph : errph.code.toNat ≤ 4 := by cases errph <;> decide
  have h0 : (field st.code 0).toNat = st.code.toNat := toNat_field_zero _ (by decide)
  have h4 : (field st.code 0 ||| field err.code 4).toNat = st.code.toNat + err.code.toNat * 2 ^ 4 := by
    rw [toNat_or_field (by omega) (by omega), h0]
  have h8 : (statusWord st err errph).toNat = st.code.toNat + err.code.toNat * 2 ^ 4 + errph.code.toNat * 2 ^ 8 := by
    rw [statusWord, toNat_or_field (by omega) (by omega), h4]
  omega

/-- The working part of STATUS: bits 14:12, PH there in a stopped engine (R58). -/
theorem toNat_working_phase (st : RunState) (draw : Word) {ph : Word} (hph : ph.toNat ≤ 7) :
    ∃ k ≤ 7, (working st draw 0x00007000 (field ph 12)).toNat = k * 2 ^ 12 ∧ (st.stopped = true → k = ph.toNat) := by
  by_cases hs : st.stopped = true
  · exact ⟨ph.toNat, hph, by rw [working_stopped hs, toNat_field (by omega)], fun _ => rfl⟩
  · have hle : draw.toNat &&& 0x7000 ≤ 0x7000 := Nat.and_le_right
    have hmod : (draw.toNat &&& 0x7000) % 2 ^ 12 = 0 := by
      rw [Nat.and_mod_two_pow]
      exact Nat.and_zero _
    refine ⟨(draw.toNat &&& 0x7000) / 2 ^ 12, by omega, ?_, fun h => absurd h hs⟩
    rw [working, if_neg hs, BitVec.toNat_and]
    show draw.toNat &&& 0x7000 = _
    omega

/-- STATUS in numbers: the exact part below bit 12, PH above it where the engine is stopped, and nothing above bit 14. -/
theorem toNat_status (st : RunState) (err : Cause) (errph : FaultPhase) (draw ph : Word) (hph : ph.toNat ≤ 7) :
    (statusWord st err errph ||| working st draw 0x00007000 (field ph 12)).toNat < 2 ^ 15 ∧
    (statusWord st err errph ||| working st draw 0x00007000 (field ph 12)).toNat % 2 ^ 12 =
      st.code.toNat + 16 * err.code.toNat + 256 * errph.code.toNat ∧
    (st.stopped = true →
      (statusWord st err errph ||| working st draw 0x00007000 (field ph 12)).toNat / 2 ^ 12 = ph.toNat) := by
  obtain ⟨hlow, hlt⟩ := toNat_statusWord st err errph
  obtain ⟨k, hk7, hk, hkst⟩ := toNat_working_phase st draw hph
  have hword : (statusWord st err errph ||| working st draw 0x00007000 (field ph 12)).toNat =
      k * 2 ^ 12 + (statusWord st err errph).toNat := by
    rw [BitVec.toNat_or, hk, Nat.or_comm, ← Nat.shiftLeft_eq, ← Nat.shiftLeft_add_eq_or_of_lt hlt]
  rw [hword, ← hlow]
  refine ⟨by omega, by omega, fun hs => ?_⟩
  rw [← hkst hs]
  omega

/-- Settles O31: STATUS in numbers with the codes of each register read off, and `irq` by its definition. -/
theorem statusFieldsAreExact : Obligations.StatusFieldsAreExact := by
  refine ⟨fun s rest ha => ?_, fun s rest ha => ?_, fun d => ?_, fun e => ?_⟩
  · obtain ⟨t, hstep, ht, hframe⟩ := step_of_read_dec ha rfl rfl
    have hph : s.dec.ph.code.toNat ≤ 7 := by cases s.dec.ph <;> decide
    obtain ⟨hlt, hlow, hhigh⟩ := toNat_status s.dec.st s.dec.err s.dec.errph (Config.freeBits 32 s.draws) _ hph
    refine ⟨t, hstep, ?_, hframe, ?_, fun hs => ?_⟩ <;> rw [ht]
    · exact hlt
    · refine hlow.trans ?_
      congr 2
      · cases s.dec.st <;> rfl
      · cases s.dec.err <;> rfl
      · cases s.dec.errph <;> rfl
    · refine (hhigh hs).trans ?_
      cases s.dec.ph <;> rfl
  · obtain ⟨t, hstep, ht, hframe⟩ := step_of_read_enc ha rfl rfl
    have hph : s.enc.ph.code.toNat ≤ 7 := by cases s.enc.ph <;> decide
    obtain ⟨hlt, hlow, hhigh⟩ := toNat_status s.enc.st s.enc.err s.enc.errph (Config.freeBits 32 s.draws) _ hph
    refine ⟨t, hstep, ?_, hframe, ?_, fun hs => ?_⟩ <;> rw [ht]
    · exact hlt
    · refine hlow.trans ?_
      congr 2
      · cases s.enc.st <;> rfl
      · cases s.enc.err <;> rfl
      · cases s.enc.errph <;> rfl
    · refine (hhigh hs).trans ?_
      cases s.enc.ph <;> rfl
  · simp only [Dec.irq, Bool.and_eq_true, Bool.or_eq_true, beq_iff_eq]
  · simp only [Enc.irq, Bool.and_eq_true, Bool.or_eq_true, beq_iff_eq]

end Sys2Proof.Machine
end

section
/-! SUPPORT. A launched DEC (R245), left to itself: START and INIT, and the one stopped state its run ends in. -/

namespace Sys2Proof.Machine

/-! ## START and INIT -/

/-- The block after the two steps that `decLaunch` leads to: START, then INIT (R121, R245). -/
def decLaunched (s : State) (stream : List Byte) (p : BitVec 32) : State :=
  { s with inS := stream, agenda := []
           dec := ({ s.dec with slen := BitVec.ofNat 40 (min stream.length (2 ^ 40 - 1)), p := p, ie := false } : Dec).init }

theorem launchedSlen_toNat (stream : List Byte) :
    (BitVec.ofNat 40 (min stream.length (2 ^ 40 - 1))).toNat = min stream.length (2 ^ 40 - 1) := by
  rw [BitVec.toNat_ofNat]
  omega

theorem stateAfter_succ {s t : State} (h : step s = .next t) (k : Nat) : stateAfter (k + 1) s = stateAfter k t := by
  simp only [stateAfter, runSteps, run_succ_of_step h k]

/-- START of a stopped DEC whose stream is in its slice (R219). -/
theorem execStart_dec {s : State} (hst : s.dec.st.stopped = true) (hs : s.dec.slen.toNat ≤ s.inS.length)
    (unused : BitVec 29) (ie : Bool) :
    execStart .dec unused ie s = .next { s with dec := { s.dec with ie := ie, st := .init } } := by
  simp only [execStart, startDec, setIe_dec_dec, hst, if_true]
  exact if_neg (Nat.not_lt.mpr hs)

/-- START of a stopped DEC, and its INIT step, whatever the block held before. -/
theorem stateAfter_decLaunch {s : State} (hst : s.dec.st.stopped = true) (stream : List Byte) (p : BitVec 32) (k : Nat) :
    stateAfter (2 + k) (decLaunch s stream p) = stateAfter k (decLaunched s stream p) := by
  have hslice : (decLaunch s stream p).dec.slen.toNat ≤ stream.length := by
    show (BitVec.ofNat 40 (min stream.length (2 ^ 40 - 1))).toNat ≤ stream.length
    rw [launchedSlen_toNat]
    exact Nat.min_le_left _ _
  have hstart : step (decLaunch s stream p) =
      .next { decLaunch s stream p with agenda := [], dec := { (decLaunch s stream p).dec with ie := false, st := .init } } := by
    rw [step_of_ctrlWrite (v := startWord) (rest := []) rfl,
      writeCtrl_of_command (decode_ctrl_start .dec (by decide) (by decide))]
    exact execStart_dec (s := { decLaunch s stream p with agenda := [] }) hst hslice (startWord.extractLsb' 3 29)
      (startWord.getLsbD 2)
  have hinit : step { decLaunch s stream p with
      agenda := [], dec := { (decLaunch s stream p).dec with ie := false, st := .init } } =
      .next (decLaunched s stream p) := step_of_decActive rfl rfl
  rw [Nat.add_comm, stateAfter_succ hstart, stateAfter_succ hinit]

theorem decLaunched_runs (s : State) (stream : List Byte) (p : BitVec 32) : DecRuns (decLaunched s stream p) .guard := by
  refine ⟨rfl, rfl, (Dec.inRange_guard rfl).mpr ⟨Nat.zero_le _, Nat.zero_le _, Nat.zero_le _⟩, ?_⟩
  show (BitVec.ofNat 40 (min stream.length (2 ^ 40 - 1))).toNat ≤ stream.length
  rw [launchedSlen_toNat]
  exact Nat.min_le_left _ _

/-! ## A run of DEC left to itself -/

/-- With no event due and ENC stopped, DEC alone moves (log entry 2). -/
theorem step_eq_decStep {s : State} (ha : s.agenda = []) (he : s.enc.st.stopped = true) : step s = decStep s := by
  cases hd : s.dec.st.stopped with
  | false => exact step_of_decActive ha hd
  | true =>
    rw [step_of_decStopped ha hd]
    have hdec : decStep s = .next s := by cases hst : s.dec.st <;> simp_all [decStep, RunState.stopped]
    have henc : encStep s = .next s := by cases hst : s.enc.st <;> simp_all [encStep, RunState.stopped]
    rw [hdec, henc]

/-- The steps of a block that is left to itself are phase steps of DEC. -/
theorem decReaches_of_stateAfter {k : Nat} {s t : State} (ha : s.agenda = []) (he : s.enc.st.stopped = true)
    (h : stateAfter k s = some t) : DecReaches s t := by
  induction k generalizing s with
  | zero => rw [Option.some.inj h]; exact .refl
  | succ k ih =>
    have hstep := step_eq_decStep ha he
    cases hd : decStep s with
    | next u =>
      obtain ⟨hframe, -, -⟩ := decStep_frame hd
      rw [stateAfter_succ (hstep.trans hd)] at h
      exact .head hd (ih (by rw [hframe]; exact ha) (by rw [hframe]; exact he) h)
    | fault r =>
      simp only [stateAfter, runSteps, Host.Core.run, show Sys2Proof.core.step s = .fault r from hstep.trans hd] at h
      cases h
    | refused r =>
      simp only [stateAfter, runSteps, Host.Core.run, show Sys2Proof.core.step s = .refused r from hstep.trans hd] at h
      cases h

/-- A stopped DEC takes no step (R211). -/
theorem DecReaches.eq_of_stopped {s t : State} (h : DecReaches s t) (hd : s.dec.st.stopped = true) : t = s := by
  refine h.induct (fun u => u = s) rfl fun a b ha hab => ?_
  subst ha
  rcases decStep_next hab with ⟨-, rfl⟩ | ⟨hi, -⟩ | ⟨hr, -⟩
  · rfl
  · rw [hi] at hd; cases hd
  · rw [hr] at hd; cases hd

/-- DEC stops in one state only, since a phase step has one next state. -/
theorem DecReaches.unique {s t u : State} (ht : DecReaches s t) (hu : DecReaches s u) (htst : t.dec.st.stopped = true)
    (hust : u.dec.st.stopped = true) : t = u := by
  have hdet : Relator.RightUnique (fun a b => decStep a = .next b) := fun a b c hb hc =>
    Host.Outcome.next.inj (hb.symm.trans hc)
  rcases Relation.ReflTransGen.total_of_right_unique hdet ht hu with htu | hut
  · exact (DecReaches.eq_of_stopped htu htst).symm
  · exact DecReaches.eq_of_stopped hut hust

/-- R141 for `stateAfter`: a running DEC with no event due stops within the steps it has left. -/
theorem stateAfter_ends {s : State} (hrun : DecRuns s s.dec.ph) (ha : s.agenda = []) :
    ∃ k, ∃ t : State, k ≤ s.dec.stepsLeft ∧ stateAfter k s = some t ∧ (t.dec.st = .done ∨ t.dec.st = .fault) := by
  obtain ⟨k, t, hk, ht, hstop⟩ := decRuns_ends hrun ha
  exact ⟨k, t, hk, by rw [stateAfter, runSteps, ht], hstop⟩

/-- `decSteps` is enough for a launched DEC to stop, with ENC stopped (R141). -/
theorem stateAfter_decSteps {s t : State} {w : List Byte} {p : BitVec 32} (hst : s.dec.st.stopped = true)
    (he : s.enc.st.stopped = true) (h : stateAfter (decSteps w p) (decLaunch s w p) = some t) :
    DecReaches (decLaunched s w p) t ∧ t.dec.st.stopped = true := by
  obtain ⟨k, u, hk, hu, hstop⟩ := stateAfter_ends (decLaunched_runs s w p) rfl
  have hreach := decReaches_of_stateAfter (s := decLaunched s w p) rfl he hu
  have hust : u.dec.st.stopped = true := by rcases hstop with h | h <;> rw [h] <;> rfl
  have hleft : (decLaunched s w p).dec.stepsLeft ≤ 4 * (w.length + p.toNat) + 4 := by
    have hslen := launchedSlen_toNat w
    show 4 * (((BitVec.ofNat 40 (min w.length (2 ^ 40 - 1))).toNat - 0) + (p.toNat - 0)) + 3 ≤ _
    omega
  -- the run stops in `u` after `k` steps and stays there
  have hsplit : 4 * (w.length + p.toNat) + 4 = k + (4 * (w.length + p.toNat) + 4 - k) := by omega
  have hstay : t = u := by
    rw [decSteps, stateAfter_decLaunch hst, hsplit, stateAfter_add hu, stateAfter_stopped] at h
    · exact (Option.some.inj h).symm
    · rw [hreach.frame.1]; rfl
    · exact hust
    · rw [hreach.frame.1]; exact he
  rw [hstay]
  exact ⟨hreach, hust⟩

end Sys2Proof.Machine
end

section
/-! SUPPORT. The shadow decoder follows DEC (R43, R182; log entry 9): a simulation of the phase steps of a DEC that decodes the
bytes fed. -/

namespace Sys2Proof.Machine

/-! ## What the shadow and DEC have in common -/

/-- What DEC's rules read and write in a run, `SLEN` aside: the shadow's own grows with the bytes fed. -/
def Dec.core (d : Dec) : Dec := { d with slen := 0, err := .none, errph := .none, ie := false }

@[simp] theorem Dec.core_guardStep (d : Dec) : d.guardStep.core = d.core.guardStep := by
  unfold Dec.guardStep
  rw [show d.core.ocnt = d.ocnt from rfl, show d.core.p = d.p from rfl, show d.core.fcnt = d.fcnt from rfl]
  split
  · rfl
  · split <;> rfl

/-- The bytes emitted so far are those of the input (R182). -/
def EmittedIs (x : List Byte) (s : State) : Prop :=
  ∀ k, k < s.dec.ocnt.toNat → ∃ v, s.outO.read k = some v ∧ x[k]? = some v

/-- The shadow of input `x` is where DEC is in `s`, and `s` runs by DEC's rules or is done. -/
structure Shadow.Follows (x : List Byte) (sh : Shadow) (s : State) : Prop where
  core : sh.dec.core = s.dec.core
  count : sh.count.toNat = s.dec.ocnt.toNat
  bound : sh.p.toNat = s.dec.p.toNat
  compared : sh.mismatch = false ↔ EmittedIs x s
  runs : (s.dec.st = .done ∧ s.dec.ocnt = s.dec.p) ∨ DecRuns s s.dec.ph

/-- Shadow and DEC agree in whatever the core decides. -/
theorem Shadow.Follows.agree {x : List Byte} {sh : Shadow} {s : State} {α : Type} (h : sh.Follows x s) (f : Dec → α)
    (hf : ∀ d : Dec, f d.core = f d) : f sh.dec = f s.dec := by
  rw [← hf sh.dec, h.core, hf]

theorem Shadow.Follows.st_eq {x : List Byte} {sh : Shadow} {s : State} (h : sh.Follows x s) : sh.dec.st = s.dec.st :=
  h.agree Dec.st fun _ => rfl

theorem Shadow.Follows.ph_eq {x : List Byte} {sh : Shadow} {s : State} (h : sh.Follows x s) : sh.dec.ph = s.dec.ph :=
  h.agree Dec.ph fun _ => rfl

/-- The shadow's 33-bit count says what `OCNT = P` says. -/
theorem Shadow.Follows.complete_iff {x : List Byte} {sh : Shadow} {s : State} (h : sh.Follows x s) :
    sh.complete = true ↔ sh.dec.ocnt = sh.dec.p := by
  have ho : sh.dec.ocnt = s.dec.ocnt := h.agree Dec.ocnt fun _ => rfl
  have hp : sh.dec.p = s.dec.p := h.agree Dec.p fun _ => rfl
  rw [Shadow.complete, beq_iff_eq, ← BitVec.toNat_inj, h.count, h.bound, ho, hp, BitVec.toNat_inj]

/-- A running DEC that runs on still does so by its rules. -/
theorem decRuns_of_decStep {s t : State} (hrun : DecRuns s s.dec.ph) (h : decStep s = .next t) (ht : t.dec.st = .run) :
    DecRuns t t.dec.ph := by
  have hphase := (decStep_of_decRuns hrun).symm.trans h
  obtain ⟨-, -, hr, hs⟩ := hrun
  obtain ⟨hframe, -, hslen⟩ := decRunPhase_frame hs hr hphase
  refine ⟨ht, rfl, (decRunPhase_inRange hs hr hphase).resolve_left (by rw [ht]; decide), ?_⟩
  rw [hslen, hframe]
  exact hs

/-- A step of both that emits nothing. -/
theorem Shadow.Follows.move {x : List Byte} {sh : Shadow} {s : State} (h : sh.Follows x s) {d d' : Dec}
    (hcore : d.core = d'.core) (ho : d'.ocnt = s.dec.ocnt) (hp : d'.p = s.dec.p)
    (hruns : (d'.st = .done ∧ d'.ocnt = d'.p) ∨ DecRuns { s with dec := d' } d'.ph) :
    ({ sh with dec := d } : Shadow).Follows x { s with dec := d' } := by
  refine ⟨hcore, ?_, ?_, ?_, hruns⟩
  · rw [ho]; exact h.count
  · rw [hp]; exact h.bound
  · unfold EmittedIs
    rw [ho]
    exact h.compared

/-- A step of both that emits `v` with room for it: the shadow compares it with its place in `x` (R129, R182). -/
theorem Shadow.Follows.emit {x : List Byte} {sh : Shadow} {s t : State} {v : Byte} (h : sh.Follows x s) {d : Dec}
    (hlt : s.dec.ocnt.toNat < s.dec.p.toNat) (hcore : d.core = t.dec.core) (ho : t.dec.ocnt = s.dec.ocnt + 1)
    (hp : t.dec.p = s.dec.p) (hO : t.outO = s.outO.write s.dec.ocnt.toNat v) (hruns : DecRuns t t.dec.ph) :
    ({ sh with dec := d, count := sh.count + 1
               mismatch := sh.mismatch || (x[sh.count.toNat]? != some v) } : Shadow).Follows x t := by
  have hsucc : t.dec.ocnt.toNat = s.dec.ocnt.toNat + 1 := by rw [ho]; exact toNat_succ_of_lt hlt
  have hcount : sh.count.toNat < sh.p.toNat := by rw [h.count, h.bound]; exact hlt
  refine ⟨hcore, ?_, ?_, ?_, .inr hruns⟩
  · show (sh.count + 1#33).toNat = _
    rw [toNat_succ_of_lt hcount, h.count, hsucc]
  · rw [hp]; exact h.bound
  · show (sh.mismatch || (x[sh.count.toNat]? != some v)) = false ↔ _
    rw [Bool.or_eq_false_iff, h.compared, bne_eq_false_iff_eq, h.count]
    unfold EmittedIs
    rw [hsucc, hO]
    constructor
    · rintro ⟨hbefore, hv⟩ k hk
      rw [Memory.read_write]
      by_cases heq : k = s.dec.ocnt.toNat
      · exact ⟨v, by rw [if_pos heq], by rw [heq, hv]⟩
      · rw [if_neg heq]
        exact hbefore k (by omega)
    · intro hall
      refine ⟨fun k hk => ?_, ?_⟩
      · obtain ⟨w, hw, hx⟩ := hall k (by omega)
        rw [Memory.read_write_other _ _ (Nat.ne_of_lt hk)] at hw
        exact ⟨w, hw, hx⟩
      · obtain ⟨w, hw, hx⟩ := hall _ (Nat.lt_succ_self _)
        rw [Memory.read_write_same] at hw
        rw [hx, hw]

/-! ## Steps that need no byte -/

/-- The phases in which a byte is due (R123, R125, R127). -/
def DecPhase.fetches : DecPhase → Bool
  | .flag => true
  | .lit => true
  | .refU => true
  | .refL => true
  | .guard => false
  | .bit => false
  | .copy => false

/-- The steps a running DEC can take before a byte is due, or it is done: at most the 18 bytes of a copy, its exit, GUARD and BIT
(log entry 9). -/
def Dec.quietLeft (d : Dec) : Nat :=
  match d.ph with
  | .guard => 2
  | .bit => 1
  | .copy => d.len.toNat - d.ci.toNat + 3
  | .flag => 0
  | .lit => 0
  | .refU => 0
  | .refL => 0

theorem Dec.quietLeft_le_fuel {d : Dec} (h : d.inRange = true) : d.quietLeft ≤ Shadow.fuel := by
  unfold Dec.quietLeft Shadow.fuel
  cases hp : d.ph with
  | copy =>
    obtain ⟨-, -, -, -, hlen, -⟩ := (Dec.inRange_copy hp).mp h
    dsimp only
    omega
  | _ => dsimp only; decide

/-- No byte is due, and none of the shadow's steps is left: it is done, or waits for a byte. -/
theorem Shadow.quietStep_none {x : List Byte} {sh : Shadow} (h : sh.dec.st ≠ .run ∨ sh.dec.ph.fetches = true) :
    sh.quietStep x = none := by
  unfold Shadow.quietStep
  split
  · rename_i hst
    cases hp : sh.dec.ph <;> simp [hst, hp, DecPhase.fetches] at h ⊢
  · rfl

theorem Shadow.quietStep_guard {x : List Byte} {sh : Shadow} (hst : sh.dec.st = .run) (hp : sh.dec.ph = .guard)
    (hc : sh.complete = true ↔ sh.dec.ocnt = sh.dec.p) :
    sh.quietStep x = some { sh with dec := sh.dec.guardStep } := by
  simp only [Shadow.quietStep, hst, hp, if_true, hc, Dec.guardStep]
  split
  · rfl
  · split <;> rfl

theorem Shadow.quietStep_bit {x : List Byte} {sh : Shadow} (hst : sh.dec.st = .run) (hp : sh.dec.ph = .bit) :
    sh.quietStep x = some { sh with dec := sh.dec.bitStep } := by
  simp only [Shadow.quietStep, hst, hp, if_true]

theorem Shadow.quietStep_copy {x : List Byte} {sh : Shadow} (hst : sh.dec.st = .run) (hp : sh.dec.ph = .copy)
    (hc : sh.complete = true ↔ sh.dec.ocnt = sh.dec.p) :
    sh.quietStep x = some (if sh.dec.copyDone then { sh with dec := { sh.dec with ph := .guard } }
      else { sh.emit x sh.dec.copySource with dec := sh.dec.copyByte }) := by
  have hdone : (sh.dec.ci == sh.dec.len || sh.complete) = sh.dec.copyDone := by
    rw [Bool.eq_iff_iff, Bool.or_eq_true, hc, Dec.copyDone_iff, beq_iff_eq]
  simp only [Shadow.quietStep, hst, hp, if_true, hdone]
  split <;> rfl

/-- Both take a step that needs no byte, and one such step fewer is left. -/
def Shadow.QuietStep (x : List Byte) (sh : Shadow) (s : State) : Prop :=
  ∃ sh' t, sh.quietStep x = some sh' ∧ decStep s = .next t ∧ sh'.Follows x t ∧ t.dec.iptr = s.dec.iptr ∧
    (t.dec.st = .run → t.dec.quietLeft < s.dec.quietLeft)

theorem Shadow.Follows.quiet_guard {x : List Byte} {sh : Shadow} {s : State} (h : sh.Follows x s)
    (hrun : DecRuns s s.dec.ph) (hp : s.dec.ph = .guard) : sh.QuietStep x s := by
  have hstep := decStep_of_decRuns hrun
  simp only [decRunPhase, hp] at hstep
  have hst := h.st_eq.trans hrun.1
  have hcore : sh.dec.guardStep.core = s.dec.guardStep.core := by rw [Dec.core_guardStep, Dec.core_guardStep, h.core]
  refine ⟨_, _, quietStep_guard hst (h.ph_eq.trans hp) h.complete_iff, hstep, ?_, ?_, ?_⟩
  · refine h.move hcore ?_ (Dec.guardStep_p _) ?_
    · rcases s.dec.guardStep_cases with ⟨-, heq⟩ | ⟨-, -, heq⟩ | ⟨-, -, heq⟩ <;> rw [heq]
    · rcases s.dec.guardStep_cases with ⟨ho, heq⟩ | ⟨-, -, heq⟩ | ⟨-, -, heq⟩
      · rw [heq]; exact .inl ⟨rfl, ho⟩
      · exact .inr (decRuns_of_decStep hrun hstep (by rw [heq]; exact hrun.1))
      · exact .inr (decRuns_of_decStep hrun hstep (by rw [heq]; exact hrun.1))
  · rcases s.dec.guardStep_cases with ⟨-, heq⟩ | ⟨-, -, heq⟩ | ⟨-, -, heq⟩ <;> rw [heq]
  · rcases s.dec.guardStep_cases with ⟨-, heq⟩ | ⟨-, -, heq⟩ | ⟨-, -, heq⟩ <;> rw [heq]
    · nofun
    · simp [Dec.quietLeft, hp]
    · simp [Dec.quietLeft, hp]

theorem Shadow.Follows.quiet_copy {x : List Byte} {sh : Shadow} {s : State} (h : sh.Follows x s)
    (hrun : DecRuns s s.dec.ph) (hp : s.dec.ph = .copy) : sh.QuietStep x s := by
  have hstep := decStep_of_decRuns hrun
  have hdone : sh.dec.copyDone = s.dec.copyDone := h.agree Dec.copyDone fun _ => rfl
  have hquiet := quietStep_copy (x := x) (h.st_eq.trans hrun.1) (h.ph_eq.trans hp) h.complete_iff
  simp only [decRunPhase, hp, copyStep] at hstep
  cases hd : s.dec.copyDone with
  | true =>
    simp only [hdone, hd, if_true] at hquiet hstep
    refine ⟨_, _, hquiet, hstep, ?_, rfl, fun _ => ?_⟩
    · exact h.move (congrArg (fun d : Dec => { d with ph := .guard }) h.core) rfl rfl
        (.inr (decRuns_of_decStep hrun hstep hrun.1))
    · simp [Dec.quietLeft, hp]
  | false =>
    simp only [hdone, hd, Bool.false_eq_true, if_false] at hquiet hstep
    obtain ⟨hci, ho⟩ := Dec.copyDone_false hp hrun.2.2.1 hd
    have hsrc : sh.dec.copySource = s.dec.copySource := h.agree Dec.copySource fun _ => rfl
    refine ⟨_, _, hquiet, hstep, ?_, rfl, fun _ => ?_⟩
    · rw [hsrc]
      exact h.emit ho (congrArg Dec.copyByte h.core) rfl rfl rfl (decRuns_of_decStep hrun hstep hrun.1)
    · have hsucc : (s.dec.ci + 1#5).toNat = s.dec.ci.toNat + 1 := toNat_succ_of_lt hci
      simp [Dec.quietLeft, hp, hsucc, -BitVec.toNat_add]
      omega

/-- The shadow's step without a byte is DEC's, and uses up one of them. -/
theorem Shadow.Follows.quiet {x : List Byte} {sh : Shadow} {s : State} (h : sh.Follows x s) (hrun : DecRuns s s.dec.ph)
    (hq : s.dec.ph.fetches = false) : sh.QuietStep x s := by
  cases hp : s.dec.ph with
  | guard => exact h.quiet_guard hrun hp
  | bit =>
    have hstep := decStep_of_decRuns hrun
    simp only [decRunPhase, hp] at hstep
    refine ⟨_, _, quietStep_bit (h.st_eq.trans hrun.1) (h.ph_eq.trans hp), hstep, ?_, rfl, fun _ => ?_⟩
    · exact h.move (congrArg Dec.bitStep h.core) rfl rfl (.inr (decRuns_of_decStep hrun hstep hrun.1))
    · cases hk : s.dec.kindBit <;> simp [Dec.quietLeft, hp, hk]
  | copy => exact h.quiet_copy hrun hp
  | flag => rw [hp] at hq; cases hq
  | lit => rw [hp] at hq; cases hq
  | refU => rw [hp] at hq; cases hq
  | refL => rw [hp] at hq; cases hq

/-- DEC is done, or a byte is due in it. -/
def State.AtByte (s : State) : Prop := s.dec.st = .done ∨ (DecRuns s s.dec.ph ∧ s.dec.ph.fetches = true)

/-- With enough fuel the shadow settles where DEC is done or needs a byte. -/
theorem Shadow.Follows.settle_of_le {x : List Byte} (k : Nat) {sh : Shadow} {s : State} (h : sh.Follows x s)
    (hk : s.dec.st = .run → s.dec.quietLeft ≤ k) :
    ∃ t, DecReaches s t ∧ (sh.settle x k).Follows x t ∧ t.AtByte ∧ t.dec.iptr = s.dec.iptr := by
  induction k generalizing sh s with
  | zero =>
    refine ⟨s, .refl, h, ?_, rfl⟩
    rcases h.runs with ⟨hdone, -⟩ | hrun
    · exact .inl hdone
    · refine .inr ⟨hrun, ?_⟩
      have := hk hrun.1
      cases hp : s.dec.ph <;> simp [Dec.quietLeft, hp] at this <;> rfl
  | succ k ih =>
    have stays : s.AtByte → sh.quietStep x = none →
        ∃ t, DecReaches s t ∧ (sh.settle x (k + 1)).Follows x t ∧ t.AtByte ∧ t.dec.iptr = s.dec.iptr := by
      intro hat hnone
      refine ⟨s, .refl, ?_, hat, rfl⟩
      simp only [Shadow.settle, hnone]
      exact h
    rcases h.runs with ⟨hdone, -⟩ | hrun
    · exact stays (.inl hdone) (quietStep_none (.inl (by rw [h.st_eq, hdone]; decide)))
    · cases hf : s.dec.ph.fetches with
      | true => exact stays (.inr ⟨hrun, hf⟩) (quietStep_none (.inr (by rw [h.ph_eq, hf])))
      | false =>
        obtain ⟨sh', t, hquiet, hstep, hfollows, hiptr, hless⟩ := h.quiet hrun hf
        obtain ⟨u, htu, hu, hat, hu'⟩ := ih hfollows fun ht => by
          have hlt := hless ht
          have hle := hk hrun.1
          omega
        refine ⟨u, .head hstep htu, ?_, hat, hu'.trans hiptr⟩
        simp only [Shadow.settle, hquiet]
        exact hu

theorem Shadow.Follows.settle {x : List Byte} {sh : Shadow} {s : State} (h : sh.Follows x s) :
    ∃ t, DecReaches s t ∧ (sh.settle x Shadow.fuel).Follows x t ∧ t.AtByte ∧ t.dec.iptr = s.dec.iptr := by
  refine h.settle_of_le _ fun hst => ?_
  rcases h.runs with ⟨hdone, -⟩ | hrun
  · rw [hdone] at hst; cases hst
  · exact Dec.quietLeft_le_fuel hrun.2.2.1

/-! ## The byte that is due -/

/-- A shadow that is done reads no further byte (R102). -/
theorem Shadow.consume_of_done {x : List Byte} {sh : Shadow} (h : sh.dec.st = .done) (raw : Byte) :
    sh.consume x raw = sh := by
  rw [Shadow.consume, if_neg (by rw [h]; decide)]

theorem Shadow.consume_flag {x : List Byte} {sh : Shadow} (hst : sh.dec.st = .run) (hp : sh.dec.ph = .flag) (raw : Byte) :
    sh.consume x raw = { sh with dec := sh.dec.loadFlag (mask raw) } := by
  simp only [Shadow.consume, hst, hp, if_true]

theorem Shadow.consume_lit {x : List Byte} {sh : Shadow} (hst : sh.dec.st = .run) (hp : sh.dec.ph = .lit) (raw : Byte) :
    sh.consume x raw =
      { sh with dec := { sh.dec.advance.emit (mask raw) with ph := .guard }, count := sh.count + 1
                mismatch := sh.mismatch || (x[sh.count.toNat]? != some (mask raw)) } := by
  simp only [Shadow.consume, hst, hp, if_true]
  rfl

theorem Shadow.consume_refU {x : List Byte} {sh : Shadow} (hst : sh.dec.st = .run) (hp : sh.dec.ph = .refU) (raw : Byte) :
    sh.consume x raw = { sh with dec := sh.dec.latchU (mask raw) } := by
  simp only [Shadow.consume, hst, hp, if_true]

theorem Shadow.consume_refL {x : List Byte} {sh : Shadow} (hst : sh.dec.st = .run) (hp : sh.dec.ph = .refL) (raw : Byte) :
    sh.consume x raw = { sh with dec := sh.dec.latchL (mask raw) } := by
  simp only [Shadow.consume, hst, hp, if_true]

/-- FLAG with its byte there (R123). -/
theorem DecRuns.flag {s : State} {raw : Byte} {rest : List Byte} (h : DecRuns s .flag) (hrest : s.streamRest = raw :: rest) :
    decStep s = .next { s with dec := s.dec.loadFlag (mask raw) } := by
  have hx := Dec.exhausted_of_lt (State.iptr_lt_of_streamRest h.2.2.2 hrest)
  rw [decStep_of_decRuns h]
  simp only [decRunPhase, h.2.1, hrest, decode, decodeStream, exec, execFlag, hx, Bool.false_eq_true, if_false]

/-- LIT with its byte there (R125). -/
theorem DecRuns.lit {s : State} {raw : Byte} {rest : List Byte} (h : DecRuns s .lit) (hrest : s.streamRest = raw :: rest) :
    decStep s = .next (literal (mask raw) s) := by
  have hx := Dec.exhausted_of_lt (State.iptr_lt_of_streamRest h.2.2.2 hrest)
  rw [decStep_of_decRuns h]
  simp only [decRunPhase, h.2.1, hrest, decode, decodeStream, exec, execLit, hx, Bool.false_eq_true, if_false]

/-- The byte that is due is consumed by both. -/
theorem Shadow.Follows.consume {x : List Byte} {sh : Shadow} {s : State} {raw : Byte} {rest : List Byte}
    (h : sh.Follows x s) (hrun : DecRuns s s.dec.ph) (hf : s.dec.ph.fetches = true) (hrest : s.streamRest = raw :: rest) :
    ∃ t, decStep s = .next t ∧ (sh.consume x raw).Follows x t ∧ t.dec.iptr = s.dec.iptr + 1 := by
  have hst := h.st_eq.trans hrun.1
  have hph := h.ph_eq
  cases hp : s.dec.ph with
  | flag =>
    have hstep := DecRuns.flag (hp ▸ hrun) hrest
    refine ⟨_, hstep, ?_, rfl⟩
    rw [consume_flag hst (hph.trans hp)]
    exact h.move (congrArg (Dec.loadFlag (mask raw)) h.core) rfl rfl (.inr (decRuns_of_decStep hrun hstep hrun.1))
  | lit =>
    have hstep := DecRuns.lit (hp ▸ hrun) hrest
    have hroom := ((Dec.inRange_fetch (.inr (.inl hp))).mp hrun.2.2.1).2.1
    refine ⟨_, hstep, ?_, rfl⟩
    rw [consume_lit hst (hph.trans hp)]
    exact h.emit hroom (congrArg (fun d : Dec => { d.advance.emit (mask raw) with ph := .guard }) h.core) rfl rfl rfl
      (decRuns_of_decStep hrun hstep hrun.1)
  | refU =>
    have hstep := (DecRuns.refU (hp ▸ hrun) hrest).1
    refine ⟨_, hstep, ?_, rfl⟩
    rw [consume_refU hst (hph.trans hp)]
    exact h.move (congrArg (Dec.latchU (mask raw)) h.core) rfl rfl (.inr (decRuns_of_decStep hrun hstep hrun.1))
  | refL =>
    have hstep := (DecRuns.refL (hp ▸ hrun) hrest).1
    refine ⟨_, hstep, ?_, rfl⟩
    rw [consume_refL hst (hph.trans hp)]
    exact h.move (congrArg (Dec.latchL (mask raw)) h.core) rfl rfl (.inr (decRuns_of_decStep hrun hstep hrun.1))
  | guard => rw [hp] at hf; cases hf
  | bit => rw [hp] at hf; cases hf
  | copy => rw [hp] at hf; cases hf

/-- The shadow's own `SLEN` is in no rule it runs by. -/
theorem Shadow.Follows.withSlen {x : List Byte} {sh : Shadow} {s : State} (h : sh.Follows x s) (slen : BitVec 40) :
    ({ sh with dec := { sh.dec with slen := slen } } : Shadow).Follows x s :=
  ⟨h.core, h.count, h.bound, h.compared, h.runs⟩

/-! ## Feeding is decoding -/

/-- DEC is done, or the rest of its stream is `ws`. -/
def State.Awaits (s : State) (ws : List Byte) : Prop := s.dec.st = .done ∨ s.streamRest = ws

theorem State.streamRest_congr {s t : State} (hS : t.inS = s.inS) (hslen : t.dec.slen = s.dec.slen)
    (hi : t.dec.iptr = s.dec.iptr) : t.streamRest = s.streamRest := by
  unfold State.streamRest
  rw [hS, hslen, hi]

theorem DecReaches.inS {s t : State} (h : DecReaches s t) : t.inS = s.inS := by
  rw [h.frame.1]

/-- One more byte fed: DEC goes on to where it needs the next (R182). -/
theorem Shadow.Follows.feed {x : List Byte} {sh : Shadow} {s : State} {raw : Byte} {ws : List Byte} (h : sh.Follows x s)
    (haw : s.Awaits (raw :: ws)) : ∃ t, DecReaches s t ∧ (sh.feed x raw).Follows x t ∧ t.Awaits ws := by
  obtain ⟨t₁, hreach₁, h₁, hat₁, hiptr₁⟩ := h.settle
  have h₂ := h₁.withSlen ((sh.settle x Shadow.fuel).dec.slen + 1)
  have hrest₁ : t₁.streamRest = s.streamRest := State.streamRest_congr hreach₁.inS hreach₁.frame.2.2 hiptr₁
  rcases hat₁ with hdone | ⟨hrun, hf⟩
  · -- a DEC that is done stays so
    obtain ⟨t₂, hreach₂, h₃, hat₂, -⟩ := h₂.settle
    have hdone₂ : t₂.dec.st = .done := by rw [hreach₂.eq_of_stopped (by rw [hdone]; rfl), hdone]
    refine ⟨t₂, hreach₁.trans hreach₂, ?_, .inl hdone₂⟩
    rw [Shadow.feed, consume_of_done (h₂.st_eq.trans hdone)]
    exact h₃
  · have hne : s.dec.st ≠ .done := by
      intro hd
      have hst := hrun.1
      rw [hreach₁.eq_of_stopped (by rw [hd]; rfl), hd] at hst
      cases hst
    have hrest : t₁.streamRest = raw :: ws := hrest₁.trans (haw.resolve_left hne)
    obtain ⟨t₂, hstep₂, h₃, hiptr₂⟩ := h₂.consume hrun hf hrest
    obtain ⟨t₃, hreach₃, h₄, -, hiptr₃⟩ := h₃.settle
    have hstep := decStep_frame hstep₂
    refine ⟨t₃, hreach₁.trans (.head hstep₂ hreach₃), h₄, .inr ?_⟩
    refine State.streamRest_advance hrun.2.2.2 hrest ?_ ?_ ?_
    · rw [hreach₃.inS, hstep.1]
    · rw [hreach₃.frame.2.2, hstep.2.2]
    · rw [hiptr₃, hiptr₂]

/-- All the rest of the stream fed: DEC is done, or nothing of its stream is left. -/
theorem Shadow.Follows.feedAll {x ws : List Byte} {sh : Shadow} {s : State} (h : sh.Follows x s) (haw : s.Awaits ws) :
    ∃ t, DecReaches s t ∧ (sh.feedAll x ws).Follows x t ∧ t.Awaits [] := by
  induction ws generalizing sh s with
  | nil => exact ⟨s, .refl, h, haw⟩
  | cons raw ws ih =>
    obtain ⟨t, hreach, hfollows, hawaits⟩ := h.feed haw
    obtain ⟨u, hreach', hrest⟩ := ih hfollows hawaits
    exact ⟨u, hreach.trans hreach', hrest⟩

/-- With no byte left, a DEC in which one is due faults (R202, R203). -/
theorem decStep_faults {s : State} (hrun : DecRuns s s.dec.ph) (hf : s.dec.ph.fetches = true) (hrest : s.streamRest = []) :
    ∃ t, decStep s = .next t ∧ t.dec.st = .fault := by
  rw [decStep_of_decRuns hrun]
  cases hp : s.dec.ph <;> simp only [hp, DecPhase.fetches, reduceCtorEq] at hf <;>
    simp only [decRunPhase, hp, hrest, decode, decodeStream] <;> exact ⟨_, rfl, rfl⟩

/-- The shadow after START with `P = N` (R43) is where a DEC launched for `N` bytes is after INIT. -/
theorem Shadow.Follows.launched (x w : List Byte) (n : BitVec 33) (sh : Shadow) (s : State) (hn : n.toNat < 2 ^ 32) :
    (Shadow.init n sh).Follows x (decLaunched s w (n.setWidth 32)) := by
  refine ⟨rfl, rfl, ?_, ?_, .inr (decLaunched_runs s w _)⟩
  · show n.toNat = (n.setWidth 32).toNat
    rw [BitVec.toNat_setWidth, Nat.mod_eq_of_lt hn]
  · exact ⟨fun _ k hk => absurd hk (Nat.not_lt_zero k), fun _ => rfl⟩

/-- A stream that `SLEN` can say is awaited whole at the start. -/
theorem decLaunched_awaits (s : State) (w : List Byte) (p : BitVec 32) (hw : w.length < 2 ^ 40) :
    (decLaunched s w p).Awaits w := by
  refine .inr ?_
  show (w.take (BitVec.ofNat 40 (min w.length (2 ^ 40 - 1))).toNat).drop 0 = w
  rw [launchedSlen_toNat, Nat.min_eq_left (by omega), List.take_length, List.drop_zero]

/-- Where the shadow has settled after the last byte, DEC stops, in DONE exactly if the shadow is (R182). -/
theorem Shadow.Follows.final {x : List Byte} {sh : Shadow} {s : State} (h : sh.Follows x s) (hat : s.AtByte)
    (haw : s.Awaits []) :
    (s.dec.st = .done ∧ s.dec.ocnt = s.dec.p) ∨
    (sh.dec.st = .run ∧ ∃ t, DecReaches s t ∧ t.dec.st = .fault) := by
  rcases h.runs with hdone | hrun
  · exact .inl hdone
  · have hne : s.dec.st ≠ .done := by rw [hrun.1]; decide
    obtain ⟨t, hstep, hfault⟩ := decStep_faults hrun (hat.resolve_left hne).2 (haw.resolve_left hne)
    exact .inr ⟨h.st_eq.trans hrun.1, t, .single hstep, hfault⟩

/-- Settles O43: the shadow follows DEC through the bytes fed; then DEC is done with it, or faults where it waits. -/
theorem shadowDecidesAsDecoder : Obligations.ShadowDecidesAsDecoder := by
  intro x w n sh t hn hw hafter
  obtain ⟨hreach, hstop⟩ := stateAfter_decSteps rfl rfl hafter
  have hstart := Shadow.Follows.launched x w n sh State.reset hn
  obtain ⟨u, hreachU, hfed, hawaits⟩ := hstart.feedAll (decLaunched_awaits State.reset w _ hw)
  obtain ⟨v, hreachV, hfin, hat, hiptr⟩ := hfed.settle
  have hawaitsV : v.Awaits [] := by
    rcases hawaits with hdone | hrest
    · rw [hreachV.eq_of_stopped (by rw [hdone]; rfl)]; exact .inl hdone
    · exact .inr ((State.streamRest_congr hreachV.inS hreachV.frame.2.2 hiptr).trans hrest)
  dsimp only
  rcases hfin.final hat hawaitsV with ⟨hdone, ho⟩ | ⟨hwait, e, hreachE, hfault⟩
  · -- DEC is done where the shadow is
    have ht : t = v := hreach.unique (hreachU.trans hreachV) hstop (by rw [hdone]; rfl)
    subst ht
    have hp : t.dec.p.toNat = n.toNat := by
      rw [hreach.frame.2.1]
      show (n.setWidth 32).toNat = n.toNat
      rw [BitVec.toNat_setWidth, Nat.mod_eq_of_lt hn]
    refine ⟨by rw [hfin.st_eq], fun _ => ⟨hfin.agree Dec.iptr fun _ => rfl, ?_⟩⟩
    rw [hfin.compared, EmittedIs, ho, hp]
  · -- DEC faults where the shadow waits
    have ht : t = e := hreach.unique (hreachU.trans (hreachV.trans hreachE)) hstop (by rw [hfault]; rfl)
    subst ht
    rw [hwait, hfault]
    exact ⟨⟨nofun, nofun⟩, nofun⟩

end Sys2Proof.Machine
end

section
/-! SUPPORT. The canonical form of every memory (R60, R61, log entries 6, 19): each phase step and each act of the host keeps
it. -/

namespace Sys2Proof.Machine

/-! ## DEC -/

/-- A phase of DEC writes a ring and `O` by `Emit` alone (R129). -/
theorem decRunPhase_canonical {s t : State} (hs : s.dec.slen.toNat ≤ s.inS.length) (hr : s.dec.inRange = true)
    (hc : MemoryCanonical s) (h : decRunPhase s = .next t) : MemoryCanonical t := by
  rcases decRunPhase_next hs hr h with ⟨-, rfl⟩ | ⟨-, -, rfl⟩ | ⟨-, -, raw, -, rfl⟩ | ⟨-, rfl⟩ | ⟨-, -, rfl⟩ |
    ⟨-, -, raw, -, rfl⟩ | ⟨-, -, rfl⟩ | ⟨-, -, raw, -, rfl⟩ | ⟨-, -, rfl⟩ | ⟨-, -, raw, -, rfl⟩ | ⟨-, -, rfl⟩ | ⟨-, -, rfl⟩
  · rcases s.dec.guardStep_cases with ⟨-, heq⟩ | ⟨-, -, heq⟩ | ⟨-, -, heq⟩ <;> rw [heq] <;> exact hc.withDec rfl
  · exact hc.withDec rfl
  · exact hc.withDec rfl
  · exact hc.withDec rfl
  · exact hc.withDec rfl
  · exact literal_canonical hc _
  · exact hc.withDec rfl
  · exact hc.withDec rfl
  · exact hc.withDec rfl
  · exact hc.withDec rfl
  · exact hc.withDec rfl
  · exact copyByte_canonical hc

theorem decStep_canonical {s t : State} (hc : MemoryCanonical s) (h : decStep s = .next t) : MemoryCanonical t := by
  rcases decStep_next h with ⟨-, rfl⟩ | ⟨-, rfl⟩ | ⟨-, hs, hr, hphase⟩
  · exact hc
  · obtain ⟨-, he, hsh, hO, hY⟩ := hc
    exact ⟨Ring.seeded_wf, he, hsh, hO, hY⟩
  · exact decRunPhase_canonical hs hr hc hphase

/-! ## ENC -/

/-- A change of ENC that leaves canonical rings, the shadow's among them, keeps every memory canonical. -/
theorem MemoryCanonical.withEnc {s : State} (hc : MemoryCanonical s) {e : Enc} (he : e.ring.wf)
    (hsh : ∀ sh ∈ e.shadow, sh.dec.ring.wf) : MemoryCanonical { s with enc := e } := by
  obtain ⟨hd, -, -, hO, hY⟩ := hc
  exact ⟨hd, he, hsh, hO, hY⟩

/-- What keeps the ring of a shadow decoder canonical keeps it where there may be one. -/
theorem Shadow.map_wf {o : Option Shadow} {f : Shadow → Shadow} (ho : ∀ sh ∈ o, sh.dec.ring.wf)
    (hf : ∀ sh : Shadow, sh.dec.ring.wf → (f sh).dec.ring.wf) : ∀ sh ∈ o.map f, sh.dec.ring.wf := by
  intro sh hsh
  obtain ⟨sh', hmem, rfl⟩ := Option.map_eq_some_iff.mp hsh
  exact hf sh' (ho sh' hmem)

theorem Enc.commitRef_shadow (bs : List Byte) (e : Enc) : (e.commitRef bs).shadow = e.shadow :=
  Enc.ringWriteAll_shadow bs _

/-- The end of a passed FLUSH: the shadow runs on, and `ST` is `DONE` (R173). -/
theorem finished_canonical {s : State} (hc : MemoryCanonical s) :
    MemoryCanonical { s with enc := { s.enc with shadow := s.enc.shadow.map (Shadow.finish s.inX), st := .done } } := by
  have ⟨_, he, hsh, _⟩ := hc
  exact hc.withEnc he (Shadow.map_wf hsh fun _ => Shadow.settle_wf Shadow.fuel)

/-- FLUSH writes the pending block, if there is one, and lets the shadow run; a failed check leaves all as it was (R173). -/
theorem flushStep_canonical {s : State} (hc : MemoryCanonical s) (hr : s.enc.inRange = true) :
    MemoryCanonical (flushStep s) := by
  by_cases hq : s.enc.qn = 0
  · simp only [flushStep, hq, if_true]
    split
    · exact finished_canonical hc
    · exact hc
  · simp only [flushStep, hq, if_false]
    split
    · exact finished_canonical (writeBlock_canonical hc hr)
    · exact hc

/-- A phase of ENC writes its ring by `RingWrite` and `Y` by block emission alone (R170, R171). -/
theorem encRunPhase_canonical {s t : State} (hr : s.enc.inRange = true) (hc : MemoryCanonical s)
    (h : encRunPhase s = .next t) : MemoryCanonical t := by
  have ⟨_, he, hsh, _⟩ := hc
  rcases encRunPhase_next h with ⟨-, rfl⟩ | ⟨-, rfl⟩ | ⟨-, rfl⟩ | ⟨-, -, b, rest, -, rfl⟩ | ⟨-, -, -, rfl⟩ | ⟨-, rfl⟩ |
    ⟨-, rfl⟩
  · unfold Enc.guardStep
    split <;> exact hc
  · exact hc
  · exact hc
  · exact hc.withEnc (Ring.write_wf he _ _) hsh
  · exact hc.withEnc (Enc.ringWriteAll_wf _ he) (by rw [Enc.commitRef_shadow]; exact hsh)
  · exact writeBlock_canonical hc hr
  · exact flushStep_canonical hc hr

theorem encStep_canonical {s t : State} (hc : MemoryCanonical s) (h : encStep s = .next t) : MemoryCanonical t := by
  rcases encStep_next h with ⟨-, rfl⟩ | ⟨-, rfl⟩ | ⟨-, -, hr, hphase⟩
  · exact hc
  · have ⟨_, _, hsh, _⟩ := hc
    exact hc.withEnc Ring.seeded_wf (Shadow.map_wf hsh fun _ _ => Ring.seeded_wf)
  · exact encRunPhase_canonical hr hc hphase

/-! ## The host -/

theorem setIe_canonical {s : State} (hc : MemoryCanonical s) (engine : Engine) (ie : Bool) :
    MemoryCanonical (setIe engine ie s) := by
  cases engine <;> exact hc

/-- ABORT leaves unspecified rings, with no cell listed (R144, R186). -/
theorem abortEngine_canonical {s : State} (hc : MemoryCanonical s) (engine : Engine) :
    MemoryCanonical (abortEngine engine s) := by
  cases engine with
  | dec =>
    obtain ⟨-, he, hsh, hO, hY⟩ := hc
    exact ⟨Ring.drawn_wf _, he, hsh, hO, hY⟩
  | enc =>
    have ⟨_, _, hsh, _⟩ := hc
    exact hc.withEnc (Ring.drawn_wf _) (Shadow.map_wf hsh fun _ _ => Ring.drawn_wf _)

/-- The reset input leaves unspecified rings; the host's spaces stay (R57, R241, R242). -/
theorem hardwareReset_canonical {s : State} (hc : MemoryCanonical s) : MemoryCanonical (hardwareReset s) := by
  obtain ⟨-, -, hsh, hO, hY⟩ := hc
  exact ⟨Ring.drawn_wf _, Ring.drawn_wf _, Shadow.map_wf hsh fun _ _ => Ring.drawn_wf _, hO, hY⟩

/-- A register write gives a command or programs registers; neither lists a cell (R52, R53). -/
theorem writeRegister_canonical {engine : Engine} {offset : BitVec 16} {v : Word} {s t : State} (hc : MemoryCanonical s)
    (h : writeRegister engine offset v s = .next t) : MemoryCanonical t := by
  unfold writeRegister at h
  split at h
  · rcases writeCtrl_next h with rfl | rfl | ⟨-, -, -, rfl⟩ | ⟨-, -, -, -, rfl⟩
    · exact abortEngine_canonical (setIe_canonical hc _ _) _
    · exact setIe_canonical hc _ _
    · exact hc.withDec rfl
    · exact hc
  · rcases writeProgrammable_next h with rfl | ⟨-, -, d, hw, rfl⟩ | ⟨-, -, e, hw, rfl⟩
    · exact hc
    · exact hc.withDec (by rw [(Dec.writeReg_some hw).2])
    · rcases Enc.writeReg_some hw with ⟨-, he⟩ | he <;> rw [he] <;> exact hc

theorem hostStep_canonical {action : HostAction} {s t : State} (hc : MemoryCanonical s)
    (h : hostStep action s = .next t) : MemoryCanonical t := by
  cases action with
  | hardwareReset => rw [← Host.Outcome.next.inj h]; exact hardwareReset_canonical hc
  | write engine offset value => exact writeRegister_canonical hc h
  | read engine offset => rw [readRegister_next h]; exact hc
  | bindStream bytes => rw [(hostStep_bindStream_next h).2]; exact hc
  | bindPixels bytes => rw [(hostStep_bindPixels_next h).2]; exact hc

/-! ## Every step -/

theorem runEvent_canonical {event : Event} {s t : State} (hc : MemoryCanonical s) (h : runEvent event s = .next t) :
    MemoryCanonical t := by
  cases event with
  | host action => exact hostStep_canonical hc h
  | phase engine =>
    cases engine with
    | dec => exact decStep_canonical hc h
    | enc => exact encStep_canonical hc h
  | operation => exact (decOperation_reaches h).induct MemoryCanonical hc fun _ _ => decStep_canonical

/-- Settles O49: every event keeps the canonical form, and with none due the step is one of DEC or of ENC. -/
theorem stepKeepsMemoryCanonical : Obligations.StepKeepsMemoryCanonical := by
  intro s t hc h
  rcases step_cases s with ⟨event, rest, -, hstep⟩ | ⟨-, -, hstep⟩ | ⟨-, -, hstep⟩ <;> rw [h] at hstep
  · exact runEvent_canonical (s := { s with agenda := rest }) hc hstep.symm
  · exact encStep_canonical hc hstep.symm
  · exact decStep_canonical hc hstep.symm

end Sys2Proof.Machine
end

section
/-! SUPPORT. The encoder undoes the decoder and the decoder the encoder, field by field (30_encoding.md R91 to R99, R108). -/

namespace Sys2Proof.Machine

/-! ## The wire mask (R97) -/

@[simp] theorem mask_mask (b : Byte) : mask (mask b) = b := by
  simp only [mask, BitVec.xor_assoc, BitVec.xor_self, BitVec.xor_zero]

/-! ## The two bytes of a REF (R94, R95) -/

theorem Instr.wellFormed_ref (position : RingAddr) (length : BitVec 5) :
    (Instr.ref position length).wellFormed = true ↔ 3 ≤ length.toNat ∧ length.toNat ≤ 18 := by
  simp only [Instr.wellFormed, Bool.and_eq_true, decide_eq_true_eq]

/-- R95 in numbers: the low half of the position above the length that is left without its 3. -/
theorem refU_toNat (position : RingAddr) {length : BitVec 5} (h3 : 3 ≤ length.toNat) (h18 : length.toNat ≤ 18) :
    (refU position length).toNat = 16 * (position.toNat % 16) + (length.toNat - 3) := by
  have hand : position.toNat &&& 15 = position.toNat % 16 := Nat.and_two_pow_sub_one_eq_mod position.toNat 4
  have hlen : (length - 3#5).toNat = length.toNat - 3 := BitVec.toNat_sub_of_le (BitVec.le_def.mpr h3)
  have hor := Nat.shiftLeft_add_eq_or_of_lt (i := 4) (b := length.toNat - 3) (by omega) (position.toNat % 16)
  simp only [Nat.shiftLeft_eq, Nat.reducePow] at hor
  simp only [refU, BitVec.toNat_or, BitVec.toNat_shiftLeft, BitVec.toNat_setWidth, BitVec.toNat_and, BitVec.toNat_ofNat,
    hlen, hand, Nat.shiftLeft_eq, Nat.reducePow, Nat.reduceMod]
  rw [show position.toNat % 16 % 256 * 16 % 256 = position.toNat % 16 * 16 by omega,
    show (length.toNat - 3) % 256 = length.toNat - 3 by omega, ← hor]
  omega

theorem refL_toNat (position : RingAddr) : (refL position).toNat = position.toNat / 16 := by
  have hpos := position.isLt
  simp only [refL, BitVec.toNat_setWidth, BitVec.toNat_ushiftRight, Nat.shiftRight_eq_div_pow, Nat.reducePow]
  omega

theorem refLength_refU (position : RingAddr) {length : BitVec 5} (h3 : 3 ≤ length.toNat) (h18 : length.toNat ≤ 18) :
    refLength (refU position length) = length := by
  apply BitVec.eq_of_toNat_eq
  rw [refLength_toNat, refU_toNat position h3 h18]
  omega

theorem refPosition_refU_refL (position : RingAddr) {length : BitVec 5} (h3 : 3 ≤ length.toNat) (h18 : length.toNat ≤ 18) :
    refPosition (refU position length) (refL position) = position := by
  apply BitVec.eq_of_toNat_eq
  rw [refPosition_toNat, refU_toNat position h3 h18, refL_toNat]
  omega

/-- Every length that a first byte can hold is one of the format (R94). -/
theorem refLength_bounds (u : Byte) : 3 ≤ (refLength u).toNat ∧ (refLength u).toNat ≤ 18 := by
  rw [refLength_toNat]
  omega

/-! ## CTRL words (R52, R108) -/

theorem ctrlWord_startBit (unused : BitVec 29) (ie abortBit startBit : Bool) :
    (ctrlWord unused ie abortBit startBit).getLsbD 0 = startBit := by
  simp only [ctrlWord, BitVec.getLsbD_append]
  simp

theorem ctrlWord_abortBit (unused : BitVec 29) (ie abortBit startBit : Bool) :
    (ctrlWord unused ie abortBit startBit).getLsbD 1 = abortBit := by
  simp only [ctrlWord, BitVec.getLsbD_append]
  simp

theorem ctrlWord_ie (unused : BitVec 29) (ie abortBit startBit : Bool) :
    (ctrlWord unused ie abortBit startBit).getLsbD 2 = ie := by
  simp only [ctrlWord, BitVec.getLsbD_append]
  simp

theorem ctrlWord_unused (unused : BitVec 29) (ie abortBit startBit : Bool) :
    (ctrlWord unused ie abortBit startBit).extractLsb' 3 29 = unused := by
  apply BitVec.eq_of_getLsbD_eq
  intro i hi
  have h0 : ¬ 3 + i < 1 := by omega
  have h1 : ¬ 3 + i - 1 < 1 := by omega
  have h2 : ¬ 3 + i - 1 - 1 < 1 := by omega
  have hi' : 3 + i - 1 - 1 - 1 = i := by omega
  simp only [ctrlWord, BitVec.getLsbD_extractLsb', BitVec.getLsbD_append, h0, h1, h2, hi', hi, if_false, decide_true,
    Bool.true_and]

/-- The four fields of a CTRL word are the whole word. -/
theorem ctrlWord_fields (v : Word) :
    ctrlWord (v.extractLsb' 3 29) (v.getLsbD 2) (v.getLsbD 1) (v.getLsbD 0) = v := by
  apply BitVec.eq_of_getLsbD_eq
  intro i hi
  match i with
  | 0 => exact ctrlWord_startBit _ _ _ _
  | 1 => exact ctrlWord_abortBit _ _ _ _
  | 2 => exact ctrlWord_ie _ _ _ _
  | i + 3 =>
    have hbit := congrArg (fun u : BitVec 29 => u.getLsbD i)
      (ctrlWord_unused (v.extractLsb' 3 29) (v.getLsbD 2) (v.getLsbD 1) (v.getLsbD 0))
    have hi' : i < 29 := by omega
    simpa only [BitVec.getLsbD_extractLsb', hi', decide_true, Bool.true_and, Nat.add_comm 3] using hbit

/-! ## Decoding after encoding -/

/-- Settles O1: the mask cancels, the two bytes of a REF hold both its fields, and the fields of a CTRL word are read back. -/
theorem decodeAfterEncode : Obligations.DecodeAfterEncode := by
  intro i hwf
  cases i with
  | flag kinds => simp only [encode, decode, decodeStream, mask_mask]
  | lit data => simp only [encode, decode, decodeStream, mask_mask]
  | ref position length =>
    obtain ⟨h3, h18⟩ := (Instr.wellFormed_ref position length).mp hwf
    simp only [encode, decode, decodeStream, mask_mask, refLength_refU position h3 h18, refPosition_refU_refL position h3 h18]
  | start engine unused ie =>
    rw [encode, decode_ctrl_start engine (ctrlWord_startBit _ _ _ _) (ctrlWord_abortBit _ _ _ _), ctrlWord_unused, ctrlWord_ie]
  | abort engine unused ie startBit =>
    rw [encode, decode_ctrl_abort engine (ctrlWord_abortBit _ _ _ _), ctrlWord_unused, ctrlWord_ie, ctrlWord_startBit]

/-! ## Encoding after decoding -/

theorem decode_flag_ok {wire : List Byte} {i : Instr} (h : decode (.stream .flag wire) = .ok i) :
    ∃ b tail, wire = b :: tail ∧ i = .flag (mask b) := by
  match wire, h with
  | b :: tail, h => exact ⟨b, tail, rfl, (Except.ok.inj h).symm⟩

theorem decode_lit_ok {wire : List Byte} {i : Instr} (h : decode (.stream .lit wire) = .ok i) :
    ∃ b tail, wire = b :: tail ∧ i = .lit (mask b) := by
  match wire, h with
  | b :: tail, h => exact ⟨b, tail, rfl, (Except.ok.inj h).symm⟩

theorem encode_of_decode_stream {due : Due} {wire : List Byte} {i : Instr} (h : decode (.stream due wire) = .ok i) :
    i.wellFormed = true ∧ encode i = .stream due (wire.take i.streamBytes) := by
  cases due with
  | flag =>
    obtain ⟨b, tail, rfl, rfl⟩ := decode_flag_ok h
    exact ⟨rfl, by simp [encode, Instr.streamBytes]⟩
  | lit =>
    obtain ⟨b, tail, rfl, rfl⟩ := decode_lit_ok h
    exact ⟨rfl, by simp [encode, Instr.streamBytes]⟩
  | ref =>
    obtain ⟨u, l, tail, rfl, rfl⟩ := decode_ref_ok h
    exact ⟨(Instr.wellFormed_ref _ _).mpr (refLength_bounds _),
      by simp [encode, Instr.streamBytes, refU_refPosition, refL_refPosition]⟩

theorem encode_of_decode_ctrl {engine : Engine} {v : Word} {i : Instr} (h : decode (.ctrl engine v) = .ok i) :
    i.wellFormed = true ∧ encode i = .ctrl engine v := by
  have hfields := ctrlWord_fields v
  cases habort : v.getLsbD 1 with
  | true =>
    rw [decode_ctrl_abort engine habort] at h
    rw [habort] at hfields
    rw [← Except.ok.inj h, encode, hfields]
    exact ⟨rfl, rfl⟩
  | false =>
    cases hstart : v.getLsbD 0 with
    | true =>
      rw [decode_ctrl_start engine hstart habort] at h
      rw [habort, hstart] at hfields
      rw [← Except.ok.inj h, encode, hfields]
      exact ⟨rfl, rfl⟩
    | false => rw [decode_ctrl_noCommand engine hstart habort] at h; cases h

/-- Settles O2, for what stands in the stream and for what stands in a CTRL word. -/
theorem encodeAfterDecode : Obligations.EncodeAfterDecode :=
  ⟨fun _ _ _ => encode_of_decode_stream, fun _ _ _ => encode_of_decode_ctrl⟩

/-! ## What decodes -/

/-- Settles O3: no branch of the decoder looks at the value of a byte (R99), and a REF alone takes a second one. -/
theorem everyStreamValueDecodes : Obligations.EveryStreamValueDecodes := by
  intro due wire
  match due, wire with
  | .flag, [] | .lit, [] | .ref, [] | .ref, [_] => simp [decode, decodeStream]
  | .flag, b :: tail | .lit, b :: tail => simp [decode, decodeStream]
  | .ref, u :: l :: tail => simp [decode, decodeStream]

/-- Settles O4: the mask cancels, and the two halves of the position do not overlap. -/
theorem refFieldsFromWireBytes : Obligations.RefFieldsFromWireBytes := by
  intro u l
  obtain ⟨h3, h18⟩ := refLength_bounds u
  have hor := Nat.shiftLeft_add_eq_or_of_lt (i := 4) (b := u.toNat / 16) (by have := u.isLt; omega) l.toNat
  refine ⟨refPosition u l, refLength u, ?_, ?_, refPosition_toNat u l, refLength_toNat u, h3, h18⟩
  · show decode (.stream .ref [mask u, mask l]) = _
    simp only [decode, decodeStream, mask_mask]
  · rw [refPosition_toNat, Nat.shiftRight_eq_div_pow, Nat.or_comm, ← hor, Nat.shiftLeft_eq]
    omega

/-- Settles O5: each word is a closed term that the decoder evaluates. -/
theorem specWordsDecode : Obligations.SpecWordsDecode := by
  unfold Obligations.SpecWordsDecode
  decide

end Sys2Proof.Machine
end

section
/-! SUPPORT. A step that runs an operation is `exec` of what the decoder reads at the stream index (R98, R107; D4), and what
START answers in each run state (R219). -/

namespace Sys2Proof.Machine

/-! ## The operation that is due -/

/-- DEC is in the phase in which an operation of that kind is due (R98, R107). -/
def DecPhase.MakesDue (ph : DecPhase) (due : Due) : Prop :=
  ph = .flag ∧ due = .flag ∨ ph = .lit ∧ due = .lit ∨ ph = .refU ∧ due = .ref

theorem dueInstr_of_decode {s : State} {due : Due} {i : Instr} (hp : s.dec.ph.MakesDue due)
    (hi : decode (.stream due s.streamRest) = .ok i) : dueInstr s = some i := by
  rcases hp with ⟨hp, rfl⟩ | ⟨hp, rfl⟩ | ⟨hp, rfl⟩ <;> simp only [dueInstr, hp, hi] <;> rfl

/-- The operation step of a running DEC in which an operation is due. -/
theorem decOperation_of_due {s : State} {i : Instr} (hst : s.dec.st = .run) (hr : s.dec.inRange = true)
    (hs : s.dec.slen.toNat ≤ s.inS.length) (hdue : dueInstr s = some i) : decOperation s = exec i s := by
  simp only [decOperation, hst, hdue, if_neg (Nat.not_lt.mpr hs), hr, if_true]

/-- FLAG and LIT are executed whole in their phase (R123, R125). -/
theorem decStep_of_decode {s : State} {due : Due} {i : Instr} (hst : s.dec.st = .run) (hr : s.dec.inRange = true)
    (hs : s.dec.slen.toNat ≤ s.inS.length) (hp : s.dec.ph.MakesDue due) (hdue : due ≠ .ref)
    (hi : decode (.stream due s.streamRest) = .ok i) : decStep s = exec i s := by
  rw [decStep_run hst hs hr]
  rcases hp with ⟨hp, rfl⟩ | ⟨hp, rfl⟩ | ⟨-, rfl⟩
  · simp only [decRunPhase, hp, hi]
  · simp only [decRunPhase, hp, hi]
  · exact absurd rfl hdue

/-- Settles O7: neither the operation step nor the phase step looks at the agenda, from which the event has been taken. -/
theorem stepRunsDecodedOperation : Obligations.StepRunsDecodedOperation := by
  intro s rest due i hi hst hr hs hp
  refine ⟨fun ha => ?_, fun hdue ha => ?_, fun hdue ha => ?_⟩
  · rw [step_of_event ha]
    exact decOperation_of_due (s := { s with agenda := rest }) hst hr hs (dueInstr_of_decode hp hi)
  · rw [step_of_event ha]
    exact decStep_of_decode (s := { s with agenda := rest }) hst hr hs hp hdue hi
  · rw [step_of_decActive ha (by rw [hst]; rfl)]
    exact decStep_of_decode hst hr hs hp hdue hi

/-! ## START -/

theorem RunState.stopped_of_ne {st : RunState} (hi : st ≠ .init) (hr : st ≠ .run) : st.stopped = true :=
  Bool.eq_true_of_not_eq_false fun h => ((RunState.stopped_eq_false_iff st).mp h).elim hi hr

/-- START of a stopped ENC whose `N` R34 allows and whose input is in its slice (R219). -/
theorem execStart_enc {s : State} (hst : s.enc.st.stopped = true) (hn : s.enc.n.toNat ≤ 2 ^ 32)
    (hx : s.enc.n.toNat ≤ s.inX.length) (unused : BitVec 29) (ie : Bool) :
    execStart .enc unused ie s = .next { s with enc := { s.enc with ie := ie, st := .init } } :=
  (if_pos hst).trans ((if_neg (Nat.not_lt.mpr hn)).trans (if_neg (Nat.not_lt.mpr hx)))

/-- A launch with `SLEN` beyond the slice is refused (93 U13; log entry 13). -/
theorem execStart_dec_sliceTooShort {s : State} (hst : s.dec.st.stopped = true) (hs : s.inS.length < s.dec.slen.toNat)
    (unused : BitVec 29) (ie : Bool) : execStart .dec unused ie s = .refused .streamSliceTooShort :=
  (if_pos hst).trans (if_pos hs)

/-- A launch with `N` above 2^32 is refused (R34, 93 U9; log entry 13). -/
theorem execStart_enc_countAboveLimit {s : State} (hst : s.enc.st.stopped = true) (hn : 2 ^ 32 < s.enc.n.toNat)
    (unused : BitVec 29) (ie : Bool) : execStart .enc unused ie s = .refused .pixelCountAboveLimit :=
  (if_pos hst).trans (if_pos hn)

/-- A launch with `N` beyond the slice is refused (93 U13; log entry 13). -/
theorem execStart_enc_sliceTooShort {s : State} (hst : s.enc.st.stopped = true) (hn : s.enc.n.toNat ≤ 2 ^ 32)
    (hx : s.inX.length < s.enc.n.toNat) (unused : BitVec 29) (ie : Bool) :
    execStart .enc unused ie s = .refused .pixelSliceTooShort :=
  (if_pos hst).trans ((if_neg (Nat.not_lt.mpr hn)).trans (if_pos hx))

/-- START is ignored in INIT and RUN; the write still stores IE (R219; log entry 4). -/
theorem execStart_dec_ignored {s : State} (hst : s.dec.st.stopped = false) (unused : BitVec 29) (ie : Bool) :
    execStart .dec unused ie s = .next (setIe .dec ie s) := by
  simp only [execStart, startDec, setIe_dec_dec, hst, Bool.false_eq_true, if_false]

theorem execStart_enc_ignored {s : State} (hst : s.enc.st.stopped = false) (unused : BitVec 29) (ie : Bool) :
    execStart .enc unused ie s = .next (setIe .enc ie s) := by
  simp only [execStart, startEnc, setIe_enc_enc, hst, Bool.false_eq_true, if_false]

/-- Settles O22: accepted, refused and ignored START of both engines, one lemma for each answer. -/
theorem startFollowsRunState : Obligations.StartFollowsRunState := by
  refine ⟨fun s unused ie hi hr hs => ?_, fun s unused ie hi hr hn hx => ?_, fun s unused ie hi hr hs => ?_,
    fun s unused ie hi hr hn => ?_, fun s unused ie hi hr hn hx => ?_, fun s unused ie hst => ?_,
    fun s unused ie hst => ?_⟩
  · exact execStart_dec (RunState.stopped_of_ne hi hr) hs unused ie
  · exact execStart_enc (RunState.stopped_of_ne hi hr) hn hx unused ie
  · exact execStart_dec_sliceTooShort (RunState.stopped_of_ne hi hr) hs unused ie
  · exact execStart_enc_countAboveLimit (RunState.stopped_of_ne hi hr) hn unused ie
  · exact execStart_enc_sliceTooShort (RunState.stopped_of_ne hi hr) hn hx unused ie
  · exact execStart_dec_ignored ((RunState.stopped_eq_false_iff _).mpr hst) unused ie
  · exact execStart_enc_ignored ((RunState.stopped_eq_false_iff _).mpr hst) unused ie

end Sys2Proof.Machine
end

section
/-! SUPPORT. COMMIT of a REF (R168): the two bytes it queues and the input bytes it writes to the ring. -/

namespace Sys2Proof.Machine

/-- `RingWrite` of several bytes moves the cursor past them (R171). -/
theorem Enc.ringWriteAll_rcur (bs : List Byte) (e : Enc) :
    (e.ringWriteAll bs).rcur = e.rcur + BitVec.ofNat 12 bs.length := by
  induction bs generalizing e with
  | nil => exact (BitVec.add_zero _).symm
  | cons b bs ih =>
    refine (ih (e.ringWrite b)).trans ?_
    rw [Enc.ringWrite_rcur, BitVec.add_assoc, List.length_cons, Nat.add_comm bs.length 1, BitVec.ofNat_add]
    rfl

/-- How far a cell lies behind the cursor (R61), counted from the next cursor. -/
theorem toNat_sub_succ {a c : RingAddr} (h : a ≠ c) : (a - c).toNat = (a - (c + 1)).toNat + 1 := by
  bv_omega

theorem toNat_sub_succ_self (c : RingAddr) : (c - (c + 1)).toNat = 4095 := by
  bv_omega

/-- Bytes that fit the ring are read back from the cursor on, and every other cell is as before (R61, R171). -/
theorem Enc.read_ringWriteAll {bs : List Byte} {e : Enc} (hr : e.ring.wf) (hbs : bs.length ≤ 4096) (a : RingAddr) :
    some ((e.ringWriteAll bs).ring.read a) =
      if (a - e.rcur).toNat < bs.length then bs[(a - e.rcur).toNat]? else some (e.ring.read a) := by
  induction bs generalizing e with
  | nil => simp [Enc.ringWriteAll]
  | cons b bs ih =>
    rw [List.length_cons] at hbs ⊢
    have hgo := ih (e := e.ringWrite b) (Ring.write_wf hr _ _) (by omega)
    rw [Enc.ringWrite_rcur, Enc.ringWrite_ring, Ring.read_write hr] at hgo
    refine hgo.trans ?_
    by_cases ha : a = e.rcur
    · have hfar := toNat_sub_succ_self e.rcur
      rw [ha, if_neg (by omega), if_pos rfl, BitVec.sub_self]
      simp
    · rw [toNat_sub_succ ha, if_neg ha, List.getElem?_cons_succ]
      simp only [Nat.add_lt_add_iff_right]

/-- The two bytes of a REF at the end of the queue (R95, R168). -/
theorem Enc.commitRef_qb (bs : List Byte) (e : Enc) :
    (e.commitRef bs).qb =
      (e.qb.setIfInBounds e.qbn.toNat (refU e.bpos e.best.len)).setIfInBounds (e.qbn + 1).toNat (refL e.bpos) := by
  unfold Enc.commitRef
  rw [Enc.ringWriteAll_frame]
  rfl

theorem Enc.read_commitRef {bs : List Byte} {e : Enc} (hr : e.ring.wf) (hbs : bs.length ≤ 4096) (a : RingAddr) :
    some ((e.commitRef bs).ring.read a) =
      if (a - e.rcur).toNat < bs.length then bs[(a - e.rcur).toNat]? else some (e.ring.read a) :=
  Enc.read_ringWriteAll (e := (e.pushByte (refU e.bpos e.best.len)).pushByte (refL e.bpos)) hr hbs a

/-- COMMIT of a REF in every field; `QB` and the ring are said apart (R168, R172). -/
theorem Enc.commitRef_frame (bs : List Byte) (e : Enc) :
    e.commitRef bs =
      { e with qb := (e.commitRef bs).qb, qbn := e.qbn + 2, qn := e.qn + 1, ring := (e.commitRef bs).ring
               rcur := e.rcur + BitVec.ofNat 12 bs.length, spos := e.spos + e.best.len.setWidth 33
               totops := e.totops + 1, ph := if e.qn = 7 then .pack else .guard } := by
  have hqbn : e.qbn + 1 + 1 = e.qbn + 2 := BitVec.add_assoc _ _ _
  have hqn : (e.qn + 1 = 8) = (e.qn = 7) := by simp only [eq_iff_iff]; bv_omega
  unfold Enc.commitRef
  rw [Enc.ringWriteAll_frame, Enc.ringWriteAll_rcur]
  simp only [Enc.afterCommit, Enc.pushByte_qbn, Enc.pushByte_qn, hqbn, hqn]
  rfl

theorem getElem?_setIfInBounds_two {q : Vector Byte 16} {n m : Nat} (u l : Byte) (hm : m = n + 1) {j : Nat} (hj : j < 16) :
    ((q.setIfInBounds n u).setIfInBounds m l)[j]? =
      if j = n then some u else if j = n + 1 then some l else q[j]? := by
  subst hm
  simp only [Vector.getElem?_setIfInBounds]
  grind

/-- COMMIT of a running ENC that has decided for a REF; the input covers the match (R157, R168). -/
theorem encStep_commitRef {s : State} (hrun : EncRuns s .commit) (hk : s.enc.kind = .ref) :
    (s.pixelRest.take s.enc.best.len.toNat).length = s.enc.best.len.toNat ∧
    encStep s = .next { s with enc := s.enc.commitRef (s.pixelRest.take s.enc.best.len.toNat) } := by
  obtain ⟨hst, hp, hr, hx⟩ := hrun
  obtain ⟨-, hlen⟩ := Enc.commitRef_len hp hk hr
  have hrest : s.enc.best.len.toNat ≤ s.pixelRest.length := by
    rw [State.pixelRest, List.length_drop]
    omega
  refine ⟨by rw [List.length_take, Nat.min_eq_left hrest], ?_⟩
  rw [encStep_run hst hx hr]
  simp only [encRunPhase, hp, commitStep, hk, if_neg (Nat.not_lt.mpr hrest)]

/-- Settles O39: the frame of COMMIT, the queue cell by cell and the ring cell by cell. -/
theorem commitPhaseOfRef : Obligations.CommitPhaseOfRef := by
  intro s hrun hk hwf
  obtain ⟨hbs, hstep⟩ := encStep_commitRef hrun hk
  obtain ⟨-, hp, hr, -⟩ := hrun
  obtain ⟨⟨⟨-, -, hqb2, -⟩, -⟩, hq, -⟩ := (Enc.inRange_commit hp).mp hr
  refine ⟨_, hstep, ?_, fun j hj => ?_, fun a => ?_⟩
  · have hframe := Enc.commitRef_frame (s.pixelRest.take s.enc.best.len.toNat) s.enc
    rw [hbs, BitVec.ofNat_toNat] at hframe
    exact congrArg (fun e : Enc => { s with enc := e }) hframe
  · rw [Enc.commitRef_qb]
    exact getElem?_setIfInBounds_two _ _ (toNat_add_one_of_le 14 (by omega) (by decide)) hj
  · have hfits : (s.pixelRest.take s.enc.best.len.toNat).length ≤ 4096 := by
      have hlen := s.enc.best.len.isLt
      omega
    have hread := Enc.read_commitRef hwf hfits a
    rw [hbs] at hread
    refine hread.trans (ite_congr rfl (fun ha => ?_) fun _ => rfl)
    rw [List.getElem?_take_of_lt ha, State.pixelRest, List.getElem?_drop]

end Sys2Proof.Machine
end

section
/-! SUPPORT. What `dec(S, P)` is (R120), as the one stopped state of a launched DEC, and that bytes behind the stream do not
change it (R102): a run that no missing byte ends takes the same steps on the longer stream. -/

namespace Sys2Proof.Machine

/-! ## dec(S, P) as a run of phase steps -/

/-- A launched DEC stops within `decSteps` (R141), with ENC stopped. -/
theorem stateAfter_decLaunch_stops {s : State} (hst : s.dec.st.stopped = true) (he : s.enc.st.stopped = true) (w : List Byte)
    (p : BitVec 32) : ∃ t, stateAfter (decSteps w p) (decLaunch s w p) = some t := by
  obtain ⟨k, t, hk, ht, hstop⟩ := stateAfter_ends (decLaunched_runs s w p) rfl
  have hframe := (decReaches_of_stateAfter (s := decLaunched s w p) rfl he ht).frame.1
  have hleft : (decLaunched s w p).dec.stepsLeft = 4 * (min w.length (2 ^ 40 - 1) + p.toNat) + 3 := by
    rw [← launchedSlen_toNat w]
    rfl
  have hsplit : 4 * (w.length + p.toNat) + 4 = k + (4 * (w.length + p.toNat) + 4 - k) := by omega
  refine ⟨t, ?_⟩
  rw [decSteps, stateAfter_decLaunch hst, hsplit, stateAfter_add ht]
  refine stateAfter_stopped _ ?_ ?_ ?_
  · rw [hframe]; rfl
  · rcases hstop with h | h <;> rw [h] <;> rfl
  · rw [hframe]; exact he

theorem decOutcome_ok_iff {s : State} {pixels : List Byte} :
    decOutcome s = some (.ok pixels) ↔ s.dec.st = .done ∧ pixelsUpTo s.outO s.dec.p.toNat = some pixels := by
  cases hst : s.dec.st <;> simp [decOutcome, hst]

/-- `dec(S, P) = Ok(pixels)` in terms of the phase steps: DEC, launched after reset, reaches DONE with the pixels in `O`. -/
theorem decFunction_eq_ok_iff {w : List Byte} {p : BitVec 32} {pixels : List Byte} :
    decFunction w p = some (.ok pixels) ↔
      ∃ t, DecReaches (decLaunched State.reset w p) t ∧ t.dec.st = .done ∧ pixelsUpTo t.outO p.toNat = some pixels := by
  obtain ⟨u, hu⟩ := stateAfter_decLaunch_stops (s := State.reset) rfl rfl w p
  obtain ⟨hreach, hstop⟩ := stateAfter_decSteps rfl rfl hu
  have hp : u.dec.p = p := hreach.frame.2.1
  rw [decFunction, hu, Option.bind_some, decOutcome_ok_iff, hp]
  constructor
  · rintro ⟨hdone, hpix⟩
    exact ⟨u, hreach, hdone, hpix⟩
  · rintro ⟨t, ht, hdone, hpix⟩
    rw [hreach.unique ht hstop (by rw [hdone]; rfl)]
    exact ⟨hdone, hpix⟩

/-! ## A longer stream -/

/-- The block with more bytes behind its stream, and an `SLEN` for them. -/
def State.extendStream (more : List Byte) (slen : BitVec 40) (s : State) : State :=
  { s with inS := s.inS ++ more, dec := { s.dec with slen := slen } }

/-- The greater `SLEN` counts no byte that is not there. -/
def State.SlenFits (s : State) (more : List Byte) (slen : BitVec 40) : Prop :=
  s.dec.slen.toNat ≤ slen.toNat ∧ slen.toNat ≤ (s.inS ++ more).length

theorem Dec.inRange_of_slen_le {d : Dec} (h : d.inRange = true) {slen : BitVec 40} (hle : d.slen.toNat ≤ slen.toNat) :
    ({ d with slen := slen } : Dec).inRange = true := by
  simp only [Dec.inRange, Bool.and_eq_true, decide_eq_true_eq] at h ⊢
  obtain ⟨⟨hcounts, hi⟩, hph⟩ := h
  exact ⟨⟨hcounts, hi.trans hle⟩, hph⟩

theorem DecRuns.extendStream {s : State} {ph : DecPhase} (h : DecRuns s ph) {more : List Byte} {slen : BitVec 40}
    (hfit : s.SlenFits more slen) : DecRuns (s.extendStream more slen) ph := by
  obtain ⟨hst, hp, hr, -⟩ := h
  exact ⟨hst, hp, Dec.inRange_of_slen_le hr hfit.1, hfit.2⟩

/-- A byte at the stream index is there in the longer stream too. -/
theorem State.streamRest_extendStream {s : State} {more : List Byte} {slen : BitVec 40} {raw : Byte}
    (hfit : s.SlenFits more slen) (hlt : s.dec.iptr.toNat < s.dec.slen.toNat)
    (hraw : s.inS[s.dec.iptr.toNat]? = some raw) : ∃ rest, (s.extendStream more slen).streamRest = raw :: rest := by
  obtain ⟨hle, hlen⟩ := hfit
  obtain ⟨raw', rest, hraw', hrest⟩ := State.streamRest_of_lt (s := s.extendStream more slen) hlen (hlt.trans_le hle)
  have hsame : (s.inS ++ more)[s.dec.iptr.toNat]? = some raw := by
    rw [List.getElem?_append_left (List.getElem?_eq_some_iff.mp hraw).1, hraw]
  have heq : raw' = raw := Option.some.inj (hraw'.symm.trans hsame)
  exact ⟨rest, heq ▸ hrest⟩

/-- `SLEN` is in no rule of GUARD (R122). -/
theorem Dec.guardStep_withSlen (d : Dec) (slen : BitVec 40) :
    ({ d with slen := slen } : Dec).guardStep = { d.guardStep with slen := slen } := by
  unfold Dec.guardStep
  dsimp only
  split
  · rfl
  · split <;> rfl

/-- A phase step that misses no byte is taken on the longer stream too (R142). -/
theorem decStep_extendStream {s t : State} {more : List Byte} {slen : BitVec 40} (hrun : DecRuns s s.dec.ph)
    (hfit : s.SlenFits more slen) (h : decStep s = .next t) (ht : t.dec.st ≠ .fault) :
    decStep (s.extendStream more slen) = .next (t.extendStream more slen) := by
  have hrun' := hrun.extendStream hfit
  have hphase := (decStep_of_decRuns hrun).symm.trans h
  have hstep' := decStep_of_decRuns hrun'
  have hph' : (s.extendStream more slen).dec.ph = s.dec.ph := rfl
  obtain ⟨-, -, hr, hs⟩ := hrun
  rcases decRunPhase_next hs hr hphase with ⟨hp, rfl⟩ | ⟨-, -, rfl⟩ | ⟨hp, hlt, raw, hraw, rfl⟩ | ⟨hp, rfl⟩ | ⟨-, -, rfl⟩ |
    ⟨hp, hlt, raw, hraw, rfl⟩ | ⟨-, -, rfl⟩ | ⟨hp, hlt, raw, hraw, rfl⟩ | ⟨-, -, rfl⟩ | ⟨hp, hlt, raw, hraw, rfl⟩ |
    ⟨hp, hd, rfl⟩ | ⟨hp, hd, rfl⟩
  · have hguard : (s.extendStream more slen).dec.guardStep = { s.dec.guardStep with slen := slen } :=
      s.dec.guardStep_withSlen slen
    rw [hstep']
    simp only [decRunPhase, hph', hp, hguard]
    rfl
  · exact absurd rfl ht
  · obtain ⟨rest, hrest⟩ := State.streamRest_extendStream hfit hlt hraw
    exact DecRuns.flag (hp ▸ hrun') hrest
  · rw [hstep']
    simp only [decRunPhase, hph', hp]
    rfl
  · exact absurd rfl ht
  · obtain ⟨rest, hrest⟩ := State.streamRest_extendStream hfit hlt hraw
    exact DecRuns.lit (hp ▸ hrun') hrest
  · exact absurd rfl ht
  · obtain ⟨rest, hrest⟩ := State.streamRest_extendStream hfit hlt hraw
    exact (DecRuns.refU (hp ▸ hrun') hrest).1
  · exact absurd rfl ht
  · obtain ⟨rest, hrest⟩ := State.streamRest_extendStream hfit hlt hraw
    exact (DecRuns.refL (hp ▸ hrun') hrest).1
  · have hd' : (s.extendStream more slen).dec.copyDone = true := hd
    rw [hstep']
    simp only [decRunPhase, hph', hp, copyStep, hd', if_true]
    rfl
  · have hd' : (s.extendStream more slen).dec.copyDone = false := hd
    rw [hstep']
    simp only [decRunPhase, hph', hp, copyStep, hd', Bool.false_eq_true, if_false]
    rfl

/-- A run that ends in DONE ends in DONE on the longer stream, with the same output. -/
theorem DecReaches.extendStream {s t : State} {more : List Byte} {slen : BitVec 40} (h : DecReaches s t)
    (hrun : DecRuns s s.dec.ph) (hfit : s.SlenFits more slen) (ht : t.dec.st = .done) :
    DecReaches (s.extendStream more slen) (t.extendStream more slen) := by
  induction h using Relation.ReflTransGen.head_induction_on with
  | refl => exact .refl
  | @head a b hab hbt ih =>
    have hbt : DecReaches b t := hbt
    obtain ⟨hframe, -, hslen⟩ := decStep_frame hab
    have hfit' : b.SlenFits more slen := by
      unfold State.SlenFits
      rw [hslen, hframe]
      exact hfit
    have hnofault : b.dec.st ≠ .fault := by
      intro hfault
      rw [hbt.eq_of_stopped (by rw [hfault]; rfl), hfault] at ht
      cases ht
    have hstep := decStep_extendStream hrun hfit hab hnofault
    rcases (whatEndsRunOfDec a b hrun.1 hab).1 with hgo | hdone | hfault
    · exact .head hstep (ih (decRuns_of_decStep hrun hab hgo) hfit')
    · rw [hbt.eq_of_stopped (by rw [hdone]; rfl)]
      exact .single hstep
    · exact absurd hfault hnofault

/-- Settles O55: the launch with the trailing bytes is the launch on the longer stream. -/
theorem trailingBytesIgnored : Obligations.TrailingBytesIgnored := by
  intro stream trailing p pixels h
  obtain ⟨t, hreach, hdone, hpix⟩ := decFunction_eq_ok_iff.mp h
  have hlong := launchedSlen_toNat (stream ++ trailing)
  have hfit : (decLaunched State.reset stream p).SlenFits trailing
      (BitVec.ofNat 40 (min (stream ++ trailing).length (2 ^ 40 - 1))) := by
    refine ⟨?_, ?_⟩
    · show (BitVec.ofNat 40 (min stream.length (2 ^ 40 - 1))).toNat ≤ _
      rw [launchedSlen_toNat, hlong, List.length_append]
      omega
    · rw [hlong]
      exact Nat.min_le_left _ _
  exact decFunction_eq_ok_iff.mpr
    ⟨_, hreach.extendStream (decLaunched_runs State.reset stream p) hfit hdone, hdone, hpix⟩

end Sys2Proof.Machine
end

section
/-! SUPPORT. The operations and the phases of DEC one at a time (40_decoder_ops.md R121 to R132): FLAG and LIT with their byte
there, every phase with its byte there or missing, and the order of the kind bits. -/

namespace Sys2Proof.Machine

/-! ## FLAG and LIT (R123, R125) -/

theorem Dec.exhausted_of_ne {d : Dec} (h : d.iptr ≠ d.slen) : d.exhausted = false :=
  Bool.eq_false_of_not_eq_true fun hx => h (d.exhausted_iff.mp hx)

/-- Settles O9: the branch of FLAG in which its byte is there. -/
theorem flagLoadsKindBits : Obligations.FlagLoadsKindBits := by
  intro kinds s h
  simp only [exec, execFlag, Dec.exhausted_of_ne h, Bool.false_eq_true, if_false]
  rfl

theorem exec_lit_of_ne {s : State} (h : s.dec.iptr ≠ s.dec.slen) (data : Byte) :
    exec (.lit data) s = .next (literal data s) := by
  simp only [exec, execLit, Dec.exhausted_of_ne h, Bool.false_eq_true, if_false]

/-- Settles O10: LIT is one write to `O` and one to the ring. -/
theorem litEmitsItsByte : Obligations.LitEmitsItsByte := by
  intro data s hne hwf
  refine ⟨literal data s, exec_lit_of_ne hne data, rfl, ?_, fun k hk => ?_, fun a => ?_⟩
  · exact Memory.read_write_same _ _ _
  · exact Memory.read_write_other _ _ hk
  · exact Ring.read_write hwf _ _ _

/-! ## The phases that read the stream (R123, R125, R127) -/

/-- A running DEC that is not at the end of its stream has a byte there (R23, R62). -/
theorem DecRuns.byteThere {s : State} {ph : DecPhase} (h : DecRuns s ph) (hne : s.dec.iptr ≠ s.dec.slen) :
    ∃ raw rest, s.inS[s.dec.iptr.toNat]? = some raw ∧ s.streamRest = raw :: rest := by
  obtain ⟨-, -, hr, hs⟩ := h
  obtain ⟨-, -, hle⟩ := Dec.inRange_bounds hr
  exact State.streamRest_of_lt hs (Nat.lt_of_le_of_ne hle (BitVec.toNat_ne.mp hne))

/-- FLAG with its byte missing (R202). -/
theorem DecRuns.flag_missing {s : State} (h : DecRuns s .flag) (he : s.dec.iptr = s.dec.slen) :
    decStep s = .next (raiseFault .dec .unexpectedEnd .atFlag s) := by
  rw [decStep_of_decRuns h]
  simp only [decRunPhase, h.2.1, State.streamRest_of_exhausted he, decode, decodeStream]

/-- LIT with its byte missing (R203). -/
theorem DecRuns.lit_missing {s : State} (h : DecRuns s .lit) (he : s.dec.iptr = s.dec.slen) :
    decStep s = .next (raiseFault .dec .corrupt .atLit s) := by
  rw [decStep_of_decRuns h]
  simp only [decRunPhase, h.2.1, State.streamRest_of_exhausted he, decode, decodeStream]

/-- REFU with its byte missing (R203). -/
theorem DecRuns.refU_missing {s : State} (h : DecRuns s .refU) (he : s.dec.iptr = s.dec.slen) :
    decStep s = .next (raiseFault .dec .corrupt .atRefU s) := by
  rw [decStep_of_decRuns h]
  simp only [decRunPhase, h.2.1, State.streamRest_of_exhausted he]

/-- REFL with its byte missing (R203, R207). -/
theorem DecRuns.refL_missing {s : State} (h : DecRuns s .refL) (he : s.dec.iptr = s.dec.slen) :
    decStep s = .next (raiseFault .dec .corrupt .atRefL s) := by
  rw [decStep_of_decRuns h]
  simp only [decRunPhase, h.2.1, State.streamRest_of_exhausted he]

/-- Settles O16: the byte is missing, or it is there. -/
theorem flagPhaseOfDec : Obligations.FlagPhaseOfDec := by
  intro s hrun
  refine ⟨hrun.flag_missing, fun hne => ?_⟩
  obtain ⟨raw, rest, hraw, hrest⟩ := hrun.byteThere hne
  exact ⟨raw, hraw, hrun.flag hrest⟩

/-- Settles O18: the byte is missing, or it is there. -/
theorem litPhaseOfDec : Obligations.LitPhaseOfDec := by
  intro s hrun
  refine ⟨hrun.lit_missing, fun hne => ?_⟩
  obtain ⟨raw, rest, hraw, hrest⟩ := hrun.byteThere hne
  exact ⟨raw, hraw, hrun.lit hrest⟩

theorem refLength_eq_ofNat (u : Byte) : refLength u = BitVec.ofNat 5 (u.toNat % 16 + 3) := by
  rw [← refLength_toNat, BitVec.ofNat_toNat, BitVec.setWidth_eq]

theorem refPosition_eq_ofNat (u l : Byte) : refPosition u l = BitVec.ofNat 12 (u.toNat / 16 + 16 * l.toNat) := by
  rw [← refPosition_toNat, BitVec.ofNat_toNat, BitVec.setWidth_eq]

/-- Settles O19: in both phases the byte is missing, or it is there. -/
theorem refUnpackPhasesOfDec : Obligations.RefUnpackPhasesOfDec := by
  refine ⟨fun s hrun => ⟨hrun.refU_missing, fun hne => ?_⟩, fun s hrun => ⟨hrun.refL_missing, fun hne => ?_⟩⟩
  · obtain ⟨raw, rest, hraw, hrest⟩ := hrun.byteThere hne
    exact ⟨raw, hraw, (hrun.refU hrest).1⟩
  · obtain ⟨raw, rest, hraw, hrest⟩ := hrun.byteThere hne
    exact ⟨raw, refLength s.dec.u, refPosition s.dec.u (mask raw), hraw, refLength_eq_ofNat _, refPosition_eq_ofNat _ _,
      (hrun.refL hrest).1⟩

/-! ## The phases that need no byte (R121, R122, R124, R128) -/

/-- GUARD (R122). -/
theorem DecRuns.guard {s : State} (h : DecRuns s .guard) : decStep s = .next { s with dec := s.dec.guardStep } := by
  rw [decStep_of_decRuns h]
  simp only [decRunPhase, h.2.1]

/-- BIT (R124). -/
theorem DecRuns.bit {s : State} (h : DecRuns s .bit) : decStep s = .next { s with dec := s.dec.bitStep } := by
  rw [decStep_of_decRuns h]
  simp only [decRunPhase, h.2.1]

/-- The exit of COPY (R128). -/
theorem DecRuns.copyExit {s : State} (h : DecRuns s .copy) (hd : s.dec.copyDone = true) :
    decStep s = .next { s with dec := { s.dec with ph := .guard } } := by
  rw [decStep_of_decRuns h]
  simp only [decRunPhase, h.2.1, copyStep, hd, if_true]

/-- One copied byte, after which the copy goes on (R128). -/
theorem DecRuns.copyOne {s : State} (h : DecRuns s .copy) (hd : s.dec.copyDone = false) :
    decStep s = .next (copyByte s) ∧ DecRuns (copyByte s) .copy := by
  have hstep := decStep_of_decRuns h
  obtain ⟨hst, hp, hr, hs⟩ := h
  refine ⟨?_, hst, hp, copyByte_inRange hp hr hd, hs⟩
  rw [hstep]
  simp only [decRunPhase, hp, copyStep, hd, Bool.false_eq_true, if_false]

/-- Settles O15: the three branches of GUARD. -/
theorem guardPhaseOfDec : Obligations.GuardPhaseOfDec := by
  intro s hrun
  rw [hrun.guard]
  refine ⟨fun ho => ?_, fun ho hf => ?_, fun ho hf => ?_⟩
  · rw [Dec.guardStep, if_pos ho]
  · rw [Dec.guardStep, if_neg ho, if_pos hf]
  · rw [Dec.guardStep, if_neg ho, if_neg hf]

theorem rotl8_eq_rotateLeft (v : Byte) : rotl8 v = v.rotateLeft 1 := rfl

/-- Settles O17: the rotation of the model is the library's. -/
theorem bitPhaseOfDec : Obligations.BitPhaseOfDec := by
  intro s hrun
  rw [hrun.bit, ← rotl8_eq_rotateLeft]
  rfl

/-- Settles O20: the exit of COPY, or one byte. -/
theorem copyPhaseOfDec : Obligations.CopyPhaseOfDec := by
  intro s hrun
  refine ⟨fun hdone => hrun.copyExit (s.dec.copyDone_iff.mpr hdone), fun hci ho => ?_⟩
  have hd : s.dec.copyDone = false := Bool.eq_false_of_not_eq_true fun hd =>
    (s.dec.copyDone_iff.mp hd).elim hci ho
  exact ⟨s.dec.copySource, rfl, (hrun.copyOne hd).1⟩

/-- Settles O23: the INIT step is `Dec.init`, which leaves the pre-seed in the ring. -/
theorem initStepOfDec : Obligations.InitStepOfDec := by
  intro s hst
  refine ⟨{ s with dec := s.dec.init }, ?_, Ring.read_seeded, rfl⟩
  simp only [decStep, hst]

/-! ## The order of the kind bits (R131) -/

/-- One rotation moves every bit up by one, bit 7 to bit 0. -/
theorem rotl8_getLsbD (v : Byte) {i : Nat} (hi : i < 8) : (rotl8 v).getLsbD i = v.getLsbD ((i + 7) % 8) := by
  rw [rotl8_eq_rotateLeft, BitVec.getLsbD_rotateLeft]
  by_cases h0 : i = 0
  · subst h0
    rfl
  · rw [decide_eq_false (by omega), decide_eq_true hi, cond_false, Bool.true_and, show (i + 7) % 8 = i - 1 % 8 by omega]

theorem iterate_rotl8_getLsbD (v : Byte) (j : Nat) {i : Nat} (hi : i < 8) :
    (rotl8^[j] v).getLsbD i = v.getLsbD ((i + 7 * j) % 8) := by
  induction j generalizing v with
  | zero => rw [Nat.mul_zero, Nat.add_zero, Nat.mod_eq_of_lt hi]; rfl
  | succ j ih =>
    rw [Function.iterate_succ_apply, ih, rotl8_getLsbD v (Nat.mod_lt _ (by decide))]
    congr 1
    omega

/-- Settles O21: after `j` rotations bit `i` is bit `i + 7 * j` modulo 8 of the byte loaded. -/
theorem kindBitsInOrder : Obligations.KindBitsInOrder := by
  refine ⟨fun f j => ?_, fun f => BitVec.eq_of_getLsbD_eq fun i hi => ?_⟩
  · rw [iterate_rotl8_getLsbD f j (by decide), show (7 + 7 * j.val) % 8 = 7 - j.val by omega]
  · rw [iterate_rotl8_getLsbD f 8 hi, show (i + 7 * 8) % 8 = i by omega]

end Sys2Proof.Machine
end

section
/-! SUPPORT. The copy of a REF in closed form (R126, R133 to R137): which bytes it emits, and what it leaves in `O` and in the
ring. -/

namespace Sys2Proof.Machine

/-! ## The bytes of a copy, one after another -/

theorem copyBytes_succ (k : Nat) (s : State) : copyBytes (k + 1) s = copyByte (copyBytes k s) := by
  induction k generalizing s with
  | zero => rfl
  | succ k ih => exact ih (copyByte s)

/-- The `i`-th byte that a copy emits: what it reads after `i` bytes (R128). -/
def State.copiedByte (s : State) (i : Nat) : Byte := (copyBytes i s).dec.copySource

@[simp] theorem copyBytes_ocnt (k : Nat) (s : State) : (copyBytes k s).dec.ocnt = s.dec.ocnt + BitVec.ofNat 32 k := by
  rw [copyBytes_frame]

@[simp] theorem copyBytes_rcur (k : Nat) (s : State) : (copyBytes k s).dec.rcur = s.dec.rcur + BitVec.ofNat 12 k := by
  rw [copyBytes_frame]

/-- `O` after `k` copied bytes that all have an index (R63, R129). -/
theorem read_copyBytes_outO {s : State} {k : Nat} (hk : s.dec.ocnt.toNat + k < 2 ^ 32) (j : Nat) :
    (copyBytes k s).outO.read j =
      if s.dec.ocnt.toNat ≤ j ∧ j < s.dec.ocnt.toNat + k then some (s.copiedByte (j - s.dec.ocnt.toNat))
      else s.outO.read j := by
  induction k with
  | zero => rw [if_neg (by omega)]; rfl
  | succ k ih =>
    have hcount : (copyBytes k s).dec.ocnt.toNat = s.dec.ocnt.toNat + k := by
      rw [copyBytes_ocnt, BitVec.toNat_add, BitVec.toNat_ofNat]
      omega
    rw [copyBytes_succ, copyByte_outO, Memory.read_write, ih (by omega), hcount]
    by_cases hj : j = s.dec.ocnt.toNat + k
    · rw [if_pos hj, if_pos (by omega), hj, Nat.add_sub_cancel_left]
      rfl
    · rw [if_neg hj]
      exact ite_congr (propext (by omega)) (fun _ => rfl) fun _ => rfl

/-- The ring after `k` copied bytes that do not lap it (R61, R129). -/
theorem read_copyBytes_ring {s : State} {k : Nat} (hwf : s.dec.ring.wf) (hk : k ≤ 4096) (a : RingAddr) :
    (copyBytes k s).dec.ring.read a =
      if (a - s.dec.rcur).toNat < k then s.copiedByte (a - s.dec.rcur).toNat else s.dec.ring.read a := by
  induction k with
  | zero => rw [if_neg (Nat.not_lt_zero _)]; rfl
  | succ k ih =>
    have hcell : a = s.dec.rcur + BitVec.ofNat 12 k ↔ (a - s.dec.rcur).toNat = k := by bv_omega
    have hwrite : (copyBytes (k + 1) s).dec.ring =
        (copyBytes k s).dec.ring.write (s.dec.rcur + BitVec.ofNat 12 k) (s.copiedByte k) := by
      rw [copyBytes_succ, ← copyBytes_rcur]
      rfl
    rw [hwrite, Ring.read_write (copyBytes_ring_wf k hwf), ih (by omega)]
    by_cases ha : (a - s.dec.rcur).toNat = k
    · rw [if_pos (hcell.mpr ha), if_pos (by omega), ha]
    · rw [if_neg (mt hcell.mp ha)]
      exact ite_congr (propext (by omega)) (fun _ => rfl) fun _ => rfl

/-- A copy that starts at `CI = 0` reads its `i`-th byte `i` cells after its position (R128, R135). -/
theorem copiedByte_eq_read {s : State} {i : Nat} (hci : s.dec.ci = 0) (hi : i < 32) :
    s.copiedByte i = (copyBytes i s).dec.ring.read (s.dec.pos + BitVec.ofNat 12 i) := by
  have hci' : (BitVec.ofNat 5 i).setWidth 12 = BitVec.ofNat 12 i := by bv_omega
  rw [State.copiedByte, Dec.copySource, copyBytes_frame]
  simp only [hci, BitVec.ofNat_eq_ofNat, BitVec.zero_add, hci']

/-- Up to the distance, and at distance 0, a copy emits the ring as it was (R133). -/
theorem copiedByte_of_lt {s : State} {i : Nat} (hwf : s.dec.ring.wf) (hci : s.dec.ci = 0) (hi : i < 32)
    (hd : (s.dec.rcur - s.dec.pos).toNat = 0 ∨ i < (s.dec.rcur - s.dec.pos).toNat) :
    s.copiedByte i = s.dec.ring.read (s.dec.pos + BitVec.ofNat 12 i) := by
  have hfar : i ≤ (s.dec.pos + BitVec.ofNat 12 i - s.dec.rcur).toNat := by bv_omega
  rw [copiedByte_eq_read hci hi, read_copyBytes_ring hwf (by omega), if_neg (Nat.not_lt.mpr hfar)]

/-- From the distance on, a copy emits its own bytes again (R133, R136). -/
theorem copiedByte_of_ge {s : State} {i : Nat} (hwf : s.dec.ring.wf) (hci : s.dec.ci = 0) (hi : i < 32)
    (hd : (s.dec.rcur - s.dec.pos).toNat ≠ 0) (hle : (s.dec.rcur - s.dec.pos).toNat ≤ i) :
    s.copiedByte i = s.copiedByte (i - (s.dec.rcur - s.dec.pos).toNat) := by
  have hback : (s.dec.pos + BitVec.ofNat 12 i - s.dec.rcur).toNat = i - (s.dec.rcur - s.dec.pos).toNat := by bv_omega
  rw [copiedByte_eq_read hci hi, read_copyBytes_ring hwf (by omega), hback, if_pos (by omega)]

/-! ## The whole copy (R126, R137) -/

theorem Dec.copyCount_lt (d : Dec) : d.copyCount < 32 := (Nat.min_le_left _ _).trans_lt d.len.isLt

/-- The clip of R137 keeps every copied byte below `P`. -/
theorem Dec.ocnt_add_copyCount_le {d : Dec} (h : d.ocnt.toNat ≤ d.p.toNat) : d.ocnt.toNat + d.copyCount ≤ d.p.toNat := by
  unfold Dec.copyCount
  omega

/-- The whole copy from `CI = 0` on, in every field; `O` and the ring are said apart. -/
theorem copyAll_frame {s : State} (hci : s.dec.ci = 0) :
    copyAll s =
      { s with outO := (copyAll s).outO
               dec := { s.dec with ring := (copyAll s).dec.ring, ocnt := s.dec.ocnt + BitVec.ofNat 32 s.dec.copyCount
                                   rcur := s.dec.rcur + BitVec.ofNat 12 s.dec.copyCount
                                   ci := BitVec.ofNat 5 s.dec.copyCount, ph := .guard } } := by
  unfold copyAll
  conv_lhs => rw [copyBytes_frame, hci, BitVec.ofNat_eq_ofNat, BitVec.zero_add]

theorem read_copyAll_outO_inside {s : State} {i : Nat} (h : s.dec.ocnt.toNat ≤ s.dec.p.toNat) (hi : i < s.dec.copyCount) :
    (copyAll s).outO.read (s.dec.ocnt.toNat + i) = some (s.copiedByte i) := by
  have hidx := (Dec.ocnt_add_copyCount_le h).trans_lt s.dec.p.isLt
  refine (read_copyBytes_outO hidx _).trans ?_
  rw [if_pos (by omega), Nat.add_sub_cancel_left]

theorem read_copyAll_outO_outside {s : State} {k : Nat} (h : s.dec.ocnt.toNat ≤ s.dec.p.toNat)
    (hk : k < s.dec.ocnt.toNat ∨ s.dec.ocnt.toNat + s.dec.copyCount ≤ k) : (copyAll s).outO.read k = s.outO.read k := by
  have hidx := (Dec.ocnt_add_copyCount_le h).trans_lt s.dec.p.isLt
  exact (read_copyBytes_outO hidx _).trans (if_neg (by omega))

theorem read_copyAll_ring_inside {s : State} {i : Nat} (hwf : s.dec.ring.wf) (hi : i < s.dec.copyCount) :
    (copyAll s).dec.ring.read (s.dec.rcur + BitVec.ofNat 12 i) = s.copiedByte i := by
  have hlt := s.dec.copyCount_lt
  have hback : (s.dec.rcur + BitVec.ofNat 12 i - s.dec.rcur).toNat = i := by bv_omega
  refine (read_copyBytes_ring hwf (by omega) _).trans ?_
  rw [hback, if_pos hi]

theorem read_copyAll_ring_outside {s : State} {a : RingAddr} (hwf : s.dec.ring.wf)
    (ha : s.dec.copyCount ≤ (a - s.dec.rcur).toNat) : (copyAll s).dec.ring.read a = s.dec.ring.read a := by
  have hlt := s.dec.copyCount_lt
  exact (read_copyBytes_ring hwf (by omega) _).trans (if_neg (Nat.not_lt.mpr ha))

/-! ## REF with both bytes there (R126) -/

/-- The block where the copy of a REF starts: both bytes consumed and unpacked (R127). -/
def State.refLatched (position : RingAddr) (length : BitVec 5) (s : State) : State :=
  { s with dec := { s.dec with iptr := s.dec.iptr + 2, u := refU position length, l := refL position, pos := position
                               len := length, ci := 0, ph := .copy } }

theorem State.latchL_latchU {position : RingAddr} {length : BitVec 5} (hwf : (Instr.ref position length).wellFormed = true)
    (s : State) :
    { s with dec := (s.dec.latchU (refU position length)).latchL (refL position) } = s.refLatched position length := by
  obtain ⟨h3, h18⟩ := (Instr.wellFormed_ref position length).mp hwf
  have hiptr : s.dec.iptr + 1 + 1 = s.dec.iptr + 2 := BitVec.add_assoc _ _ _
  simp only [Dec.latchL, Dec.latchU, Dec.advance, refLength_refU position h3 h18, refPosition_refU_refL position h3 h18, hiptr,
    State.refLatched]

theorem exec_ref_of_ne {position : RingAddr} {length : BitVec 5} {s : State}
    (hwf : (Instr.ref position length).wellFormed = true) (hu : s.dec.iptr ≠ s.dec.slen) (hl : s.dec.iptr + 1 ≠ s.dec.slen) :
    exec (.ref position length) s = .next (copyAll (s.refLatched position length)) := by
  have hl' : (s.dec.latchU (refU position length)).iptr ≠ (s.dec.latchU (refU position length)).slen := hl
  rw [← State.latchL_latchU hwf]
  simp only [exec, execRef, Dec.exhausted_of_ne hu, Dec.exhausted_of_ne hl', Bool.false_eq_true, if_false]

/-- Settles O11: `e` is what the copy emits byte by byte, read back from `O` and from the ring. -/
theorem refCopiesBytes : Obligations.RefCopiesBytes := by
  intro position length s hlen hu hl hroom hwf
  have hcount := (s.refLatched position length).dec.copyCount_lt
  refine ⟨copyAll (s.refLatched position length), (s.refLatched position length).copiedByte,
    (s.refLatched position length).dec.copyCount, (s.dec.rcur - position).toNat, exec_ref_of_ne hlen hu hl, rfl, rfl, ?_,
    fun i hi hd => ?_, fun i hi hd hle => ?_, fun i => ?_, fun k => ?_, fun i => ?_, fun a => ?_⟩
  · exact copyAll_frame (s := s.refLatched position length) rfl
  · exact copiedByte_of_lt (s := s.refLatched position length) hwf rfl (hi.trans hcount) hd
  · exact copiedByte_of_ge (s := s.refLatched position length) hwf rfl (hi.trans hcount) hd hle
  · exact read_copyAll_outO_inside (s := s.refLatched position length) hroom
  · exact read_copyAll_outO_outside (s := s.refLatched position length) hroom
  · exact read_copyAll_ring_inside (s := s.refLatched position length) hwf
  · exact read_copyAll_ring_outside (s := s.refLatched position length) hwf

/-- Settles O13: at distance 0 every byte is written where it was read, and at distance 1 every byte is the one before it. -/
theorem refAtDistanceZeroAndOne : Obligations.RefAtDistanceZeroAndOne := by
  refine ⟨fun length s hlen hu hl hroom hwf => ?_, fun length s hlen hu hl hroom hwf => ?_⟩
  · obtain ⟨t, e, n, d, hexec, rfl, hd, hframe, hold, -, -, -, hring, hring'⟩ :=
      refCopiesBytes s.dec.rcur length s hlen hu hl hroom hwf
    have hd0 : d = 0 := by rw [hd, BitVec.sub_self]; rfl
    refine ⟨t, hexec, fun a => ?_, by rw [hframe]⟩
    rcases Nat.lt_or_ge (a - s.dec.rcur).toNat (min length.toNat (s.dec.p.toNat - s.dec.ocnt.toNat)) with ha | ha
    · have hcell : s.dec.rcur + BitVec.ofNat 12 (a - s.dec.rcur).toNat = a := by bv_omega
      have hcopied := (hring _ ha).trans (hold _ ha (.inl hd0))
      rwa [hcell] at hcopied
    · exact hring' a ha
  · obtain ⟨t, e, n, d, hexec, hn, hd, -, hold, hback, hout, -, -, -⟩ :=
      refCopiesBytes (s.dec.rcur - 1) length s hlen hu hl (by omega) hwf
    have hd1 : d = 1 := by rw [hd]; bv_omega
    have hn' : n = length.toNat := by omega
    subst hd1 hn'
    have hsame : ∀ i, i < length.toNat → e i = s.dec.ring.read (s.dec.rcur - 1) := by
      intro i hi
      induction i with
      | zero => rw [hold 0 hi (.inr Nat.one_pos), BitVec.ofNat_eq_ofNat, BitVec.add_zero]
      | succ i ih => rw [hback (i + 1) hi Nat.one_ne_zero (Nat.le_add_left 1 i)]; exact ih (by omega)
    exact ⟨t, hexec, fun i hi => by rw [hout i hi, hsame i hi]⟩

end Sys2Proof.Machine
end

section
/-! SUPPORT. Phase steps of DEC, counted (R126 to R128): how many a REF takes, and a run of the block in which they are the next
steps (log entry 2). -/

namespace Sys2Proof.Machine

/-! ## Counted phase steps -/

/-- `k` phase steps of DEC lead from `s` to `t`. -/
def DecTakes : Nat → State → State → Prop
  | 0, s, t => s = t
  | k + 1, s, t => ∃ u, decStep s = .next u ∧ DecTakes k u t

/-- With no event due and ENC stopped, the steps of the block are those of DEC (log entry 2). -/
theorem DecTakes.run_alone {k : Nat} {s t : State} (h : DecTakes k s t) (ha : s.agenda = [])
    (he : s.enc.st.stopped = true) : Host.Core.run Sys2Proof.core k s = .next t := by
  induction k generalizing s with
  | zero => exact congrArg _ h
  | succ k ih =>
    obtain ⟨u, hstep, hrest⟩ := h
    obtain ⟨hframe, -, -⟩ := decStep_frame hstep
    rw [run_succ_of_step ((step_eq_decStep ha he).trans hstep)]
    exact ih hrest (by rw [hframe]; exact ha) (by rw [hframe]; exact he)

/-- A step of DEC neither reads nor changes the agenda. -/
theorem decStep_withAgenda {s t : State} (h : decStep s = .next t) (agenda : List Event) :
    decStep { s with agenda := agenda } = .next { t with agenda := agenda } := by
  obtain ⟨hframe, -, -⟩ := decStep_frame h
  have hside := decStep_withDecSide { s with agenda := agenda } s
  rw [h] at hside
  refine hside.trans (congrArg Host.Outcome.next ?_)
  rw [hframe]
  rfl

/-- Where the next `k` events are phase steps of DEC, the next `k` steps of the block are these, the events taken off. -/
theorem DecTakes.run_events {k : Nat} {s t : State} {rest : List Event} (h : DecTakes k { s with agenda := rest } t)
    (ha : s.agenda = List.replicate k (.phase .dec) ++ rest) : Host.Core.run Sys2Proof.core k s = .next t := by
  induction k generalizing s with
  | zero =>
    have hs : { s with agenda := rest } = s := by rw [show rest = s.agenda from ha.symm]
    exact congrArg _ (hs.symm.trans h)
  | succ k ih =>
    obtain ⟨u, hstep, hrest⟩ := h
    obtain ⟨hframe, -, -⟩ := decStep_frame hstep
    have hnext : step s = .next { u with agenda := List.replicate k (.phase .dec) ++ rest } :=
      (step_of_event ha).trans (decStep_withAgenda hstep _)
    have hu : { u with agenda := rest } = u := by rw [hframe]
    rw [run_succ_of_step hnext]
    refine ih ?_ rfl
    show DecTakes k { u with agenda := rest } t
    rw [hu]
    exact hrest

/-! ## How many phase steps a REF takes -/

/-- How many bytes a copy still has to emit (R128, R137). -/
def Dec.copyLeft (d : Dec) : Nat := min (d.len.toNat - d.ci.toNat) (d.p.toNat - d.ocnt.toNat)

theorem DecRuns.copyDone_of_copyLeft {s : State} (h : DecRuns s .copy) (hk : s.dec.copyLeft = 0) :
    s.dec.copyDone = true := by
  by_contra hd
  obtain ⟨hci, ho⟩ := Dec.copyDone_false h.2.1 h.2.2.1 (Bool.eq_false_of_not_eq_true hd)
  unfold Dec.copyLeft at hk
  omega

theorem Dec.copyDone_of_copyLeft_pos {d : Dec} {k : Nat} (hk : d.copyLeft = k + 1) : d.copyDone = false := by
  unfold Dec.copyLeft at hk
  refine Bool.eq_false_of_not_eq_true fun hd => ?_
  rcases d.copyDone_iff.mp hd with heq | heq <;> rw [heq] at hk <;> omega

theorem DecRuns.copyLeft_copyByte {s : State} (h : DecRuns s .copy) {k : Nat} (hk : s.dec.copyLeft = k + 1) :
    (copyByte s).dec.copyLeft = k := by
  obtain ⟨hci, ho⟩ := Dec.copyDone_false h.2.1 h.2.2.1 (Dec.copyDone_of_copyLeft_pos hk)
  have hci' : (copyByte s).dec.ci.toNat = s.dec.ci.toNat + 1 := toNat_succ_of_lt hci
  have ho' : (copyByte s).dec.ocnt.toNat = s.dec.ocnt.toNat + 1 := toNat_succ_of_lt ho
  unfold Dec.copyLeft at hk ⊢
  rw [hci', ho']
  show min (s.dec.len.toNat - _) (s.dec.p.toNat - _) = k
  omega

/-- A COPY step for each byte left and one for the exit (R128). -/
theorem DecTakes.copy {s : State} {k : Nat} (hrun : DecRuns s .copy) (hk : s.dec.copyLeft = k) :
    DecTakes (k + 1) s { copyBytes k s with dec := { (copyBytes k s).dec with ph := .guard } } := by
  induction k generalizing s with
  | zero => exact ⟨_, hrun.copyExit (hrun.copyDone_of_copyLeft hk), rfl⟩
  | succ k ih =>
    obtain ⟨hstep, hrun'⟩ := hrun.copyOne (Dec.copyDone_of_copyLeft_pos hk)
    exact ⟨_, hstep, ih hrun' (hrun.copyLeft_copyByte hk)⟩

/-- REFU, REFL, a COPY step for each byte copied and the exit, taken together, are `exec` of the REF (R126 against R127, R128). -/
theorem DecTakes.ref {s : State} {position : RingAddr} {length : BitVec 5} (hrun : DecRuns s .refU)
    (hi : decode (.stream .ref s.streamRest) = .ok (.ref position length)) :
    ∃ t, DecTakes (min length.toNat (s.dec.p.toNat - s.dec.ocnt.toNat) + 3) s t ∧
      exec (.ref position length) s = .next t := by
  obtain ⟨u, l, tail, hrest, heq⟩ := decode_ref_ok hi
  obtain ⟨rfl, rfl⟩ := Instr.ref.inj heq
  obtain ⟨hstep₁, hrun₁, hrest₁⟩ := hrun.refU hrest
  obtain ⟨hstep₂, hrun₂⟩ := hrun₁.refL hrest₁
  have hleft : ((s.dec.latchU (mask u)).latchL (mask l)).copyLeft =
      min (refLength (mask u)).toNat (s.dec.p.toNat - s.dec.ocnt.toNat) := rfl
  refine ⟨_, ?_, execRef_of_streamRest hrun hrest⟩
  rw [← hleft]
  exact ⟨_, hstep₁, _, hstep₂, .copy hrun₂ rfl⟩

/-- Settles O14: the phase steps of the REF, counted, in either block. -/
theorem refPhasesTakenTogether : Obligations.RefPhasesTakenTogether := by
  intro s rest position length hrun hi
  refine ⟨fun ha => ?_, fun ha he => ?_⟩
  · obtain ⟨t, htakes, hexec⟩ := DecTakes.ref (s := { s with agenda := rest }) hrun hi
    exact (htakes.run_events ha).trans hexec.symm
  · obtain ⟨t, htakes, hexec⟩ := DecTakes.ref hrun hi
    exact (htakes.run_alone ha he).trans hexec.symm

end Sys2Proof.Machine
end

section
/-! SUPPORT. The result of a run of DEC depends on the stream and `P` alone (R121, R146): two blocks that are alike in DEC, in `S`
and in what this run has emitted stay so, whatever else they hold. -/

namespace Sys2Proof.Machine

/-! ## Blocks that are alike to DEC -/

/-- The same DEC on the same stream, with the same bytes emitted so far. -/
structure DecAlike (s s' : State) : Prop where
  dec : s'.dec = s.dec
  stream : s'.inS = s.inS
  output : ∀ k, k < s.dec.ocnt.toNat → s'.outO.read k = s.outO.read k

theorem DecAlike.streamRest {s s' : State} (h : DecAlike s s') : s'.streamRest = s.streamRest := by
  unfold State.streamRest
  rw [h.dec, h.stream]

theorem DecAlike.decRuns {s s' : State} {ph : DecPhase} (h : DecAlike s s') (hrun : DecRuns s ph) : DecRuns s' ph := by
  unfold DecRuns
  rw [h.dec, h.stream]
  exact hrun

/-- Both make the same change to DEC and emit nothing. -/
theorem DecAlike.move {s s' : State} (h : DecAlike s s') {f : Dec → Dec} (ho : (f s.dec).ocnt = s.dec.ocnt) :
    DecAlike { s with dec := f s.dec } { s' with dec := f s'.dec } := by
  refine ⟨congrArg f h.dec, h.stream, fun k hk => h.output k ?_⟩
  rw [← ho]
  exact hk

/-- Both emit the same byte (R129). -/
theorem DecAlike.emit {s s' t t' : State} {v : Byte} (h : DecAlike s s') (hdec : t'.dec = t.dec) (hS : t.inS = s.inS)
    (hS' : t'.inS = s'.inS) (ho : t.dec.ocnt = s.dec.ocnt + 1) (hO : t.outO = s.outO.write s.dec.ocnt.toNat v)
    (hO' : t'.outO = s'.outO.write s.dec.ocnt.toNat v) : DecAlike t t' := by
  refine ⟨hdec, by rw [hS, hS', h.stream], fun k hk => ?_⟩
  have hle : k ≤ s.dec.ocnt.toNat := by rw [ho] at hk; bv_omega
  rw [hO, hO', Memory.read_write, Memory.read_write]
  exact ite_congr rfl (fun _ => rfl) fun hne => h.output k (Nat.lt_of_le_of_ne hle hne)

theorem DecAlike.literal {s s' : State} (h : DecAlike s s') (v : Byte) : DecAlike (literal v s) (Machine.literal v s') := by
  refine h.emit (v := v) ?_ rfl rfl rfl rfl ?_
  · rw [literal_dec, literal_dec, h.dec]
  · rw [literal_outO, h.dec]

theorem DecAlike.copyByte {s s' : State} (h : DecAlike s s') : DecAlike (copyByte s) (Machine.copyByte s') := by
  refine h.emit (v := s.dec.copySource) ?_ rfl rfl rfl rfl ?_
  · rw [copyByte_dec, copyByte_dec, h.dec]
  · rw [copyByte_outO, h.dec]

/-- Both raise the same fault (R205). -/
theorem DecAlike.raiseFault {s s' : State} (h : DecAlike s s') (cause : Cause) (phase : FaultPhase) :
    DecAlike (raiseFault .dec cause phase s) (Machine.raiseFault .dec cause phase s') :=
  h.move (f := fun d => { d with err := cause, errph := phase, st := .fault }) rfl

@[simp] theorem Dec.guardStep_ocnt (d : Dec) : d.guardStep.ocnt = d.ocnt := by
  rcases d.guardStep_cases with ⟨-, heq⟩ | ⟨-, -, heq⟩ | ⟨-, -, heq⟩ <;> rw [heq]

/-- A phase of a running DEC keeps the blocks alike. -/
theorem DecAlike.phase {s s' : State} (h : DecAlike s s') (hrun : DecRuns s s.dec.ph) :
    ∃ t t', decStep s = .next t ∧ decStep s' = .next t' ∧ DecAlike t t' := by
  have hrun' := h.decRuns hrun
  generalize hp : s.dec.ph = ph at hrun hrun'
  cases ph with
  | guard => exact ⟨_, _, hrun.guard, hrun'.guard, h.move s.dec.guardStep_ocnt⟩
  | bit => exact ⟨_, _, hrun.bit, hrun'.bit, h.move rfl⟩
  | copy =>
    cases hd : s.dec.copyDone with
    | true =>
      exact ⟨_, _, hrun.copyExit hd, hrun'.copyExit (by rw [h.dec, hd]), h.move (f := fun d => { d with ph := .guard }) rfl⟩
    | false => exact ⟨_, _, (hrun.copyOne hd).1, (hrun'.copyOne (by rw [h.dec, hd])).1, h.copyByte⟩
  | flag =>
    by_cases he : s.dec.iptr = s.dec.slen
    · exact ⟨_, _, hrun.flag_missing he, hrun'.flag_missing (by rw [h.dec, he]), h.raiseFault _ _⟩
    · obtain ⟨raw, rest, -, hrest⟩ := hrun.byteThere he
      exact ⟨_, _, hrun.flag hrest, hrun'.flag (h.streamRest.trans hrest), h.move rfl⟩
  | lit =>
    by_cases he : s.dec.iptr = s.dec.slen
    · exact ⟨_, _, hrun.lit_missing he, hrun'.lit_missing (by rw [h.dec, he]), h.raiseFault _ _⟩
    · obtain ⟨raw, rest, -, hrest⟩ := hrun.byteThere he
      exact ⟨_, _, hrun.lit hrest, hrun'.lit (h.streamRest.trans hrest), h.literal _⟩
  | refU =>
    by_cases he : s.dec.iptr = s.dec.slen
    · exact ⟨_, _, hrun.refU_missing he, hrun'.refU_missing (by rw [h.dec, he]), h.raiseFault _ _⟩
    · obtain ⟨raw, rest, -, hrest⟩ := hrun.byteThere he
      exact ⟨_, _, (hrun.refU hrest).1, (hrun'.refU (h.streamRest.trans hrest)).1, h.move rfl⟩
  | refL =>
    by_cases he : s.dec.iptr = s.dec.slen
    · exact ⟨_, _, hrun.refL_missing he, hrun'.refL_missing (by rw [h.dec, he]), h.raiseFault _ _⟩
    · obtain ⟨raw, rest, -, hrest⟩ := hrun.byteThere he
      exact ⟨_, _, (hrun.refL hrest).1, (hrun'.refL (h.streamRest.trans hrest)).1, h.move rfl⟩

/-! ## Along a run -/

/-- DEC runs by its rules, or it has stopped, in DONE with every byte emitted (R122, R208). -/
def DecRunsOrEnded (s : State) : Prop :=
  DecRuns s s.dec.ph ∨ (s.dec.st.stopped = true ∧ (s.dec.st = .done → s.dec.ocnt = s.dec.p))

theorem DecRunsOrEnded.of_decStep {s t : State} (hrun : DecRuns s s.dec.ph) (h : decStep s = .next t) :
    DecRunsOrEnded t := by
  obtain ⟨hst, hdone, -⟩ := whatEndsRunOfDec s t hrun.1 h
  rcases hst with hgo | hend | hfault
  · exact .inl (decRuns_of_decStep hrun h hgo)
  · obtain ⟨hp, ho⟩ := hdone hend
    have ht := Host.Outcome.next.inj (h.symm.trans (DecRuns.guard (hp ▸ hrun)))
    refine .inr ⟨by rw [hend]; rfl, fun _ => ?_⟩
    rw [ht]
    exact s.dec.guardStep_ocnt.trans (ho.trans s.dec.guardStep_p.symm)
  · exact .inr ⟨by rw [hfault]; rfl, fun hend => by rw [hfault] at hend; cases hend⟩

/-- Blocks that are alike when DEC is started are alike wherever its run has led. -/
theorem DecAlike.reaches {s s' t : State} (h : DecAlike s s') (hrun : DecRuns s s.dec.ph) (ht : DecReaches s t) :
    DecRunsOrEnded t ∧ ∃ t', DecReaches s' t' ∧ DecAlike t t' := by
  refine ht.induct (fun t => DecRunsOrEnded t ∧ ∃ t', DecReaches s' t' ∧ DecAlike t t') ⟨.inl hrun, s', .refl, h⟩ ?_
  rintro a b ⟨hruns | hended, a', hreach, halike⟩ hab
  · obtain ⟨t, b', hstep, hstep', hnext⟩ := halike.phase hruns
    cases Host.Outcome.next.inj (hab.symm.trans hstep)
    exact ⟨.of_decStep hruns hab, b', hreach.tail hstep', hnext⟩
  · rw [(DecReaches.single hab).eq_of_stopped hended.1]
    exact ⟨.inr hended, a', hreach, halike⟩

/-! ## What the host takes -/

theorem pixelsUpTo_succ (o : Memory) (k : Nat) :
    pixelsUpTo o (k + 1) = (do let vs ← pixelsUpTo o k; let v ← o.read k; pure (vs ++ [v])) := by
  simp [pixelsUpTo, List.range_succ, Option.bind_assoc]

theorem pixelsUpTo_congr {o o' : Memory} {k : Nat} (h : ∀ j, j < k → o'.read j = o.read j) :
    pixelsUpTo o' k = pixelsUpTo o k := by
  induction k with
  | zero => rfl
  | succ k ih => rw [pixelsUpTo_succ, pixelsUpTo_succ, ih fun j hj => h j (Nat.lt_succ_of_lt hj), h k (Nat.lt_succ_self k)]

theorem DecAlike.decOutcome_eq {s s' : State} (h : DecAlike s s') (hend : s.dec.st = .done → s.dec.ocnt = s.dec.p) :
    decOutcome s' = decOutcome s := by
  unfold decOutcome
  rw [h.dec]
  cases hst : s.dec.st with
  | done => exact congrArg (Option.map DecResult.ok) (pixelsUpTo_congr (hend hst ▸ h.output))
  | fault => rfl
  | idle => rfl
  | init => rfl
  | run => rfl

/-- START and INIT make every block alike to DEC (R121). -/
theorem decLaunched_alike (s s' : State) (stream : List Byte) (p : BitVec 32) :
    DecAlike (decLaunched s stream p) (decLaunched s' stream p) :=
  ⟨rfl, rfl, fun k hk => absurd hk (Nat.not_lt_zero k)⟩

/-- Settles O56: the launched block is alike to the one launched from reset, and each stops in one state only. -/
theorem decResultDependsOnStreamAndCount : Obligations.DecResultDependsOnStreamAndCount := by
  intro s stream p hst he
  obtain ⟨u, hu⟩ := stateAfter_decLaunch_stops (s := State.reset) rfl rfl stream p
  obtain ⟨v, hv⟩ := stateAfter_decLaunch_stops hst he stream p
  obtain ⟨hreachU, hstopU⟩ := stateAfter_decSteps rfl rfl hu
  obtain ⟨hreachV, hstopV⟩ := stateAfter_decSteps hst he hv
  obtain ⟨hended, v', hreachV', halike⟩ :=
    (decLaunched_alike State.reset s stream p).reaches (decLaunched_runs _ stream p) hreachU
  have hsame : v = v' := hreachV.unique hreachV' hstopV (by rw [halike.dec]; exact hstopU)
  have hend : u.dec.st = .done → u.dec.ocnt = u.dec.p := by
    rcases hended with hrun | ⟨-, hdone⟩
    · rw [hrun.1] at hstopU
      cases hstopU
    · exact hdone
  rw [decFunction, hu, hv, Option.bind_some, Option.bind_some, hsame]
  exact halike.decOutcome_eq hend

end Sys2Proof.Machine
end

section
/-! SUPPORT. The search of ENC (R155 to R166): the replay, the match length and the score in closed form, and the phases GUARD,
SEARCH and SELECT that use them. -/

namespace Sys2Proof.Machine

/-! ## Replay, match length and score -/

/-- Settles O32: below the distance `i mod d` is `i`, and `i` and `i - d` have the same remainder. -/
theorem replayFollowsRecursion : Obligations.ReplayFollowsRecursion := by
  intro r c d i _ _
  refine ⟨fun hi => ?_, fun hi => ?_⟩ <;> unfold replayByte
  · rw [Nat.mod_eq_of_lt hi]
  · rw [Nat.mod_eq_sub_mod hi]

/-- Replay and input agree on the whole match, from any index on. -/
theorem matchFrom_agrees (r : Ring) (c : RingAddr) (d : Nat) (xs : List Byte) (k lim : Nat) {i : Nat}
    (hi : i < matchFrom r c d xs k lim) : xs[i]? = some (replayByte r c d (k + i)) := by
  induction lim generalizing xs k i with
  | zero => cases xs <;> exact absurd hi (Nat.not_lt_zero i)
  | succ lim ih =>
    cases xs with
    | nil => exact absurd hi (Nat.not_lt_zero i)
    | cons x xs =>
      simp only [matchFrom] at hi
      split at hi
      · rename_i heq
        cases i with
        | zero => rw [Nat.add_zero, heq]; rfl
        | succ i =>
          rw [List.getElem?_cons_succ, ih xs (k + 1) (Nat.lt_of_succ_lt_succ hi), Nat.add_right_comm, Nat.add_assoc]
      · exact absurd hi (Nat.not_lt_zero i)

/-- No agreement is longer than the match, from any index on. -/
theorem le_matchFrom (r : Ring) (c : RingAddr) (d : Nat) (xs : List Byte) (k lim : Nat) {l : Nat} (hl : l ≤ lim)
    (hagree : ∀ i, i < l → xs[i]? = some (replayByte r c d (k + i))) : l ≤ matchFrom r c d xs k lim := by
  induction lim generalizing xs k l with
  | zero => exact hl.trans (Nat.zero_le _)
  | succ lim ih =>
    cases l with
    | zero => exact Nat.zero_le _
    | succ l =>
      cases xs with
      | nil => cases hagree 0 (Nat.succ_pos l)
      | cons x xs =>
        have hx : replayByte r c d k = x := (Option.some.inj (hagree 0 (Nat.succ_pos l))).symm
        simp only [matchFrom, hx, if_true]
        refine Nat.succ_le_succ (ih xs (k + 1) (Nat.le_of_succ_le_succ hl) fun i hi => ?_)
        have htail := hagree (i + 1) (Nat.succ_lt_succ hi)
        rwa [List.getElem?_cons_succ, ← Nat.add_assoc, Nat.add_right_comm] at htail

/-- Below the match length the replay is the input (R156). -/
theorem matchLength_agrees {r : Ring} {c : RingAddr} {d : Nat} {xs : List Byte} {lim i : Nat}
    (hi : i < matchLength r c d xs lim) : xs[i]? = some (replayByte r c d i) := by
  rw [matchFrom_agrees r c d xs 0 lim hi, Nat.zero_add]

/-- Settles O33, by the recursion of the match over the input. -/
theorem matchLengthIsGreatest : Obligations.MatchLengthIsGreatest := by
  intro r c d xs lim _
  refine ⟨matchLength_le r c d xs lim, fun i => matchLength_agrees, fun l hl hagree => ?_⟩
  exact le_matchFrom r c d xs 0 lim hl fun i hi => by rw [Nat.zero_add]; exact hagree i hi

/-- R161: the band of a distance of the format is not clamped. -/
theorem band_val {d : Nat} (h1 : 1 ≤ d) (hd : d ≤ 4095) : (band d).val = Nat.log2 d := by
  have hlog : Nat.log2 d < 12 := (Nat.log2_lt (Nat.ne_of_gt h1)).mpr (by omega)
  exact Nat.min_eq_left (Nat.le_of_lt_succ hlog)

/-- Settles O35: no index is clamped, and `18 * (2^16 - 1)^2` is below `2^37`. -/
theorem scoreIsExact : Obligations.ScoreIsExact := by
  intro e d l h1 hd h3 hl
  refine ⟨e.lengthWeight l, e.distanceWeight d, ?_, ?_, ?_⟩
  · have hmin : min (l - 3) 15 = l - 3 := Nat.min_eq_left (by omega)
    simp only [Enc.lengthWeight, hmin]
    exact (Vector.getElem?_eq_getElem _).symm
  · simp only [Enc.distanceWeight, band_val h1 hd]
    exact (Vector.getElem?_eq_getElem _).symm
  · rw [Enc.score, BitVec.toNat_ofNat, Nat.mod_eq_of_lt]
    calc l * (e.lengthWeight l).toNat * (e.distanceWeight d).toNat
        ≤ 18 * (2 ^ 16 - 1) * (2 ^ 16 - 1) :=
          Nat.mul_le_mul (Nat.mul_le_mul hl (Nat.le_pred_of_lt (BitVec.isLt _))) (Nat.le_pred_of_lt (BitVec.isLt _))
      _ < 2 ^ 37 := by decide

/-! ## GUARD, SEARCH and SELECT -/

/-- ENC is in `RUN` with its registers in range and its slice: a phase step is the rule's. -/
theorem encStep_of_encRuns {s : State} {ph : EncPhase} (h : EncRuns s ph) : encStep s = encRunPhase s :=
  encStep_run h.1 h.2.2.2 h.2.2.1

theorem EncRuns.guard {s : State} (h : EncRuns s .guard) : encStep s = .next { s with enc := s.enc.guardStep } := by
  rw [encStep_of_encRuns h]
  simp only [encRunPhase, h.2.1]

theorem EncRuns.search {s : State} (h : EncRuns s .search) :
    encStep s = .next { s with enc := s.enc.searchStep s.inX } := by
  rw [encStep_of_encRuns h]
  simp only [encRunPhase, h.2.1]

theorem EncRuns.select {s : State} (h : EncRuns s .select) : encStep s = .next { s with enc := s.enc.selectStep } := by
  rw [encStep_of_encRuns h]
  simp only [encRunPhase, h.2.1]

/-- R164: the ratio is below the target. -/
theorem Enc.below_iff (e : Enc) : e.below = true ↔ e.litops.toNat * 65536 < e.tlr.toNat * e.totops.toNat :=
  decide_eq_true_iff

/-- R165: when the lazy rule is evaluated. -/
theorem Enc.lazyApplies_iff (e : Enc) (b : Best) :
    e.lazyApplies b = true ↔
      e.lazy = true ∧ b.valid = true ∧ ¬ e.litops.toNat * 65536 < e.tlr.toNat * e.totops.toNat ∧
      b.len.toNat < min e.maxlen.toNat 18 ∧ e.spos.toNat + 1 < e.n.toNat := by
  rw [Enc.lazyApplies, Enc.maxLenEff]
  simp only [Bool.and_eq_true, Bool.not_eq_true', ← Bool.not_eq_true, Enc.below_iff, decide_eq_true_eq, and_assoc]

/-- R166: the one case in which the ordered rule set ends at a REF. -/
theorem Enc.decision_eq_ref_iff (e : Enc) :
    e.decision = .ref ↔ e.best.valid = true ∧ ¬ e.below = true ∧ ¬ e.defer = true := by
  unfold Enc.decision
  cases e.best.valid <;> cases e.below <;> cases e.defer <;> decide

/-- Settles O36: the decision is REF where no rule before the last matches. -/
theorem selectPhaseOfEnc : Obligations.SelectPhaseOfEnc := by
  intro s h
  refine ⟨s.enc.decision, h.select, ?_⟩
  simp only [Enc.decision_eq_ref_iff, Enc.below_iff, Enc.defer, Bool.and_eq_true, Enc.lazyApplies_iff, decide_eq_true_eq]
  constructor
  · rintro ⟨hv, hb, hd⟩
    exact ⟨hv, hb, fun ⟨hlazy, hlen, hs, hnext, hscore⟩ => hd ⟨⟨⟨hlazy, hv, hb, hlen, hs⟩, hnext⟩, hscore⟩⟩
  · rintro ⟨hv, hb, hd⟩
    exact ⟨hv, hb, fun ⟨⟨⟨hlazy, _, _, hlen, hs⟩, hnext⟩, hscore⟩ => hd ⟨hlazy, hlen, hs, hnext, hscore⟩⟩

/-- A probe that leaves no candidate has changed nothing. -/
theorem Best.eq_of_probe_invalid {b : Best} {d : Nat} {m : MatchEntry} (h : (b.probe d m).valid = false) :
    b.probe d m = b := by
  rcases b.probe_cases d m with ⟨-, -, heq⟩ | ⟨-, heq⟩
  · rw [heq] at h; cases h
  · exact heq

/-- Where there is no candidate the registers are 0 (log entry 12). -/
theorem Best.scan_invalid (m : Nat → MatchEntry) (ds : List Nat) {b : Best}
    (h : (ds.foldl (fun b d => b.probe d (m d)) b).valid = false) : ds.foldl (fun b d => b.probe d (m d)) b = b := by
  induction ds generalizing b with
  | nil => rfl
  | cons d ds ih =>
    have htail : (ds.foldl (fun b d => b.probe d (m d)) (b.probe d (m d))) = b.probe d (m d) := ih h
    have hprobe : (b.probe d (m d)).valid = false := by
      rw [List.foldl_cons, htail] at h
      exact h
    rw [List.foldl_cons, htail, Best.eq_of_probe_invalid hprobe]

theorem Enc.bestCandidate_invalid {e : Enc} {r : Ring} {c : RingAddr} {xs : List Byte} {lim : Nat}
    (h : (e.bestCandidate r c xs lim).valid = false) : e.bestCandidate r c xs lim = Best.none :=
  Best.scan_invalid _ _ h

/-- R165: the candidate at `s + 1`, where there is an `X[s]`. -/
theorem Enc.bestNext_of_lt (e : Enc) {x : List Byte} (h : e.spos.toNat < x.length) :
    e.bestNext x =
      e.bestCandidate (e.ring.write e.rcur x[e.spos.toNat]) (e.rcur + 1) (x.drop (e.spos.toNat + 1))
        (e.matchLimit (e.spos.toNat + 1)) := by
  simp only [Enc.bestNext, List.drop_eq_getElem_cons h]

/-- Settles O37: the branches of GUARD, and SEARCH with and without the lazy candidate. -/
theorem guardAndSearchPhasesOfEnc : Obligations.GuardAndSearchPhasesOfEnc := by
  refine ⟨fun s h => ?_, fun s h => ⟨_, h.search, rfl, rfl, Enc.bestCandidate_invalid, fun hlazy => ?_, fun hlazy => ?_⟩⟩
  · rw [h.guard, Enc.guardStep]
    split <;> rfl
  · have hlt : s.enc.spos.toNat < s.inX.length :=
      (((Enc.inRange_search h.2.1).mp h.2.2.1).2.2).trans_le h.2.2.2
    refine ⟨s.inX[s.enc.spos.toNat], List.getElem?_eq_getElem hlt, ?_⟩
    show (if s.enc.lazyApplies (s.enc.bestHere s.inX) = true then s.enc.bestNext s.inX else Best.none) = _
    rw [if_pos ((Enc.lazyApplies_iff _ (s.enc.bestHere s.inX)).mpr hlazy), Enc.bestNext_of_lt _ hlt]
    rfl
  · exact if_neg (mt (Enc.lazyApplies_iff _ _).mp hlazy)

end Sys2Proof.Machine
end

section
/-! SUPPORT. The output of ENC: COMMIT of a LIT (R167), block emission by PACK and FLUSH (R170, R173), the self-check (R182), and
the size of what a finished run has written (R183). -/

namespace Sys2Proof.Machine

/-! ## COMMIT of a LIT (R167) -/

/-- COMMIT of a LIT in every field (R167, R169, R171, R172). -/
theorem Enc.commitLit_frame (b : Byte) (e : Enc) :
    e.commitLit b =
      { e with qflag := setKindBit e.qflag e.qn, qb := e.qb.setIfInBounds e.qbn.toNat b, qbn := e.qbn + 1, qn := e.qn + 1
               ring := e.ring.write e.rcur b, rcur := e.rcur + 1, spos := e.spos + 1, litops := e.litops + 1
               totops := e.totops + 1, ph := if e.qn = 7 then .pack else .guard } := by
  have hqn : (e.qn + 1 = 8) = (e.qn = 7) := by simp only [eq_iff_iff]; bv_omega
  simp only [Enc.commitLit, Enc.afterCommit, Enc.ringWrite_qn, Enc.pushByte_qn, hqn]
  rfl

/-- The input goes on at the source position of a running ENC at COMMIT (R64). -/
theorem EncRuns.pixelRest {s : State} (h : EncRuns s .commit) :
    ∃ b rest, s.inX[s.enc.spos.toNat]? = some b ∧ s.pixelRest = b :: rest := by
  obtain ⟨-, hp, hr, hx⟩ := h
  have hlt : s.enc.spos.toNat < s.inX.length := ((Enc.inRange_commit hp).mp hr).2.2.1.trans_le hx
  exact ⟨_, _, List.getElem?_eq_getElem hlt, List.drop_eq_getElem_cons hlt⟩

theorem EncRuns.commitLit {s : State} {b : Byte} {rest : List Byte} (h : EncRuns s .commit) (hk : s.enc.kind = .lit)
    (hx : s.pixelRest = b :: rest) : encStep s = .next { s with enc := s.enc.commitLit b } := by
  rw [encStep_of_encRuns h]
  simp only [encRunPhase, h.2.1, commitStep, hk, hx]

/-- Settles O38: the frame of COMMIT, and the queue cell by cell. -/
theorem commitPhaseOfLit : Obligations.CommitPhaseOfLit := by
  intro s h hk
  obtain ⟨b, rest, hb, hx⟩ := h.pixelRest
  have hqbn : s.enc.qbn.toNat < 16 := by
    obtain ⟨⟨⟨-, -, hqb2, -⟩, -⟩, hq, -⟩ := (Enc.inRange_commit h.2.1).mp h.2.2.1
    omega
  refine ⟨b, _, hb, h.commitLit hk hx, ?_, fun j hj => ?_⟩
  · exact congrArg (fun e : Enc => { s with enc := e }) (Enc.commitLit_frame b s.enc)
  · rw [Enc.commitLit_frame]
    simp only [Vector.getElem?_setIfInBounds, hqbn, if_true, eq_comm (a := j)]

/-! ## Block emission (R170, R173) -/

theorem Enc.blockWire_zero (e : Enc) : e.blockWire[0]? = some (e.qflag ^^^ 0xFF#8) := rfl

theorem Enc.blockWire_succ (e : Enc) {j : Nat} (hj : j < e.qbn.toNat) :
    e.blockWire[j + 1]? = e.qb[j]?.map fun b => b ^^^ 0xFF#8 := by
  rw [Enc.blockWire, List.map_cons, List.getElem?_cons_succ, List.getElem?_map, List.getElem?_take_of_lt hj,
    Vector.getElem?_toList]
  rfl

/-- The queue of an ENC in range fits `QB` (R37). -/
theorem Enc.qbn_le_of_inRange {e : Enc} (h : e.inRange = true) : e.qbn.toNat ≤ 16 := by
  obtain ⟨⟨hq8, -, hqb2, -⟩, -⟩ := Enc.inRange_bounds h
  omega

/-- `OPTR` behind the block: the flag byte and the bytes in use (R170). -/
theorem Enc.optr_add_blockWire {e : Enc} (h : e.qbn.toNat ≤ 16) :
    e.optr + BitVec.ofNat 34 e.blockWire.length = e.optr + 1 + e.qbn.setWidth 34 := by
  rw [Enc.blockWire_length h, Nat.add_comm, BitVec.ofNat_add, BitVec.ofNat_toNat, BitVec.add_assoc]
  rfl

/-- `OPTR` stays inside its 34 bits (R183). -/
theorem Enc.toNat_optr_add_blockWire {e : Enc} (h : e.inRange = true) :
    (e.optr + BitVec.ofNat 34 e.blockWire.length).toNat = e.optr.toNat + e.blockWire.length := by
  obtain ⟨⟨hq8, -, hqb2, -, htot⟩, hs, hn, hsize⟩ := Enc.inRange_bounds h
  have hlen := Enc.blockWire_length (e := e) (by omega)
  rw [BitVec.toNat_add, BitVec.toNat_ofNat]
  omega

/-- Block emission in every field; `Y` and `QB` are said apart (R170). -/
theorem writeBlock_frame {s : State} (h : s.enc.qbn.toNat ≤ 16) :
    writeBlock s =
      { s with outY := (writeBlock s).outY, draws := (writeBlock s).draws
               enc := { s.enc with optr := s.enc.optr + 1 + s.enc.qbn.setWidth 34, qn := 0, qflag := 0
                                   qb := (writeBlock s).enc.qb, qbn := 0
                                   shadow := s.enc.shadow.map (Shadow.feedAll s.inX s.enc.blockWire) } } := by
  rw [← Enc.optr_add_blockWire h]
  rfl

theorem read_writeBlock_inside (s : State) {j : Nat} (hj : j < s.enc.blockWire.length) :
    (writeBlock s).outY.read (s.enc.optr.toNat + j) = s.enc.blockWire[j]? := by
  rw [writeBlock_outY, Memory.read_writeAll, if_pos (by omega), Nat.add_sub_cancel_left]

theorem read_writeBlock_outside (s : State) {k : Nat}
    (hk : k < s.enc.optr.toNat ∨ s.enc.optr.toNat + s.enc.blockWire.length ≤ k) :
    (writeBlock s).outY.read k = s.outY.read k := by
  rw [writeBlock_outY, Memory.read_writeAll, if_neg (by omega)]

theorem EncRuns.pack {s : State} (h : EncRuns s .pack) : encStep s = .next (packStep s) := by
  rw [encStep_of_encRuns h]
  simp only [encRunPhase, h.2.1]

theorem EncRuns.flush {s : State} (h : EncRuns s .flush) : encStep s = .next (flushStep s) := by
  rw [encStep_of_encRuns h]
  simp only [encRunPhase, h.2.1]

/-- Settles O40: PACK is block emission and a change of phase. -/
theorem packPhaseWritesBlock : Obligations.PackPhaseWritesBlock := by
  intro s h
  have hqbn := Enc.qbn_le_of_inRange h.2.2.1
  refine ⟨packStep s, s.enc.blockWire, h.pack, ?_, Enc.blockWire_length hqbn, s.enc.blockWire_zero,
    fun j => s.enc.blockWire_succ, fun j => read_writeBlock_inside s, fun k => read_writeBlock_outside s⟩
  exact congrArg (fun t : State => { t with enc := { t.enc with ph := .guard } }) (writeBlock_frame hqbn)

/-! ## FLUSH (R173, R182) -/

/-- What FLUSH puts to the self-check: the block with its partial block written, if there is one (R173). -/
def State.flushed (s : State) : State := if s.enc.qn = 0 then s else writeBlock s

theorem State.flushed_of_empty {s : State} (h : s.enc.qn = 0) : s.flushed = s := if_pos h

theorem State.flushed_of_partial {s : State} (h : s.enc.qn ≠ 0) : s.flushed = writeBlock s := if_neg h

@[simp] theorem State.flushed_inX (s : State) : s.flushed.inX = s.inX := by
  unfold State.flushed
  split <;> rfl

theorem flushStep_of_passes {s : State} (h : selfCheckPasses s.flushed = true) :
    flushStep s =
      { s.flushed with
        enc := { s.flushed.enc with shadow := s.flushed.enc.shadow.map (Shadow.finish s.inX), st := .done } } := by
  rw [← s.flushed_inX]
  exact if_pos h

theorem flushStep_of_not_passes {s : State} (h : ¬ selfCheckPasses s.flushed = true) :
    flushStep s = { s with enc := { s.enc with err := .roundTripMismatch, errph := .none, st := .fault } } := if_neg h

/-- The condition of FLUSH (R182). -/
theorem Shadow.passes_iff (optr : BitVec 34) (sh : Shadow) :
    sh.passes optr = true ↔ sh.mismatch = false ∧ sh.dec.st = .done ∧ sh.dec.iptr.toNat = optr.toNat := by
  simp only [Shadow.passes, Bool.and_eq_true, Bool.not_eq_true', beq_iff_eq, and_assoc]

theorem selfCheckPasses_none {s : State} (h : s.enc.shadow = none) : selfCheckPasses s = true := by
  simp only [selfCheckPasses, h]

theorem selfCheckPasses_flushed {s : State} {sh : Shadow} (h : s.flushed.enc.shadow = some sh) :
    selfCheckPasses s.flushed = true ↔
      (sh.finish s.inX).mismatch = false ∧ (sh.finish s.inX).dec.st = .done ∧
      (sh.finish s.inX).dec.iptr.toNat = s.flushed.enc.optr.toNat := by
  simp only [selfCheckPasses, h, Shadow.passes_iff, State.flushed_inX]

/-- The shadow decoder at the self-check has been fed the partial block. -/
theorem writeBlock_shadow {s : State} {sh : Shadow} (h : s.enc.shadow = some sh) :
    (writeBlock s).enc.shadow = some (sh.feedAll s.inX s.enc.blockWire) := by
  rw [writeBlock_enc, h]
  rfl

/-- Settles O41: without a shadow decoder the self-check passes. -/
theorem flushPhaseEndsRun : Obligations.FlushPhaseEndsRun := by
  intro s h hsh
  have hqbn := Enc.qbn_le_of_inRange h.2.2.1
  have hlen := Enc.blockWire_length hqbn
  refine ⟨fun hq => ?_, fun hq => ?_⟩
  · have hpass : selfCheckPasses s.flushed = true := by
      rw [State.flushed_of_empty hq]; exact selfCheckPasses_none hsh
    rw [h.flush, flushStep_of_passes hpass, State.flushed_of_empty hq, hsh, Option.map_none, ← hsh]
  · have hnone : (writeBlock s).enc.shadow = none := by rw [writeBlock_enc, hsh]; rfl
    have hpass : selfCheckPasses s.flushed = true := by
      rw [State.flushed_of_partial hq]; exact selfCheckPasses_none hnone
    refine ⟨_, h.flush, ?_⟩
    rw [flushStep_of_passes hpass, State.flushed_of_partial hq, hnone]
    refine ⟨?_, ?_, fun j hj => ?_, fun k hk => ?_⟩
    · have hframe := congrArg (fun t : State => { t with enc := { t.enc with shadow := none, st := .done } })
        (writeBlock_frame hqbn)
      refine hframe.trans ?_
      simp only [← hsh]
    · exact (read_writeBlock_inside s (j := 0) (by omega)).trans s.enc.blockWire_zero
    · have hread := read_writeBlock_inside s (j := j + 1) (by omega)
      rw [Nat.add_comm j, ← Nat.add_assoc, Nat.add_comm 1 j] at hread
      exact hread.trans (s.enc.blockWire_succ hj)
    · exact read_writeBlock_outside s (by omega)

/-- Settles O42: the self-check of an empty and of a partial block, passed and failed. -/
theorem selfCheckDecidesFlush : Obligations.SelfCheckDecidesFlush := by
  intro s sh h hsh
  have hqbn := Enc.qbn_le_of_inRange h.2.2.1
  refine ⟨fun hq => ?_, fun hq => ?_⟩
  · have hflushed := State.flushed_of_empty hq
    have hiff := selfCheckPasses_flushed (s := s) (sh := sh) (by rw [hflushed, hsh])
    refine ⟨fun hpass => ?_, fun hfail => ?_⟩
    · rw [h.flush, flushStep_of_passes (hiff.mpr (by rw [hflushed]; exact hpass)), hflushed, hsh]
      rfl
    · rw [h.flush, flushStep_of_not_passes (mt hiff.mp (by rw [hflushed]; exact hfail))]
  · have hflushed := State.flushed_of_partial hq
    have hfed := writeBlock_shadow hsh
    have hoptr : s.flushed.enc.optr.toNat = s.enc.optr.toNat + s.enc.blockWire.length := by
      rw [hflushed, writeBlock_enc, Enc.toNat_optr_add_blockWire h.2.2.1]
    have hiff := selfCheckPasses_flushed (s := s) (by rw [hflushed, hfed])
    rw [hoptr] at hiff
    refine ⟨s.enc.blockWire, Enc.blockWire_length hqbn, s.enc.blockWire_zero, fun j => s.enc.blockWire_succ,
      fun hpass => ⟨_, h.flush, ?_⟩, fun hfail => ?_⟩
    · rw [flushStep_of_passes (hiff.mpr hpass), hflushed, hfed]
      refine ⟨?_, fun j => read_writeBlock_inside s, fun k => read_writeBlock_outside s⟩
      exact congrArg (fun t : State => { t with enc := { t.enc with
        shadow := some ((sh.feedAll s.inX s.enc.blockWire).finish s.inX), st := .done } }) (writeBlock_frame hqbn)
    · rw [h.flush, flushStep_of_not_passes (mt hiff.mp hfail)]

/-! ## The size of what is written (R183) -/

/-- A phase of a running ENC runs on, or is FLUSH. -/
theorem encRunPhase_run_or_flush {s t : State} (hst : s.enc.st = .run) (h : encRunPhase s = .next t) :
    t.enc.st = .run ∨ (s.enc.ph = .flush ∧ t = flushStep s) := by
  rcases encRunPhase_next h with ⟨-, rfl⟩ | ⟨-, rfl⟩ | ⟨-, rfl⟩ | ⟨-, -, b, rest, -, rfl⟩ | ⟨-, -, -, rfl⟩ | ⟨-, rfl⟩ | hflush
  · refine .inl ?_
    show (Enc.guardStep _).st = _
    unfold Enc.guardStep
    split <;> exact hst
  · exact .inl hst
  · exact .inl hst
  · exact .inl hst
  · rw [Enc.commitRef_frame]
    exact .inl hst
  · exact .inl hst
  · exact .inr hflush

/-- Settles O44: a run ends in FLUSH with all of the input covered, and its last block is at most one byte more than the queue
pays for in the size relation that every phase keeps. -/
theorem encodedSizeBound : Obligations.EncodedSizeBound := by
  intro s t hst h hdone
  obtain ⟨hstop, -⟩ | ⟨hinit, -⟩ | ⟨-, hx, hr, hphase⟩ := encStep_next h
  · simp [hst, RunState.stopped] at hstop
  · simp [hst] at hinit
  rcases encRunPhase_run_or_flush hst hphase with hrun | ⟨hp, rfl⟩
  · simp [hrun] at hdone
  obtain ⟨⟨⟨hq8, hqb, hqb2, -, htot⟩, -, hn, hsize⟩, -, hs⟩ := (Enc.inRange_flush hp).mp hr
  have hs' : s.enc.spos.toNat = s.enc.n.toNat := by rw [hs]
  rcases flushStep_cases s with heq | ⟨-, sh, heq⟩ | ⟨hq, sh, heq⟩
  · simp [heq] at hdone
  · rw [heq]
    show s.enc.optr.toNat ≤ s.enc.n.toNat + (s.enc.n.toNat + 7) / 8
    omega
  · have hq1 : 1 ≤ s.enc.qn.toNat := Nat.pos_of_ne_zero (BitVec.toNat_ne.mp hq)
    rw [heq]
    show (s.enc.optr + BitVec.ofNat 34 s.enc.blockWire.length).toNat ≤ s.enc.n.toNat + (s.enc.n.toNat + 7) / 8
    rw [Enc.toNat_optr_add_blockWire hr, Enc.blockWire_length (by omega)]
    omega

/-! ## A valid candidate, decoded (R157, R181) -/

/-- Settles O57: the copy of DEC and the replay of ENC follow one recursion, R133 and R155. -/
theorem validCandidateReproducesInput : Obligations.ValidCandidateReproducesInput := by
  intro s d xs lim length hd1 hd h3 h18 hlen hu hl hroom hwf
  obtain ⟨t, e, n, d', hexec, hn, hd', -, hold, hback, hout, -⟩ :=
    refCopiesBytes (s.dec.rcur - BitVec.ofNat 12 d) length s ((Instr.wellFormed_ref _ _).mpr ⟨h3, h18⟩) hu hl (by omega) hwf
  have hdist : d' = d := by
    rw [hd']
    bv_omega
  have hn' : n = length.toNat := by omega
  subst hdist hn'
  have hreplay : ∀ i, i < length.toNat → e i = replayByte s.dec.ring s.dec.rcur d' i := by
    intro i
    induction i using Nat.strong_induction_on with
    | _ i ih =>
      intro hi
      obtain ⟨hbelow, hfrom⟩ := replayFollowsRecursion s.dec.ring s.dec.rcur d' i hd1 hd
      rcases Nat.lt_or_ge i d' with hlt | hge
      · rw [hold i hi (.inr hlt), hbelow hlt]
      · rw [hback i hi (by omega) hge, hfrom hge]
        exact ih (i - d') (by omega) (by omega)
  refine ⟨t, hexec, fun i hi => ?_⟩
  rw [hout i hi, hreplay i hi, matchLength_agrees (hi.trans_le hlen)]

end Sys2Proof.Machine
end

section
/-! SUPPORT. Operations as a decoder carries them out, apart from any engine: the ring, the cursor and the count they start from,
the bytes they emit, and the blocks of the format they stand in (R90, R91, R126, R129). -/

namespace Sys2Proof

/-- The logical bytes of an operation of a block (R92, R95); FLAG and the host commands are no operation of a block. -/
def Instr.operandBytes : Instr → List Byte
  | .lit data => [data]
  | .ref position length => [refU position length, refL position]
  | .flag _ => []
  | .start _ _ _ => []
  | .abort _ _ _ _ => []

/-- The kind bit of an operation (R91). -/
def Instr.isLit : Instr → Bool
  | .lit _ => true
  | .ref _ _ => false
  | .flag _ => false
  | .start _ _ _ => false
  | .abort _ _ _ _ => false

end Sys2Proof

namespace Sys2Proof.Machine

/-! ## Ring, cursor and count (R59, R129) -/

/-- What an emitted byte moves in a decoder, and a covered one in an encoder: ring, cursor and count, the count as wide as it has
to be. -/
structure Tape where
  ring  : Ring
  rcur  : RingAddr
  count : Nat

/-- The tape before the first byte (R121, R153). -/
def Tape.start : Tape := ⟨Ring.seeded, Config.cursorInit, 0⟩

/-- `Emit(v)` (R129), and `RingWrite(v)` of a covered byte (R171). -/
def Tape.emit (tp : Tape) (v : Byte) : Tape := ⟨tp.ring.write tp.rcur v, tp.rcur + 1, tp.count + 1⟩

def Tape.emitAll (tp : Tape) (bs : List Byte) : Tape := bs.foldl Tape.emit tp

@[simp] theorem Tape.emit_ring (tp : Tape) (v : Byte) : (tp.emit v).ring = tp.ring.write tp.rcur v := rfl
@[simp] theorem Tape.emit_rcur (tp : Tape) (v : Byte) : (tp.emit v).rcur = tp.rcur + 1 := rfl
@[simp] theorem Tape.emit_count (tp : Tape) (v : Byte) : (tp.emit v).count = tp.count + 1 := rfl
@[simp] theorem Tape.emitAll_nil (tp : Tape) : tp.emitAll [] = tp := rfl
@[simp] theorem Tape.emitAll_cons (tp : Tape) (b : Byte) (bs : List Byte) : tp.emitAll (b :: bs) = (tp.emit b).emitAll bs := rfl

theorem Tape.emitAll_append (tp : Tape) (bs cs : List Byte) : tp.emitAll (bs ++ cs) = (tp.emitAll bs).emitAll cs :=
  List.foldl_append

@[simp] theorem Tape.emitAll_count (tp : Tape) (bs : List Byte) : (tp.emitAll bs).count = tp.count + bs.length := by
  induction bs generalizing tp with
  | nil => rfl
  | cons b bs ih => rw [Tape.emitAll_cons, ih, Tape.emit_count, List.length_cons, Nat.add_right_comm, Nat.add_assoc]

/-! ## The bytes of an operation -/

/-- A copy from `a` on that reads, byte after byte, `bs` (R126, R128). -/
def Tape.Copies : Tape → RingAddr → List Byte → Prop
  | _, _, [] => True
  | tp, a, b :: bs => tp.ring.read a = b ∧ Tape.Copies (tp.emit b) (a + 1) bs

/-- The stream operation LIT or REF emits exactly `bs`, a REF at a distance that is not 0 (R126, R132, R151). -/
inductive Tape.Emits (tp : Tape) : Instr → List Byte → Prop
  | lit (data : Byte) : tp.Emits (.lit data) [data]
  | ref {position : RingAddr} {length : BitVec 5} {bs : List Byte} (three : 3 ≤ length.toNat) (eighteen : length.toNat ≤ 18)
      (away : distance tp.rcur position ≠ 0) (covers : bs.length = length.toNat) (copies : tp.Copies position bs) :
      tp.Emits (.ref position length) bs

/-- Operations that emit `bs` one after another. -/
inductive Tape.EmitsAll : Tape → List Instr → List Byte → Prop
  | nil (tp : Tape) : tp.EmitsAll [] []
  | cons {tp : Tape} {op : Instr} {ops : List Instr} {bs cs : List Byte} (head : tp.Emits op bs)
      (tail : (tp.emitAll bs).EmitsAll ops cs) : tp.EmitsAll (op :: ops) (bs ++ cs)

/-- Every operation emits something (R92, R94). -/
theorem Tape.Emits.length_pos {tp : Tape} {op : Instr} {bs : List Byte} (h : tp.Emits op bs) : 0 < bs.length := by
  cases h with
  | lit data => exact Nat.one_pos
  | ref three _ _ covers _ => omega

theorem Tape.EmitsAll.length_pos {tp : Tape} {op : Instr} {ops : List Instr} {bs : List Byte}
    (h : tp.EmitsAll (op :: ops) bs) : 0 < bs.length := by
  obtain _ | ⟨head, -⟩ := h
  rw [List.length_append]
  exact Nat.add_pos_left head.length_pos _

theorem Tape.EmitsAll.append_iff {tp : Tape} {ops ops' : List Instr} {bs : List Byte} :
    tp.EmitsAll (ops ++ ops') bs ↔
      ∃ bs₁ bs₂, bs = bs₁ ++ bs₂ ∧ tp.EmitsAll ops bs₁ ∧ (tp.emitAll bs₁).EmitsAll ops' bs₂ := by
  induction ops generalizing tp bs with
  | nil =>
    constructor
    · exact fun h => ⟨[], bs, rfl, .nil tp, h⟩
    · rintro ⟨bs₁, bs₂, rfl, ⟨⟩, h⟩
      exact h
  | cons op ops ih =>
    constructor
    · rintro (_ | ⟨head, tail⟩)
      obtain ⟨bs₁, bs₂, rfl, h₁, h₂⟩ := ih.mp tail
      rw [← Tape.emitAll_append] at h₂
      exact ⟨_, bs₂, (List.append_assoc _ _ _).symm, .cons head h₁, h₂⟩
    · rintro ⟨bs₁, bs₂, rfl, _ | ⟨head, tail⟩, h₂⟩
      rw [Tape.emitAll_append] at h₂
      rw [List.append_assoc]
      exact .cons head (ih.mpr ⟨_, bs₂, rfl, tail, h₂⟩)

/-- One more operation behind. -/
theorem Tape.EmitsAll.concat {tp : Tape} {ops : List Instr} {op : Instr} {bs cs : List Byte} (h : tp.EmitsAll ops bs)
    (hop : (tp.emitAll bs).Emits op cs) : tp.EmitsAll (ops ++ [op]) (bs ++ cs) :=
  append_iff.mpr ⟨bs, cs, rfl, h, by simpa using Tape.EmitsAll.cons hop (.nil _)⟩

/-- Of the cells from distance `d` behind `c` on, the one at `j` is reached again at `j + d`, and not before (R61). -/
theorem copyCell_eq_iff (c : RingAddr) {d i j : Nat} (hd : d ≤ 4095) (hij : j ≤ i) (hi : i ≤ j + d) :
    c - BitVec.ofNat 12 d + BitVec.ofNat 12 i = c + BitVec.ofNat 12 j ↔ i = j + d := by
  obtain ⟨k, rfl⟩ := Nat.exists_eq_add_of_le hij
  have hsplit : c - BitVec.ofNat 12 d + BitVec.ofNat 12 (j + k) =
      c + BitVec.ofNat 12 j + (BitVec.ofNat 12 k - BitVec.ofNat 12 d) := by
    rw [BitVec.ofNat_add]
    ring
  rw [hsplit, add_eq_left, sub_eq_zero, ← BitVec.toNat_inj, BitVec.toNat_ofNat, BitVec.toNat_ofNat]
  omega

/-- The copy reads what the replay expansion says (R133, R155): before byte `j` the cells up to the distance ahead hold it, and
byte `j` puts it at the cell that is read a distance later. -/
theorem Tape.copies_of_replay {r : Ring} {c : RingAddr} {d : Nat} (h1 : 1 ≤ d) (hd : d ≤ 4095) {tp : Tape} {bs : List Byte}
    {j : Nat} (hwf : tp.ring.wf) (hcur : tp.rcur = c + BitVec.ofNat 12 j)
    (hahead : ∀ i, j ≤ i → i < j + d → tp.ring.read (c - BitVec.ofNat 12 d + BitVec.ofNat 12 i) = replayByte r c d i)
    (hbs : ∀ i, i < bs.length → bs[i]? = some (replayByte r c d (j + i))) :
    tp.Copies (c - BitVec.ofNat 12 d + BitVec.ofNat 12 j) bs := by
  induction bs generalizing tp j with
  | nil => trivial
  | cons b bs ih =>
    have hb : b = replayByte r c d j := Option.some.inj (hbs 0 (Nat.succ_pos _))
    have hnext : c - BitVec.ofNat 12 d + BitVec.ofNat 12 j + 1 = c - BitVec.ofNat 12 d + BitVec.ofNat 12 (j + 1) := by
      rw [BitVec.add_assoc, BitVec.ofNat_add]
      rfl
    refine ⟨by rw [hb]; exact hahead j (Nat.le_refl j) (by omega), ?_⟩
    rw [hnext]
    refine ih (Ring.write_wf hwf _ _) ?_ (fun i hij hi => ?_) fun i hi => ?_
    · rw [Tape.emit_rcur, hcur, BitVec.ofNat_add, BitVec.add_assoc]
      rfl
    · rw [Tape.emit_ring, Ring.read_write hwf, hcur]
      have hcell := copyCell_eq_iff c hd (show j ≤ i by omega) (show i ≤ j + d by omega)
      by_cases hlast : i = j + d
      · rw [if_pos (hcell.mpr hlast), hb, (replayFollowsRecursion r c d i h1 hd).2 (by omega), hlast, Nat.add_sub_cancel]
      · rw [if_neg (mt hcell.mp hlast)]
        exact hahead i (by omega) (by omega)
    · have htail := hbs (i + 1) (Nat.succ_lt_succ hi)
      rwa [List.getElem?_cons_succ, ← Nat.add_assoc, Nat.add_right_comm] at htail

/-- A valid candidate is a REF that emits the input it matches (R157, R181). -/
theorem Tape.emits_ref_of_match {tp : Tape} (hwf : tp.ring.wf) {d : Nat} (h1 : 1 ≤ d) (hd : d ≤ 4095) {length : BitVec 5}
    (h3 : 3 ≤ length.toNat) (h18 : length.toNat ≤ 18) {xs : List Byte} {lim : Nat}
    (hmatch : length.toNat ≤ matchLength tp.ring tp.rcur d xs lim) (hxs : length.toNat ≤ xs.length) :
    tp.Emits (.ref (tp.rcur - BitVec.ofNat 12 d) length) (xs.take length.toNat) := by
  have hlen : (xs.take length.toNat).length = length.toNat := by rw [List.length_take, Nat.min_eq_left hxs]
  refine .ref h3 h18 ?_ hlen ?_
  · rw [distance, sub_sub_cancel]
    refine BitVec.toNat_ne.mpr ?_
    rw [BitVec.toNat_ofNat]
    show d % 2 ^ 12 ≠ 0
    omega
  · have hcopies := copies_of_replay (r := tp.ring) (c := tp.rcur) (j := 0) h1 hd (bs := xs.take length.toNat) hwf
      (BitVec.add_zero _).symm (fun i _ hi => ?_) fun i hi => ?_
    · rwa [BitVec.add_zero] at hcopies
    · exact ((replayFollowsRecursion tp.ring tp.rcur d i h1 hd).1 (by omega)).symm
    · rw [hlen] at hi
      rw [List.getElem?_take_of_lt hi, Nat.zero_add, matchLength_agrees (hi.trans_le hmatch)]

/-! ## Operations in the stream -/

/-- The operand bytes are what the encoder stores, masked (R97). -/
theorem Tape.Emits.encode {tp : Tape} {op : Instr} {bs : List Byte} (h : tp.Emits op bs) :
    encode op = .stream (if op.isLit then .lit else .ref) (op.operandBytes.map mask) := by
  cases h <;> rfl

/-- A block of the stream: its flag byte and its operations (R90). -/
structure Block where
  kinds : Byte
  ops   : List Instr

/-- The wire bytes of a block (R90, R97). -/
def Block.wire (b : Block) : List Byte := (b.kinds :: b.ops.flatMap Instr.operandBytes).map mask

/-- Bit `7 - j` of the flag byte is the kind of operation `j`, and 0 where there is none (R91, R169). -/
def Block.KindsAgree (b : Block) : Prop := ∀ j, j < 8 → b.kinds.getLsbD (7 - j) = b.ops[j]?.any Instr.isLit

/-- A block that PACK writes (R170). -/
structure Block.Full (b : Block) : Prop where
  kinds : b.KindsAgree
  eight : b.ops.length = 8

/-- What a finished run writes for its last block: nothing where no operation is pending (R173). -/
def Block.flushed (b : Block) : List Byte := if b.ops = [] then [] else b.wire

/-- `w` is a stream of full blocks, and a partial one behind, whose operations emit `x` (R90, R151). -/
def Encodes (x w : List Byte) : Prop :=
  ∃ (blocks : List Block) (last : Block), (∀ b ∈ blocks, b.Full) ∧ last.KindsAgree ∧ last.ops.length ≤ 8 ∧
    Tape.start.EmitsAll (blocks.flatMap Block.ops ++ last.ops) x ∧ w = blocks.flatMap Block.wire ++ last.flushed

end Sys2Proof.Machine
end

section
/-! SUPPORT. The shadow decoder with bytes to come (R43, R182; log entry 9): its steps one at a time, and that feeding the bytes
takes it where these steps do. -/

namespace Sys2Proof.Machine

/-! ## What a step of the shadow can do -/

/-- What a step that needs no byte can do (R122, R124, R128). -/
theorem Shadow.quietStep_some {x : List Byte} {sh sh' : Shadow} (h : sh.quietStep x = some sh') :
    sh.dec.st = .run ∧
    ((sh.dec.ph = .guard ∧ sh.complete = true ∧ sh' = { sh with dec := { sh.dec with st := .done } }) ∨
     (sh.dec.ph = .guard ∧ sh' = { sh with dec := { sh.dec with ph := .flag } }) ∨
     (sh.dec.ph = .guard ∧ sh' = { sh with dec := { sh.dec with ph := .bit } }) ∨
     (sh.dec.ph = .bit ∧ sh' = { sh with dec := sh.dec.bitStep }) ∨
     (sh.dec.ph = .copy ∧ sh' = { sh with dec := { sh.dec with ph := .guard } }) ∨
     (sh.dec.ph = .copy ∧ sh.dec.ci ≠ sh.dec.len ∧
       sh' = { sh.emit x sh.dec.copySource with dec := sh.dec.copyByte })) := by
  unfold Shadow.quietStep at h
  split at h
  · rename_i hst
    refine ⟨hst, ?_⟩
    split at h
    next hp =>
      split at h
      · rename_i hc
        exact .inl ⟨hp, hc, (Option.some.inj h).symm⟩
      · split at h
        · exact .inr (.inl ⟨hp, (Option.some.inj h).symm⟩)
        · exact .inr (.inr (.inl ⟨hp, (Option.some.inj h).symm⟩))
    next hp => exact .inr (.inr (.inr (.inl ⟨hp, (Option.some.inj h).symm⟩)))
    next hp =>
      split at h
      · exact .inr (.inr (.inr (.inr (.inl ⟨hp, (Option.some.inj h).symm⟩))))
      · rename_i hgo
        simp only [Bool.or_eq_true, beq_iff_eq, not_or] at hgo
        exact .inr (.inr (.inr (.inr (.inr ⟨hp, hgo.1, (Option.some.inj h).symm⟩))))
    all_goals cases h
  · cases h

/-- A running shadow takes a step, or a byte is due. -/
theorem Shadow.fetches_of_quietStep_none {x : List Byte} {sh : Shadow} (hst : sh.dec.st = .run)
    (h : sh.quietStep x = none) : sh.dec.ph.fetches = true := by
  cases hp : sh.dec.ph with
  | guard =>
    simp only [Shadow.quietStep, hst, hp, if_true] at h
    split at h
    · cases h
    · split at h <;> cases h
  | bit => rw [quietStep_bit hst hp] at h; cases h
  | copy =>
    simp only [Shadow.quietStep, hst, hp, if_true] at h
    split at h <;> cases h
  | flag => rfl
  | lit => rfl
  | refU => rfl
  | refL => rfl

/-- The shadow's stream has grown by a byte (log entry 9). -/
def Shadow.withByte (sh : Shadow) : Shadow := { sh with dec := { sh.dec with slen := sh.dec.slen + 1 } }

/-- What the byte that is due does (R123, R125, R127). -/
theorem Shadow.consume_cases {x : List Byte} {sh : Shadow} (raw : Byte) (hst : sh.dec.st = .run)
    (hf : sh.dec.ph.fetches = true) :
    (sh.dec.ph = .flag ∧ sh.consume x raw = { sh with dec := sh.dec.loadFlag (mask raw) }) ∨
    (sh.dec.ph = .lit ∧ sh.consume x raw =
      { sh with dec := { sh.dec.advance.emit (mask raw) with ph := .guard }, count := sh.count + 1
                mismatch := sh.mismatch || (x[sh.count.toNat]? != some (mask raw)) }) ∨
    (sh.dec.ph = .refU ∧ sh.consume x raw = { sh with dec := sh.dec.latchU (mask raw) }) ∨
    (sh.dec.ph = .refL ∧ sh.consume x raw = { sh with dec := sh.dec.latchL (mask raw) }) := by
  cases hp : sh.dec.ph with
  | flag => exact .inl ⟨rfl, consume_flag hst hp raw⟩
  | lit => exact .inr (.inl ⟨rfl, consume_lit hst hp raw⟩)
  | refU => exact .inr (.inr (.inl ⟨rfl, consume_refU hst hp raw⟩))
  | refL => exact .inr (.inr (.inr ⟨rfl, consume_refL hst hp raw⟩))
  | guard => rw [hp] at hf; cases hf
  | bit => rw [hp] at hf; cases hf
  | copy => rw [hp] at hf; cases hf

/-- One step of a running shadow with bytes to come: one that needs no byte, else the next byte is consumed. -/
def Shadow.next (x : List Byte) : Shadow × List Byte → Option (Shadow × List Byte)
  | (sh, ws) =>
    match sh.quietStep x, ws with
    | some sh', ws => some (sh', ws)
    | none, raw :: ws' => if sh.dec.st = .run then some (sh.withByte.consume x raw, ws') else none
    | none, [] => none

theorem Shadow.next_of_quiet {x : List Byte} {sh sh' : Shadow} (h : sh.quietStep x = some sh') (ws : List Byte) :
    Shadow.next x (sh, ws) = some (sh', ws) := by
  cases ws <;> simp only [Shadow.next, h]

theorem Shadow.next_of_fetch {x : List Byte} {sh : Shadow} (hst : sh.dec.st = .run) (hf : sh.dec.ph.fetches = true)
    (raw : Byte) (ws : List Byte) : Shadow.next x (sh, raw :: ws) = some (sh.withByte.consume x raw, ws) := by
  simp only [Shadow.next, quietStep_none (.inr hf), hst, if_true]

/-- What a step can be. -/
theorem Shadow.next_some {x : List Byte} {sh : Shadow} {ws : List Byte} {c : Shadow × List Byte}
    (h : Shadow.next x (sh, ws) = some c) :
    (sh.quietStep x = some c.1 ∧ c.2 = ws) ∨
    (∃ raw, ws = raw :: c.2 ∧ sh.dec.st = .run ∧ sh.dec.ph.fetches = true ∧ sh.quietStep x = none ∧
      c.1 = sh.withByte.consume x raw) := by
  cases hq : sh.quietStep x with
  | some sh' =>
    rw [next_of_quiet hq] at h
    cases h
    exact .inl ⟨rfl, rfl⟩
  | none =>
    cases ws with
    | nil => simp only [Shadow.next, hq, reduceCtorEq] at h
    | cons raw ws =>
      simp only [Shadow.next, hq] at h
      split at h
      · rename_i hst
        cases h
        exact .inr ⟨raw, rfl, hst, fetches_of_quietStep_none hst hq, rfl, rfl⟩
      · cases h

/-! ## Settling (log entry 9) -/

/-- In a copy the counter is within the length, and that is one of the format (R59, 93 U16). -/
def Shadow.CopyInRange (sh : Shadow) : Prop :=
  sh.dec.ph = .copy → sh.dec.ci.toNat ≤ sh.dec.len.toNat ∧ sh.dec.len.toNat ≤ 18

theorem Shadow.quietLeft_le {sh : Shadow} (h : sh.CopyInRange) : sh.dec.quietLeft ≤ 21 := by
  unfold Dec.quietLeft
  cases hp : sh.dec.ph with
  | copy =>
    obtain ⟨-, hlen⟩ := h hp
    dsimp only
    omega
  | _ => dsimp only; decide

/-- A step that needs no byte uses up one of them, and keeps a copy in range. -/
theorem Shadow.quietStep_quietLeft {x : List Byte} {sh sh' : Shadow} (h : sh.CopyInRange)
    (hq : sh.quietStep x = some sh') : sh'.CopyInRange ∧ (sh'.dec.st = .run → sh'.dec.quietLeft < sh.dec.quietLeft) := by
  obtain ⟨hst, ⟨hp, -, rfl⟩ | ⟨hp, rfl⟩ | ⟨hp, rfl⟩ | ⟨hp, rfl⟩ | ⟨hp, rfl⟩ | ⟨hp, hne, rfl⟩⟩ := quietStep_some hq
  · exact ⟨h, nofun⟩
  · exact ⟨nofun, fun _ => by simp [Dec.quietLeft, hp]⟩
  · exact ⟨nofun, fun _ => by simp [Dec.quietLeft, hp]⟩
  · unfold CopyInRange Dec.quietLeft
    cases hk : sh.dec.kindBit <;> simp [hk, hp]
  · exact ⟨nofun, fun _ => by simp [Dec.quietLeft, hp]⟩
  · obtain ⟨hci, hlen⟩ := h hp
    have hlt : sh.dec.ci.toNat < sh.dec.len.toNat := Nat.lt_of_le_of_ne hci (BitVec.toNat_ne.mp hne)
    have hsucc : sh.dec.copyByte.ci.toNat = sh.dec.ci.toNat + 1 := toNat_succ_of_lt hlt
    have hph : sh.dec.copyByte.ph = .copy := hp
    have hlen' : sh.dec.copyByte.len = sh.dec.len := rfl
    refine ⟨fun _ => ?_, fun _ => ?_⟩
    · show sh.dec.copyByte.ci.toNat ≤ sh.dec.copyByte.len.toNat ∧ sh.dec.copyByte.len.toNat ≤ 18
      rw [hsucc, hlen']
      exact ⟨hlt, hlen⟩
    · show sh.dec.copyByte.quietLeft < sh.dec.quietLeft
      simp only [Dec.quietLeft, hp, hph, hsucc, hlen']
      omega

/-- The shadow where it needs a byte or is done. -/
def Shadow.settled (x : List Byte) (sh : Shadow) : Shadow := sh.settle x Shadow.fuel

theorem Shadow.settle_of_none {x : List Byte} {sh : Shadow} (h : sh.quietStep x = none) (k : Nat) : sh.settle x k = sh := by
  cases k with
  | zero => rfl
  | succ k => simp only [Shadow.settle, h]

/-- Fuel for the steps left is enough: none is left where the shadow settles. -/
theorem Shadow.quietStep_settle {x : List Byte} (k : Nat) {sh : Shadow} (h : sh.CopyInRange)
    (hk : sh.dec.st = .run → sh.dec.quietLeft ≤ k) : (sh.settle x k).quietStep x = none := by
  induction k generalizing sh with
  | zero =>
    cases hq : sh.quietStep x with
    | none => exact hq
    | some sh' =>
      have hst := (quietStep_some hq).1
      have hle := hk hst
      cases hp : sh.dec.ph <;> simp [Dec.quietLeft, hp] at hle
      all_goals rw [quietStep_none (.inr (by rw [hp]; rfl))] at hq; cases hq
  | succ k ih =>
    cases hq : sh.quietStep x with
    | none => rw [settle_of_none hq]; exact hq
    | some sh' =>
      obtain ⟨h', hless⟩ := quietStep_quietLeft h hq
      simp only [Shadow.settle, hq]
      refine ih h' fun hst => ?_
      have hle := hk (quietStep_some hq).1
      have hlt := hless hst
      omega

/-- More fuel than the steps left changes nothing. -/
theorem Shadow.settle_succ {x : List Byte} (k : Nat) {sh : Shadow} (h : (sh.settle x k).quietStep x = none) :
    sh.settle x (k + 1) = sh.settle x k := by
  induction k generalizing sh with
  | zero => exact settle_of_none h 1
  | succ k ih =>
    cases hq : sh.quietStep x with
    | none => rw [settle_of_none hq, settle_of_none hq]
    | some sh' =>
      have hstep : ∀ j, sh.settle x (j + 1) = sh'.settle x j := fun j => by simp only [Shadow.settle, hq]
      rw [hstep, hstep] at *
      exact ih h

theorem Shadow.quietStep_settled {x : List Byte} {sh : Shadow} (h : sh.CopyInRange) : (sh.settled x).quietStep x = none :=
  quietStep_settle _ h fun _ => (quietLeft_le h).trans (by decide)

theorem Shadow.settled_of_none {x : List Byte} {sh : Shadow} (h : sh.quietStep x = none) : sh.settled x = sh :=
  settle_of_none h _

theorem Shadow.settled_settled {x : List Byte} {sh : Shadow} (h : sh.CopyInRange) :
    (sh.settled x).settled x = sh.settled x := settled_of_none (quietStep_settled h)

/-- A step that needs no byte does not change where the shadow settles. -/
theorem Shadow.settled_of_quiet {x : List Byte} {sh sh' : Shadow} (h : sh.CopyInRange) (hq : sh.quietStep x = some sh') :
    sh.settled x = sh'.settled x := by
  have h' := (quietStep_quietLeft h hq).1
  have hstep : sh.settled x = sh'.settle x 23 := by simp only [settled, fuel, Shadow.settle, hq]
  rw [hstep]
  exact (settle_succ 23 (quietStep_settle 23 h' fun _ => (quietLeft_le h').trans (by decide))).symm

/-! ## Feeding the bytes to come -/

/-- Where the shadow is after the bytes to come, settled. -/
def Shadow.fedAll (x : List Byte) (c : Shadow × List Byte) : Shadow := (c.1.feedAll x c.2).settled x

theorem Shadow.feed_eq (x : List Byte) (sh : Shadow) (raw : Byte) :
    sh.feed x raw = ((sh.settled x).withByte.consume x raw).settled x := rfl

/-- Feeding starts where the shadow settles. -/
theorem Shadow.fedAll_settled {x : List Byte} {sh : Shadow} (h : sh.CopyInRange) (ws : List Byte) :
    fedAll x (sh.settled x, ws) = fedAll x (sh, ws) := by
  cases ws with
  | nil => exact settled_settled h
  | cons raw ws =>
    have hfeed : (sh.settled x).feed x raw = sh.feed x raw := by rw [feed_eq, feed_eq, settled_settled h]
    show ((((sh.settled x).feed x raw).feedAll x ws).settled x) = (((sh.feed x raw).feedAll x ws).settled x)
    rw [hfeed]

theorem Shadow.consume_copyInRange {x : List Byte} {sh : Shadow} (raw : Byte) (hst : sh.dec.st = .run)
    (hf : sh.dec.ph.fetches = true) : (sh.consume x raw).CopyInRange := by
  rcases consume_cases (x := x) raw hst hf with ⟨-, heq⟩ | ⟨-, heq⟩ | ⟨-, heq⟩ | ⟨-, heq⟩ <;> rw [heq]
  · nofun
  · nofun
  · nofun
  · exact fun _ => ⟨Nat.zero_le _, (refLength_bounds _).2⟩

/-- A step of the shadow does not change where the bytes to come take it. -/
theorem Shadow.fedAll_of_next {x : List Byte} {sh : Shadow} {ws : List Byte} {c : Shadow × List Byte} (h : sh.CopyInRange)
    (hnext : Shadow.next x (sh, ws) = some c) : fedAll x (sh, ws) = fedAll x c := by
  rcases next_some hnext with ⟨hq, hws⟩ | ⟨raw, rfl, hst, hf, hq, hsh⟩
  · rw [← fedAll_settled h, settled_of_quiet h hq, fedAll_settled (quietStep_quietLeft h hq).1, ← hws]
  · have hrange : c.1.CopyInRange := by
      rw [hsh]; exact consume_copyInRange (sh := sh.withByte) raw hst hf
    have hfeed : sh.feed x raw = c.1.settled x := by rw [feed_eq, settled_of_none hq, hsh]
    show ((sh.feed x raw).feedAll x c.2).settled x = _
    rw [hfeed]
    exact fedAll_settled hrange c.2

end Sys2Proof.Machine
end

section
/-! SUPPORT. The shadow decoder on an encoded stream (R151, R181): operation by operation and block by block it emits what the
operations emit, and it ends in DONE with every byte consumed. -/

namespace Sys2Proof.Machine

/-! ## Runs of the shadow -/

/-- What R151 asks of a REF about to be copied, its distance and its length within `N`; and a copy is in range. -/
structure Shadow.Strict (sh : Shadow) : Prop where
  copy : sh.CopyInRange
  start : sh.dec.ph = .copy → sh.dec.ci = 0 →
    distance sh.dec.rcur sh.dec.pos ≠ 0 ∧ sh.count.toNat + sh.dec.len.toNat ≤ sh.p.toNat

theorem Shadow.Strict.of_ph {sh : Shadow} (h : sh.dec.ph ≠ .copy) : sh.Strict :=
  ⟨fun hp => absurd hp h, fun hp => absurd hp h⟩

/-- Steps of the shadow, one after another, each from a strict state. -/
def Shadow.Leads (x : List Byte) (c c' : Shadow × List Byte) : Prop :=
  Relation.ReflTransGen (fun a b => a.1.Strict ∧ Shadow.next x a = some b) c c'

theorem Shadow.Leads.trans {x : List Byte} {a b c : Shadow × List Byte} (h : Shadow.Leads x a b) (h' : Shadow.Leads x b c) :
    Shadow.Leads x a c := Relation.ReflTransGen.trans h h'

theorem Shadow.Leads.quiet {x : List Byte} {sh sh' : Shadow} (hs : sh.Strict) (hq : sh.quietStep x = some sh')
    (ws : List Byte) : Shadow.Leads x (sh, ws) (sh', ws) := .single ⟨hs, next_of_quiet hq ws⟩

theorem Shadow.Leads.fetch {x : List Byte} {sh : Shadow} (hst : sh.dec.st = .run) (hf : sh.dec.ph.fetches = true)
    (raw : Byte) (ws : List Byte) : Shadow.Leads x (sh, raw :: ws) (sh.withByte.consume x raw, ws) := by
  refine .single ⟨.of_ph fun hp => ?_, next_of_fetch hst hf raw ws⟩
  rw [hp] at hf
  cases hf

/-- Feeding the bytes takes the shadow where its steps do (log entry 9). -/
theorem Shadow.Leads.fedAll_eq {x : List Byte} {c c' : Shadow × List Byte} (h : Shadow.Leads x c c') :
    fedAll x c = fedAll x c' := by
  induction h with
  | refl => rfl
  | tail _ hstep ih => exact ih.trans (fedAll_of_next hstep.1.copy hstep.2)

/-- What no step of the shadow changes: `P`, and the sum of the bytes read and the bytes to come. -/
theorem Shadow.next_counts {x : List Byte} {sh : Shadow} {ws : List Byte} {c : Shadow × List Byte}
    (h : Shadow.next x (sh, ws) = some c) (hw : sh.dec.iptr.toNat + ws.length < 2 ^ 40) :
    c.1.p = sh.p ∧ c.1.dec.iptr.toNat + c.2.length = sh.dec.iptr.toNat + ws.length := by
  rcases next_some h with ⟨hq, hws⟩ | ⟨raw, rfl, hst, hf, -, hsh⟩
  · rw [hws]
    obtain ⟨-, ⟨-, -, heq⟩ | ⟨-, heq⟩ | ⟨-, heq⟩ | ⟨-, heq⟩ | ⟨-, heq⟩ | ⟨-, -, heq⟩⟩ := quietStep_some hq <;>
      rw [heq] <;> exact ⟨rfl, rfl⟩
  · rw [List.length_cons] at hw ⊢
    have hadv : (sh.dec.iptr + 1#40).toNat = sh.dec.iptr.toNat + 1 :=
      toNat_add_one_of_le sh.dec.iptr.toNat (Nat.le_refl _) (by omega)
    have hp : c.1.p = sh.p ∧ c.1.dec.iptr = sh.dec.iptr + 1#40 := by
      rcases consume_cases (x := x) (sh := sh.withByte) raw hst hf with ⟨-, heq⟩ | ⟨-, heq⟩ | ⟨-, heq⟩ | ⟨-, heq⟩ <;>
        rw [hsh, heq] <;> exact ⟨rfl, rfl⟩
    rw [hp.2, hadv]
    exact ⟨hp.1, by omega⟩

theorem Shadow.Leads.counts {x : List Byte} {c c' : Shadow × List Byte} (h : Shadow.Leads x c c')
    (hw : c.1.dec.iptr.toNat + c.2.length < 2 ^ 40) :
    c'.1.p = c.1.p ∧ c'.1.dec.iptr.toNat + c'.2.length = c.1.dec.iptr.toNat + c.2.length := by
  induction h with
  | refl => exact ⟨rfl, rfl⟩
  | tail _ hstep ih =>
    obtain ⟨hp, hi⟩ := next_counts hstep.2 (by rw [ih.2]; exact hw)
    exact ⟨hp.trans ih.1, hi.trans ih.2⟩

/-! ## Where the shadow is -/

/-- Ring, cursor and count of the shadow. -/
def Shadow.tape (sh : Shadow) : Tape := ⟨sh.dec.ring, sh.dec.rcur, sh.count.toNat⟩

/-- The shadow is in `RUN` at `ph` with `n` bytes wanted, no mismatch so far, the tape `tp`, and `k` kind bits left at the top of
`flags`. -/
structure Shadow.At (sh : Shadow) (n : Nat) (ph : DecPhase) (tp : Tape) (flags : Byte) (k : Nat) : Prop where
  st : sh.dec.st = .run
  wanted : sh.p.toNat = n
  agrees : sh.mismatch = false
  ph : sh.dec.ph = ph
  tape : sh.tape = tp
  flags : sh.dec.flags = flags
  left : sh.dec.fcnt.toNat = k

section
variable {x : List Byte} {n k : Nat} {tp : Tape} {flags : Byte} {sh : Shadow}

theorem Shadow.At.count {ph : DecPhase} (h : sh.At n ph tp flags k) : sh.count.toNat = tp.count :=
  congrArg Tape.count h.tape

theorem Shadow.At.not_complete {ph : DecPhase} (h : sh.At n ph tp flags k) (hlt : tp.count < n) : sh.complete = false := by
  refine beq_eq_false_iff_ne.mpr fun heq => ?_
  have hn : sh.count.toNat = sh.p.toNat := by rw [heq]
  rw [h.count, h.wanted] at hn
  omega

/-- GUARD with a kind bit left and bytes wanted (R122). -/
theorem Shadow.At.toBit (h : sh.At n .guard tp flags k) (hk : 1 ≤ k) (hlt : tp.count < n) (ws : List Byte) :
    ∃ sh', Shadow.Leads x (sh, ws) (sh', ws) ∧ sh'.At n .bit tp flags k := by
  have hf : sh.dec.fcnt ≠ 0 := BitVec.toNat_ne.mpr (by rw [h.left]; exact Nat.ne_of_gt hk)
  have hq : sh.quietStep x = some { sh with dec := { sh.dec with ph := .bit } } := by
    simp only [quietStep, h.st, h.ph, h.not_complete hlt, hf, if_true, if_false, Bool.false_eq_true]
  exact ⟨_, .quiet (.of_ph (by rw [h.ph]; decide)) hq ws, h.st, h.wanted, h.agrees, rfl, h.tape, h.flags, h.left⟩

/-- GUARD with no kind bit left and bytes wanted (R122). -/
theorem Shadow.At.toFlag (h : sh.At n .guard tp flags 0) (hlt : tp.count < n) (ws : List Byte) :
    ∃ sh', Shadow.Leads x (sh, ws) (sh', ws) ∧ sh'.At n .flag tp flags 0 := by
  have hf : sh.dec.fcnt = 0 := BitVec.eq_of_toNat_eq h.left
  have hq : sh.quietStep x = some { sh with dec := { sh.dec with ph := .flag } } := by
    simp only [quietStep, h.st, h.ph, h.not_complete hlt, hf, if_true, if_false, Bool.false_eq_true]
  exact ⟨_, .quiet (.of_ph (by rw [h.ph]; decide)) hq ws, h.st, h.wanted, h.agrees, rfl, h.tape, h.flags, h.left⟩

/-- The flag byte of a block (R123). -/
theorem Shadow.At.flagByte (h : sh.At n .flag tp flags k) (kinds : Byte) (ws : List Byte) :
    ∃ sh', Shadow.Leads x (sh, mask kinds :: ws) (sh', ws) ∧ sh'.At n .bit tp kinds 8 := by
  refine ⟨_, .fetch h.st (by rw [h.ph]; rfl) (mask kinds) ws, ?_⟩
  rw [consume_flag (sh := sh.withByte) h.st h.ph, mask_mask]
  exact ⟨h.st, h.wanted, h.agrees, rfl, h.tape, rfl, rfl⟩

/-- BIT takes the kind bit at the top (R124). -/
theorem Shadow.At.takeBit (h : sh.At n .bit tp flags (k + 1)) (ws : List Byte) :
    ∃ sh', Shadow.Leads x (sh, ws) (sh', ws) ∧
      sh'.At n (if flags.getLsbD 7 then .lit else .refU) tp (rotl8 flags) k := by
  have hleft : (sh.dec.fcnt - 1).toNat = k := by
    have hk := h.left
    have hlt := sh.dec.fcnt.isLt
    bv_omega
  refine ⟨_, .quiet (.of_ph (by rw [h.ph]; decide)) (quietStep_bit h.st h.ph) ws, h.st, h.wanted, h.agrees, ?_, h.tape, ?_, hleft⟩
  · rw [← h.flags]; rfl
  · rw [← h.flags]; rfl

/-- A byte emitted with room for it, and the one the input has there (R129, R182). -/
theorem Shadow.At.emitted {ph : DecPhase} (h : sh.At n ph tp flags k) (hlt : tp.count < n) {b : Byte}
    (hb : x[tp.count]? = some b) {d : Dec} (hst : d.st = .run) (hring : d.ring = sh.dec.ring.write sh.dec.rcur b)
    (hcur : d.rcur = sh.dec.rcur + 1) (hflags : d.flags = sh.dec.flags) (hfcnt : d.fcnt = sh.dec.fcnt) :
    ({ sh with dec := d, count := sh.count + 1, mismatch := sh.mismatch || (x[sh.count.toNat]? != some b) } : Shadow).At n
      d.ph (tp.emit b) flags k := by
  have hcount : (sh.count + 1#33).toNat = tp.count + 1 := by
    rw [← h.count]
    exact toNat_succ_of_lt (y := sh.p) (by rw [h.count, h.wanted]; exact hlt)
  refine ⟨hst, h.wanted, ?_, rfl, ?_, hflags.trans h.flags, by rw [hfcnt]; exact h.left⟩
  · rw [h.count, hb, h.agrees, bne_self_eq_false, Bool.or_false]
  · have hring' : tp.ring = sh.dec.ring := by rw [← h.tape]; rfl
    have hcur' : tp.rcur = sh.dec.rcur := by rw [← h.tape]; rfl
    unfold Shadow.tape Tape.emit
    rw [hring', hcur', ← hcount, hring, hcur]
    rfl

/-! ## Operations -/

/-- LIT (R125). -/
theorem Shadow.At.lit (h : sh.At n .lit tp flags k) (hlt : tp.count < n) {b : Byte} (hb : x[tp.count]? = some b)
    (ws : List Byte) : ∃ sh', Shadow.Leads x (sh, mask b :: ws) (sh', ws) ∧ sh'.At n .guard (tp.emit b) flags k := by
  refine ⟨_, .fetch h.st (by rw [h.ph]; rfl) (mask b) ws, ?_⟩
  rw [consume_lit (sh := sh.withByte) h.st h.ph, mask_mask]
  exact h.emitted hlt hb h.st rfl rfl rfl rfl

/-- One copied byte (R128). -/
theorem Shadow.At.copyOne (h : sh.At n .copy tp flags k) (hs : sh.Strict) (hlt : tp.count < n)
    (hci : sh.dec.ci.toNat < sh.dec.len.toNat) {b : Byte}
    (hsrc : tp.ring.read (sh.dec.pos + sh.dec.ci.setWidth 12) = b) (hb : x[tp.count]? = some b) (ws : List Byte) :
    ∃ sh', Shadow.Leads x (sh, ws) (sh', ws) ∧ sh'.At n .copy (tp.emit b) flags k ∧ sh'.dec.pos = sh.dec.pos ∧
      sh'.dec.len = sh.dec.len ∧ sh'.dec.ci = sh.dec.ci + 1 := by
  have hsrc' : sh.dec.copySource = b := by rw [← hsrc, ← h.tape]; rfl
  have hne : (sh.dec.ci == sh.dec.len) = false :=
    beq_eq_false_iff_ne.mpr fun heq => by rw [heq] at hci; exact Nat.lt_irrefl _ hci
  have hq : sh.quietStep x = some { sh.emit x sh.dec.copySource with dec := sh.dec.copyByte } := by
    simp only [quietStep, h.st, h.ph, h.not_complete hlt, hne, if_true, if_false, Bool.false_eq_true, Bool.or_false]
    rfl
  refine ⟨_, .quiet hs hq ws, ?_, rfl, rfl, rfl⟩
  rw [← h.ph, hsrc']
  exact h.emitted (d := sh.dec.copyByte) hlt hb h.st (by rw [← hsrc']; rfl) rfl rfl rfl

/-- What is left of a copy: every byte, then the exit (R128). -/
theorem Shadow.At.copyRest {bs rest : List Byte} (h : sh.At n .copy tp flags k) (hs : sh.Strict)
    (hleft : sh.dec.ci.toNat + bs.length = sh.dec.len.toNat)
    (hcopies : tp.Copies (sh.dec.pos + sh.dec.ci.setWidth 12) bs) (hx : x.drop tp.count = bs ++ rest)
    (hroom : tp.count + bs.length ≤ n) (ws : List Byte) :
    ∃ sh', Shadow.Leads x (sh, ws) (sh', ws) ∧ sh'.At n .guard (tp.emitAll bs) flags k := by
  induction bs generalizing sh tp with
  | nil =>
    have heq : (sh.dec.ci == sh.dec.len) = true := beq_iff_eq.mpr (BitVec.eq_of_toNat_eq hleft)
    have hq : sh.quietStep x = some { sh with dec := { sh.dec with ph := .guard } } := by
      simp only [quietStep, h.st, h.ph, heq, if_true, Bool.true_or]
    exact ⟨_, .quiet hs hq ws, h.st, h.wanted, h.agrees, rfl, h.tape, h.flags, h.left⟩
  | cons b bs ih =>
    obtain ⟨hsrc, hcopies⟩ := hcopies
    rw [List.length_cons] at hleft hroom
    obtain ⟨hci18, hlen⟩ := hs.copy h.ph
    have hb : x[tp.count]? = some b := by
      rw [← Nat.add_zero tp.count, ← List.getElem?_drop, hx]
      rfl
    obtain ⟨sh₁, hlead, h₁, hpos, hlen₁, hci₁⟩ := h.copyOne hs (by omega) (by omega) hsrc hb ws
    have hsucc : sh₁.dec.ci.toNat = sh.dec.ci.toNat + 1 := by
      rw [hci₁]
      exact toNat_add_one_of_le 17 (by omega) (by decide)
    have hs₁ : sh₁.Strict := by
      refine ⟨fun _ => by rw [hsucc, hlen₁]; omega, fun _ h0 => ?_⟩
      rw [h0] at hsucc
      cases hsucc
    have hnext : sh₁.dec.pos + sh₁.dec.ci.setWidth 12 = sh.dec.pos + sh.dec.ci.setWidth 12 + 1 := by
      have hwide : sh₁.dec.ci.setWidth 12 = sh.dec.ci.setWidth 12 + 1#12 := by bv_omega
      rw [hwide, hpos, ← BitVec.add_assoc]
      rfl
    have hdrop : x.drop (tp.emit b).count = bs ++ rest := by
      rw [Tape.emit_count, ← List.drop_drop, hx]
      rfl
    obtain ⟨sh₂, hlead', h₂⟩ := ih h₁ hs₁ (by rw [hsucc, hlen₁]; omega) (by rw [hnext]; exact hcopies) hdrop
      (by rw [Tape.emit_count]; omega)
    exact ⟨sh₂, hlead.trans hlead', h₂⟩

/-- The first byte of a REF (R127). -/
theorem Shadow.At.latchU (h : sh.At n .refU tp flags k) (u : Byte) (ws : List Byte) :
    ∃ sh', Shadow.Leads x (sh, mask u :: ws) (sh', ws) ∧ sh'.At n .refL tp flags k ∧ sh'.dec.u = u := by
  refine ⟨_, .fetch h.st (by rw [h.ph]; rfl) (mask u) ws, ?_⟩
  rw [consume_refU (sh := sh.withByte) h.st h.ph, mask_mask]
  exact ⟨⟨h.st, h.wanted, h.agrees, rfl, h.tape, h.flags, h.left⟩, rfl⟩

/-- The second byte of a REF; the copy starts (R127). -/
theorem Shadow.At.latchL (h : sh.At n .refL tp flags k) (l : Byte) (ws : List Byte) :
    ∃ sh', Shadow.Leads x (sh, mask l :: ws) (sh', ws) ∧ sh'.At n .copy tp flags k ∧ sh'.dec.ci = 0 ∧
      sh'.dec.len = refLength sh.dec.u ∧ sh'.dec.pos = refPosition sh.dec.u l := by
  refine ⟨_, .fetch h.st (by rw [h.ph]; rfl) (mask l) ws, ?_⟩
  rw [consume_refL (sh := sh.withByte) h.st h.ph, mask_mask]
  exact ⟨⟨h.st, h.wanted, h.agrees, rfl, h.tape, h.flags, h.left⟩, rfl, rfl, rfl⟩

/-- REF (R127, R128). -/
theorem Shadow.At.ref {position : RingAddr} {length : BitVec 5} {bs rest : List Byte} (h : sh.At n .refU tp flags k)
    (hemits : tp.Emits (.ref position length) bs) (hx : x.drop tp.count = bs ++ rest) (hroom : tp.count + bs.length ≤ n)
    (ws : List Byte) :
    ∃ sh', Shadow.Leads x (sh, mask (refU position length) :: mask (refL position) :: ws) (sh', ws) ∧
      sh'.At n .guard (tp.emitAll bs) flags k := by
  obtain _ | ⟨h3, h18, haway, hcovers, hcopies⟩ := hemits
  obtain ⟨sh₁, hlead₁, h₁, hu⟩ := h.latchU (x := x) (refU position length) (mask (refL position) :: ws)
  obtain ⟨sh₂, hlead₂, h₂, hci, hlen, hpos⟩ := h₁.latchL (x := x) (refL position) ws
  rw [hu, refLength_refU position h3 h18] at hlen
  rw [hu, refPosition_refU_refL position h3 h18] at hpos
  have hcur : sh₂.dec.rcur = tp.rcur := congrArg Tape.rcur h₂.tape
  have hs₂ : sh₂.Strict := by
    refine ⟨fun _ => ⟨by rw [hci]; exact Nat.zero_le _, by rw [hlen]; exact h18⟩, fun _ _ => ⟨?_, ?_⟩⟩
    · rw [hcur, hpos]; exact haway
    · rw [h₂.count, h₂.wanted, hlen, ← hcovers]; exact hroom
  have hfrom : sh₂.dec.pos + sh₂.dec.ci.setWidth 12 = position := by
    rw [hpos, hci]
    exact BitVec.add_zero _
  obtain ⟨sh₃, hlead₃, h₃⟩ := h₂.copyRest hs₂ (by rw [hci, hlen, hcovers]; exact Nat.zero_add _) (by rw [hfrom]; exact hcopies)
    hx hroom ws
  exact ⟨sh₃, hlead₁.trans (hlead₂.trans hlead₃), h₃⟩

/-- An operation of a block, its kind bit at the top of the flag register. -/
theorem Shadow.At.operation {op : Instr} {bs rest : List Byte} (h : sh.At n .bit tp flags (k + 1))
    (hkind : flags.getLsbD 7 = op.isLit) (hemits : tp.Emits op bs) (hx : x.drop tp.count = bs ++ rest)
    (hroom : tp.count + bs.length ≤ n) (ws : List Byte) :
    ∃ sh', Shadow.Leads x (sh, op.operandBytes.map mask ++ ws) (sh', ws) ∧
      sh'.At n .guard (tp.emitAll bs) (rotl8 flags) k := by
  obtain ⟨sh₁, hlead₁, h₁⟩ := h.takeBit (x := x) (op.operandBytes.map mask ++ ws)
  rw [hkind] at h₁
  cases hemits with
  | lit data =>
    have hb : x[tp.count]? = some data := by
      rw [← Nat.add_zero tp.count, ← List.getElem?_drop, hx]
      rfl
    obtain ⟨sh₂, hlead₂, h₂⟩ := Shadow.At.lit h₁ (by simpa using hroom) hb ws
    exact ⟨sh₂, hlead₁.trans hlead₂, h₂⟩
  | ref three eighteen away covers copies =>
    obtain ⟨sh₂, hlead₂, h₂⟩ := Shadow.At.ref h₁ (.ref three eighteen away covers copies) hx hroom ws
    exact ⟨sh₂, hlead₁.trans hlead₂, h₂⟩

/-- The rest of a block, its kind bits in order from the top (R91, R131). -/
theorem Shadow.At.operations {op : Instr} {ops : List Instr} {bs rest : List Byte} (h : sh.At n .bit tp flags k)
    (hk8 : k ≤ 8) (hk : (op :: ops).length ≤ k)
    (hkinds : ∀ j, j < (op :: ops).length → flags.getLsbD (7 - j) = (op :: ops)[j]?.any Instr.isLit)
    (hemits : tp.EmitsAll (op :: ops) bs) (hx : x.drop tp.count = bs ++ rest) (hroom : tp.count + bs.length ≤ n)
    (ws : List Byte) :
    ∃ sh' flags', Shadow.Leads x (sh, ((op :: ops).flatMap Instr.operandBytes).map mask ++ ws) (sh', ws) ∧
      sh'.At n .guard (tp.emitAll bs) flags' (k - (op :: ops).length) := by
  induction ops generalizing op sh tp flags k bs with
  | nil =>
    obtain _ | ⟨head, ⟨⟩⟩ := hemits
    obtain ⟨k, rfl⟩ := Nat.exists_eq_add_of_le' hk
    rw [List.append_nil] at hx hroom ⊢
    obtain ⟨sh₁, hlead, h₁⟩ := h.operation (hkinds 0 (Nat.succ_pos _)) head hx hroom ws
    exact ⟨sh₁, _, by simpa using hlead, h₁⟩
  | cons op' ops ih =>
    obtain _ | ⟨head, tail⟩ := hemits
    rename_i bs cs
    rw [List.length_append] at hroom
    rw [List.length_cons] at hk hkinds
    have hcs : 0 < cs.length := tail.length_pos
    have hops : 0 < (op' :: ops).length := Nat.succ_pos _
    obtain ⟨k, rfl⟩ := Nat.exists_eq_add_of_le' (show 1 ≤ k by omega)
    obtain ⟨sh₁, hlead₁, h₁⟩ := h.operation (rest := cs ++ rest) (hkinds 0 (Nat.succ_pos _)) head
      (by rw [hx, List.append_assoc]) (by omega) (((op' :: ops).flatMap Instr.operandBytes).map mask ++ ws)
    obtain ⟨sh₂, hlead₂, h₂⟩ := h₁.toBit (x := x) (by omega) (by rw [Tape.emitAll_count]; omega)
      (((op' :: ops).flatMap Instr.operandBytes).map mask ++ ws)
    have hkinds' : ∀ j, j < (op' :: ops).length →
        (rotl8 flags).getLsbD (7 - j) = (op' :: ops)[j]?.any Instr.isLit := by
      intro j hj
      rw [rotl8_getLsbD flags (by omega), show (7 - j + 7) % 8 = 7 - (j + 1) by omega]
      exact hkinds (j + 1) (by omega)
    have hdrop : x.drop (tp.emitAll bs).count = cs ++ rest := by
      rw [Tape.emitAll_count, ← List.drop_drop, hx, List.append_assoc, List.drop_left]
    obtain ⟨sh₃, flags', hlead₃, h₃⟩ := ih h₂ (by omega) (by omega) hkinds' tail hdrop (by rw [Tape.emitAll_count]; omega)
    refine ⟨sh₃, flags', ?_, ?_⟩
    · rw [List.flatMap_cons, List.map_append, List.append_assoc]
      exact hlead₁.trans (hlead₂.trans hlead₃)
    · rw [Tape.emitAll_append, List.length_cons, Nat.add_sub_add_right]
      exact h₃

/-! ## Blocks -/

/-- A block with an operation or more, from the GUARD before its flag byte (R90, R123). -/
theorem Shadow.At.block {b : Block} {bs rest : List Byte} (h : sh.At n .guard tp flags 0) (hkinds : b.KindsAgree)
    (hops : b.ops ≠ []) (h8 : b.ops.length ≤ 8) (hemits : tp.EmitsAll b.ops bs) (hx : x.drop tp.count = bs ++ rest)
    (hroom : tp.count + bs.length ≤ n) (ws : List Byte) :
    ∃ sh' flags', Shadow.Leads x (sh, b.wire ++ ws) (sh', ws) ∧
      sh'.At n .guard (tp.emitAll bs) flags' (8 - b.ops.length) := by
  obtain ⟨kinds, ops⟩ := b
  obtain _ | ⟨op, ops⟩ := ops
  · exact absurd rfl hops
  have hbs := hemits.length_pos
  obtain ⟨sh₁, hlead₁, h₁⟩ := h.toFlag (x := x) (by omega) (Block.wire ⟨kinds, op :: ops⟩ ++ ws)
  obtain ⟨sh₂, hlead₂, h₂⟩ := h₁.flagByte (x := x) kinds (((op :: ops).flatMap Instr.operandBytes).map mask ++ ws)
  obtain ⟨sh₃, flags', hlead₃, h₃⟩ := h₂.operations (Nat.le_refl 8) h8 (fun j hj => hkinds j (hj.trans_le h8)) hemits hx hroom ws
  exact ⟨sh₃, flags', hlead₁.trans (hlead₂.trans hlead₃), h₃⟩

/-- Full blocks, one after another. -/
theorem Shadow.At.blocks {blocks : List Block} {bs rest : List Byte} (h : sh.At n .guard tp flags 0)
    (hfull : ∀ b ∈ blocks, b.Full) (hemits : tp.EmitsAll (blocks.flatMap Block.ops) bs) (hx : x.drop tp.count = bs ++ rest)
    (hroom : tp.count + bs.length ≤ n) (ws : List Byte) :
    ∃ sh' flags', Shadow.Leads x (sh, blocks.flatMap Block.wire ++ ws) (sh', ws) ∧
      sh'.At n .guard (tp.emitAll bs) flags' 0 := by
  induction blocks generalizing sh tp flags bs with
  | nil =>
    obtain ⟨⟩ := hemits
    exact ⟨sh, flags, .refl, h⟩
  | cons b blocks ih =>
    obtain ⟨hb, hblocks⟩ := List.forall_mem_cons.mp hfull
    rw [List.flatMap_cons] at hemits
    obtain ⟨bs₁, bs₂, rfl, hemits₁, hemits₂⟩ := Tape.EmitsAll.append_iff.mp hemits
    rw [List.length_append] at hroom
    have hops : b.ops ≠ [] := fun hnil => by
      have height := hb.eight
      rw [hnil] at height
      cases height
    obtain ⟨sh₁, flags₁, hlead₁, h₁⟩ := h.block (rest := bs₂ ++ rest) hb.kinds hops (Nat.le_of_eq hb.eight) hemits₁
      (by rw [hx, List.append_assoc]) (by omega) (blocks.flatMap Block.wire ++ ws)
    rw [hb.eight, Nat.sub_self] at h₁
    have hdrop : x.drop (tp.emitAll bs₁).count = bs₂ ++ rest := by
      rw [Tape.emitAll_count, ← List.drop_drop, hx, List.append_assoc, List.drop_left]
    obtain ⟨sh₂, flags₂, hlead₂, h₂⟩ := ih h₁ hblocks hemits₂ hdrop (by rw [Tape.emitAll_count]; omega)
    refine ⟨sh₂, flags₂, ?_, by rw [Tape.emitAll_append]; exact h₂⟩
    rw [List.flatMap_cons, List.append_assoc]
    exact hlead₁.trans hlead₂

/-- GUARD with every byte wanted emitted (R122). -/
theorem Shadow.At.finish (h : sh.At n .guard tp flags k) (hdone : tp.count = n) :
    ∃ sh', Shadow.Leads x (sh, []) (sh', []) ∧ sh'.dec.st = .done ∧ sh'.mismatch = false ∧ sh'.Strict := by
  have hc : sh.complete = true := beq_iff_eq.mpr (BitVec.eq_of_toNat_eq (by rw [h.count, h.wanted, hdone]))
  have hq : sh.quietStep x = some { sh with dec := { sh.dec with st := .done } } := by
    simp only [quietStep, h.st, h.ph, hc, if_true]
  have hs : sh.dec.ph ≠ .copy := by rw [h.ph]; decide
  exact ⟨_, .quiet (.of_ph hs) hq [], rfl, h.agrees, .of_ph hs⟩

end

/-- The shadow after START is before the first operation (R153). -/
theorem Shadow.init_at (n : BitVec 33) (sh : Shadow) : (Shadow.init n sh).At n.toNat .guard Tape.start 0 0 :=
  ⟨rfl, rfl, rfl, rfl, rfl, rfl, rfl⟩

/-- R151, R181 for the shadow: on an encoding of `x`, started with `P` the length of `x`, it ends in DONE, with no mismatch and
every byte consumed. -/
theorem Shadow.init_leads {x w : List Byte} {n : BitVec 33} (henc : Encodes x w) (hn : n.toNat = x.length)
    (hw : w.length < 2 ^ 40) (sh : Shadow) :
    ∃ sh', Shadow.Leads x (Shadow.init n sh, w) (sh', []) ∧ sh'.dec.st = .done ∧ sh'.mismatch = false ∧ sh'.Strict ∧
      sh'.dec.iptr.toNat = w.length := by
  obtain ⟨blocks, last, hfull, hkinds, h8, hemits, hwire⟩ := henc
  obtain ⟨bs₁, bs₂, hbs, hemits₁, hemits₂⟩ := Tape.EmitsAll.append_iff.mp hemits
  have hlen : bs₁.length + bs₂.length = n.toNat := by rw [hn, hbs, List.length_append]
  have hcount₁ : (Tape.start.emitAll bs₁).count = bs₁.length := by
    rw [Tape.emitAll_count]
    exact Nat.zero_add _
  obtain ⟨sh₁, flags₁, hlead₁, h₁⟩ := (Shadow.init_at n sh).blocks (x := x) (rest := bs₂) hfull hemits₁ hbs
    (by rw [show Tape.start.count = 0 from rfl]; omega) last.flushed
  rw [← hwire] at hlead₁
  -- the last block, if there is one
  have hlast : ∃ sh₂ tp flags k, Shadow.Leads x (sh₁, last.flushed) (sh₂, []) ∧ sh₂.At n.toNat .guard tp flags k ∧
      tp.count = n.toNat := by
    by_cases hops : last.ops = []
    · rw [hops] at hemits₂
      obtain ⟨⟩ := hemits₂
      rw [Block.flushed, if_pos hops]
      exact ⟨sh₁, _, _, _, .refl, h₁, by rw [hcount₁]; exact hlen⟩
    · obtain ⟨sh₂, flags₂, hlead₂, h₂⟩ := h₁.block (x := x) (rest := []) hkinds hops h8 hemits₂
        (by rw [hcount₁, hbs, List.drop_left, List.append_nil]) (by omega) []
      rw [List.append_nil] at hlead₂
      rw [Block.flushed, if_neg hops]
      exact ⟨sh₂, _, _, _, hlead₂, h₂, by rw [Tape.emitAll_count, hcount₁, hlen]⟩
  obtain ⟨sh₂, tp, flags₂, k, hlead₂, h₂, hcount₂⟩ := hlast
  obtain ⟨sh₃, hlead₃, hdone, hagrees, hstrict⟩ := h₂.finish (x := x) hcount₂
  have hlead := hlead₁.trans (hlead₂.trans hlead₃)
  have hiptr := (hlead.counts (by simpa [Shadow.init, Dec.init] using hw)).2
  refine ⟨sh₃, hlead, hdone, hagrees, hstrict, ?_⟩
  simpa [Shadow.init, Dec.init] using hiptr

/-- What the self-check sees at FLUSH (R182): it passes. -/
theorem Shadow.finish_of_encodes {x w : List Byte} {n : BitVec 33} (henc : Encodes x w) (hn : n.toNat = x.length)
    (hw : w.length < 2 ^ 40) (sh : Shadow) :
    (((Shadow.init n sh).feedAll x w).finish x).mismatch = false ∧
    (((Shadow.init n sh).feedAll x w).finish x).dec.st = .done ∧
    (((Shadow.init n sh).feedAll x w).finish x).dec.iptr.toNat = w.length := by
  obtain ⟨sh', hlead, hdone, hagrees, -, hiptr⟩ := Shadow.init_leads henc hn hw sh
  have hquiet : sh'.quietStep x = none := quietStep_none (.inl (by rw [hdone]; decide))
  have hfin : ((Shadow.init n sh).feedAll x w).finish x = sh' := hlead.fedAll_eq.trans (settled_of_none hquiet)
  rw [hfin]
  exact ⟨hagrees, hdone, hiptr⟩

end Sys2Proof.Machine
end

section
/-! SUPPORT. What a run of ENC has written and queued (R59, R167 to R173): blocks of operations that emit the input covered, on the
ring and cursor of ENC. -/

namespace Sys2Proof.Machine

/-! ## The queue (R37, R169) -/

/-- The block that ENC has under construction, with the operations `ops` (R169). -/
def Enc.pending (e : Enc) (ops : List Instr) : Block := ⟨e.qflag, ops⟩

/-- The queue of ENC holds the operations `ops`: their number, their kind bits and their bytes. -/
structure Enc.Queues (e : Enc) (ops : List Instr) : Prop where
  count : ops.length = e.qn.toNat
  kinds : (e.pending ops).KindsAgree
  bytes : e.qb.toList.take e.qbn.toNat = ops.flatMap Instr.operandBytes

/-- The block that PACK or FLUSH writes (R170, R173). -/
theorem Enc.Queues.blockWire {e : Enc} {ops : List Instr} (h : e.Queues ops) :
    e.blockWire = (e.pending ops).wire := by
  rw [Enc.blockWire, h.bytes]
  rfl

/-- No operation is pending: no kind bit is set, and no byte is in use. -/
theorem Enc.Queues.empty {e : Enc} (hqn : e.qn = 0) (hflag : e.qflag = 0) (hqbn : e.qbn = 0) : e.Queues [] := by
  refine ⟨by rw [hqn]; rfl, fun j hj => ?_, by rw [hqbn]; rfl⟩
  rw [Enc.pending, hflag]
  exact BitVec.getLsbD_zero

/-- `QFLAG | (1 << (7 - QN))` sets the kind bit of the operation that follows (R169). -/
theorem setKindBit_getLsbD (qflag : Byte) {qn : BitVec 4} (hq : qn.toNat ≤ 7) {j : Nat} (hj : j < 8) :
    (setKindBit qflag qn).getLsbD (7 - j) = (qflag.getLsbD (7 - j) || decide (j = qn.toNat)) := by
  have hbit : ∀ q, q < 8 → ∀ i, i < 8 → (1#8 <<< (7 - q)).getLsbD (7 - i) = decide (i = q) := by decide
  rw [setKindBit, BitVec.getLsbD_or, hbit _ (Nat.lt_succ_of_le hq) j hj]

/-- One more operation behind the pending ones, its kind bit set if it is a LIT (R91, R169). -/
theorem Block.KindsAgree.push {qflag : Byte} {qn : BitVec 4} {ops : List Instr} (h : Block.KindsAgree ⟨qflag, ops⟩)
    (hlen : ops.length = qn.toNat) (hq : qn.toNat ≤ 7) (op : Instr) :
    Block.KindsAgree ⟨if op.isLit then setKindBit qflag qn else qflag, ops ++ [op]⟩ := by
  intro j hj
  have hj' := h j hj
  dsimp only at hj' ⊢
  have hnew : (ops ++ [op])[j]?.any Instr.isLit = (ops[j]?.any Instr.isLit || (decide (j = qn.toNat) && op.isLit)) := by
    rw [← hlen, List.getElem?_append]
    rcases Nat.lt_trichotomy j ops.length with hlt | heq | hgt
    · simp [hlt, Nat.ne_of_lt hlt]
    · simp [heq]
    · obtain ⟨i, rfl⟩ := Nat.exists_eq_add_of_lt hgt
      simp [Nat.add_assoc]
  rw [hnew, ← hj']
  cases op.isLit
  · simp
  · simp [setKindBit_getLsbD qflag hq hj]

/-- A byte put behind the bytes in use (R167, R168). -/
theorem take_setIfInBounds {q : Vector Byte 16} {k : Nat} (hk : k < 16) (b : Byte) :
    (q.setIfInBounds k b).toList.take (k + 1) = q.toList.take k ++ [b] := by
  have hlen : k < q.toList.length := by rw [Vector.length_toList]; exact hk
  rw [Vector.toList_setIfInBounds, List.take_add_one, List.take_set_of_le (Nat.le_refl k), List.getElem?_set_self hlen]
  rfl

theorem Enc.Queues.commitLit {e : Enc} {ops : List Instr} (h : e.Queues ops) (hq : e.qn.toNat ≤ 7)
    (hqbn : e.qbn.toNat ≤ 14) (b : Byte) : (e.commitLit b).Queues (ops ++ [.lit b]) := by
  rw [Enc.commitLit_frame]
  refine ⟨?_, h.kinds.push h.count hq (.lit b), ?_⟩
  · show (ops ++ [Instr.lit b]).length = (e.qn + 1#4).toNat
    rw [toNat_add_one_of_le 7 hq (by decide), List.length_append, h.count]
    rfl
  · show (e.qb.setIfInBounds e.qbn.toNat b).toList.take (e.qbn + 1#5).toNat = _
    rw [toNat_add_one_of_le 14 hqbn (by decide), take_setIfInBounds (by omega), h.bytes, List.flatMap_append]
    rfl

theorem Enc.Queues.commitRef {e : Enc} {ops : List Instr} (h : e.Queues ops) (hq : e.qn.toNat ≤ 7)
    (hqbn : e.qbn.toNat ≤ 14) (bs : List Byte) : (e.commitRef bs).Queues (ops ++ [.ref e.bpos e.best.len]) := by
  have hqbn₁ : (e.qbn + 1#5).toNat = e.qbn.toNat + 1 := toNat_add_one_of_le 14 hqbn (by decide)
  have hqbn₂ : (e.qbn + 2#5).toNat = e.qbn.toNat + 1 + 1 := by bv_omega
  refine ⟨?_, ?_, ?_⟩
  · rw [Enc.commitRef_frame]
    show (ops ++ [Instr.ref e.bpos e.best.len]).length = (e.qn + 1#4).toNat
    rw [toNat_add_one_of_le 7 hq (by decide), List.length_append, h.count]
    rfl
  · rw [Enc.commitRef_frame]
    exact h.kinds.push h.count hq (.ref e.bpos e.best.len)
  · rw [Enc.commitRef_qb, Enc.commitRef_frame]
    show ((e.qb.setIfInBounds _ _).setIfInBounds (e.qbn + 1#5).toNat _).toList.take (e.qbn + 2#5).toNat = _
    rw [hqbn₁, hqbn₂, take_setIfInBounds (by omega), take_setIfInBounds (by omega), h.bytes, List.flatMap_append,
      List.append_assoc]
    rfl

/-! ## Ring and cursor -/

/-- Ring, cursor and source position of ENC. -/
def Enc.tape (e : Enc) : Tape := ⟨e.ring, e.rcur, e.spos.toNat⟩

theorem Tape.emitAll_wf {tp : Tape} (h : tp.ring.wf) (bs : List Byte) : (tp.emitAll bs).ring.wf := by
  induction bs generalizing tp with
  | nil => exact h
  | cons b bs ih => exact ih (Ring.write_wf h _ _)

/-- `RingWrite` of covered bytes is emission to ring and cursor (R129, R171). -/
theorem Enc.ringWriteAll_eq_emitAll (bs : List Byte) (e : Enc) (k : Nat) :
    (⟨(e.ringWriteAll bs).ring, (e.ringWriteAll bs).rcur, k + bs.length⟩ : Tape) = Tape.emitAll ⟨e.ring, e.rcur, k⟩ bs := by
  induction bs generalizing e k with
  | nil => rfl
  | cons b bs ih =>
    have htail := ih (e.ringWrite b) (k + 1)
    rw [List.length_cons, Nat.add_comm bs.length 1, ← Nat.add_assoc]
    exact htail

theorem Enc.tape_commitLit {e : Enc} (hp : e.ph = .commit) (hr : e.inRange = true) (b : Byte) :
    (e.commitLit b).tape = e.tape.emit b := by
  rw [Enc.tape, (Enc.commitLit_inRange hp hr b).2, Enc.commitLit_frame]
  rfl

theorem Enc.tape_commitRef {e : Enc} (hp : e.ph = .commit) (hk : e.kind = .ref) (hr : e.inRange = true) {bs : List Byte}
    (hbs : bs.length = e.best.len.toNat) : (e.commitRef bs).tape = e.tape.emitAll bs := by
  rw [Enc.tape, (Enc.commitRef_inRange hp hk hr bs).2, ← hbs]
  exact Enc.ringWriteAll_eq_emitAll bs ((e.pushByte (refU e.bpos e.best.len)).pushByte (refL e.bpos)) _

/-! ## What is written, queued and covered -/

/-- ENC has written `blocks` and queues `ops`; together these operations emit the input covered, from the start on, and bring the
tape where ENC's is (R59). -/
structure EncCovers (s : State) (blocks : List Block) (ops : List Instr) : Prop where
  full : ∀ b ∈ blocks, b.Full
  queue : s.enc.Queues ops
  emits : Tape.start.EmitsAll (blocks.flatMap Block.ops ++ ops) (s.inX.take s.enc.spos.toNat)
  tape : s.enc.tape = Tape.start.emitAll (s.inX.take s.enc.spos.toNat)
  length : s.enc.optr.toNat = (blocks.flatMap Block.wire).length
  written : ∀ j, j < s.enc.optr.toNat → s.outY.read j = (blocks.flatMap Block.wire)[j]?

theorem EncCovers.ring_wf {s : State} {blocks : List Block} {ops : List Instr} (h : EncCovers s blocks ops) :
    s.enc.ring.wf := by
  have hring : s.enc.ring = (Tape.start.emitAll (s.inX.take s.enc.spos.toNat)).ring := by rw [← h.tape]; rfl
  rw [hring]
  exact Tape.emitAll_wf Ring.seeded_wf _

/-- One more operation committed, which emits the input it covers (R167, R168). -/
theorem EncCovers.commit {s : State} {blocks : List Block} {ops : List Instr} (h : EncCovers s blocks ops) {e : Enc}
    {op : Instr} {bs : List Byte} (hqueue : e.Queues (ops ++ [op])) (hemits : s.enc.tape.Emits op bs)
    (hbs : s.pixelRest.take bs.length = bs) (hspos : e.spos.toNat = s.enc.spos.toNat + bs.length)
    (htape : e.tape = s.enc.tape.emitAll bs) (hoptr : e.optr = s.enc.optr) :
    EncCovers { s with enc := e } blocks (ops ++ [op]) := by
  have htake : s.inX.take e.spos.toNat = s.inX.take s.enc.spos.toNat ++ bs := by
    rw [hspos, List.take_add, ← State.pixelRest, hbs]
  refine ⟨h.full, hqueue, ?_, ?_, ?_, ?_⟩
  · show Tape.start.EmitsAll _ (s.inX.take e.spos.toNat)
    rw [htake, ← List.append_assoc]
    rw [h.tape] at hemits
    exact h.emits.concat hemits
  · show e.tape = Tape.start.emitAll (s.inX.take e.spos.toNat)
    rw [htake, Tape.emitAll_append, ← h.tape, htape]
  · show e.optr.toNat = _
    rw [hoptr]; exact h.length
  · show ∀ j, j < e.optr.toNat → _
    rw [hoptr]; exact h.written

theorem EncCovers.commitLit {s : State} {blocks : List Block} {ops : List Instr} (h : EncCovers s blocks ops)
    (hrun : EncRuns s .commit) {b : Byte} {rest : List Byte} (hx : s.pixelRest = b :: rest) :
    EncCovers { s with enc := s.enc.commitLit b } blocks (ops ++ [.lit b]) := by
  obtain ⟨-, hp, hr, -⟩ := hrun
  obtain ⟨⟨⟨-, -, hqb2, -⟩, -⟩, hq, -⟩ := (Enc.inRange_commit hp).mp hr
  refine h.commit (bs := [b]) (h.queue.commitLit hq (by omega) b) (.lit b) (by rw [hx]; rfl)
    (Enc.commitLit_inRange hp hr b).2 (Enc.tape_commitLit hp hr b) ?_
  rw [Enc.commitLit_frame]

/-- The candidate registers hold what SEARCH found here (R159). -/
def Enc.HoldsBest (e : Enc) (x : List Byte) : Prop := e.best = e.bestHere x ∧ e.bpos = e.rcur - e.best.dist

/-- The REF of the best candidate emits the input it covers (R157, R181). -/
theorem EncRuns.emits_best {s : State} (hrun : EncRuns s .commit) (hk : s.enc.kind = .ref) (hbest : s.enc.HoldsBest s.inX)
    (hwf : s.enc.ring.wf) :
    s.enc.tape.Emits (.ref s.enc.bpos s.enc.best.len) (s.pixelRest.take s.enc.best.len.toNat) := by
  have hcovers := (encStep_commitRef hrun hk).1
  obtain ⟨hfound, hpos⟩ := hbest
  obtain ⟨-, -, -, hb, hkind⟩ := (Enc.inRange_commit hrun.2.1).mp hrun.2.2.1
  have hv : s.enc.best.valid = true := hkind.resolve_left (by rw [hk]; decide)
  obtain ⟨h3, h18, -⟩ := s.enc.bestInRange_iff.mp hb hv
  have hvalid : (s.enc.bestHere s.inX).valid = true := by rw [← hfound]; exact hv
  obtain ⟨⟨h1, hdepth, -⟩, hlen, -⟩ := (bestCandidateIsNearestOfBestScore s.enc s.enc.ring s.enc.rcur
    (s.inX.drop s.enc.spos.toNat) _ (s.enc.matchLimit_le s.enc.spos.toNat).1).2 hvalid
  have hmatch : s.enc.best.len.toNat ≤ matchLength s.enc.ring s.enc.rcur s.enc.best.dist.toNat s.pixelRest
      (s.enc.matchLimit s.enc.spos.toNat) := by
    rw [hfound]
    exact Nat.le_of_eq hlen
  have hdist : 1 ≤ s.enc.best.dist.toNat ∧ s.enc.best.dist.toNat ≤ 4095 := by
    rw [hfound]
    exact ⟨h1, hdepth.trans (Nat.min_le_right _ _)⟩
  have hemits := Tape.emits_ref_of_match (tp := s.enc.tape) hwf hdist.1 hdist.2 h3 h18 hmatch
    (by rw [List.length_take] at hcovers; omega)
  rw [hpos]
  rwa [BitVec.ofNat_toNat, BitVec.setWidth_eq] at hemits

theorem EncCovers.commitRef {s : State} {blocks : List Block} {ops : List Instr} (h : EncCovers s blocks ops)
    (hrun : EncRuns s .commit) (hk : s.enc.kind = .ref) (hbest : s.enc.HoldsBest s.inX) :
    EncCovers { s with enc := s.enc.commitRef (s.pixelRest.take s.enc.best.len.toNat) } blocks
      (ops ++ [.ref s.enc.bpos s.enc.best.len]) := by
  have hemits := hrun.emits_best hk hbest h.ring_wf
  have hlen := (encStep_commitRef hrun hk).1
  obtain ⟨-, hp, hr, -⟩ := hrun
  obtain ⟨⟨⟨-, -, hqb2, -⟩, -⟩, hq, -⟩ := (Enc.inRange_commit hp).mp hr
  refine h.commit (h.queue.commitRef hq (by omega) _) hemits (by rw [hlen]) ?_ (Enc.tape_commitRef hp hk hr hlen) ?_
  · rw [hlen]; exact (Enc.commitRef_inRange hp hk hr _).2
  · rw [Enc.commitRef_frame]

/-- What block emission has written, byte by byte (R170, R173). -/
theorem EncCovers.writeBlock {s : State} {blocks : List Block} {ops : List Instr} (h : EncCovers s blocks ops)
    (hr : s.enc.inRange = true) :
    (writeBlock s).enc.optr.toNat = ((blocks ++ [s.enc.pending ops]).flatMap Block.wire).length ∧
    ∀ j, j < (writeBlock s).enc.optr.toNat →
      (writeBlock s).outY.read j = ((blocks ++ [s.enc.pending ops]).flatMap Block.wire)[j]? := by
  have hstream : (blocks ++ [s.enc.pending ops]).flatMap Block.wire = blocks.flatMap Block.wire ++ s.enc.blockWire := by
    rw [List.flatMap_append, h.queue.blockWire, List.flatMap_singleton]
  have hoptr : (Machine.writeBlock s).enc.optr.toNat = s.enc.optr.toNat + s.enc.blockWire.length := by
    rw [writeBlock_enc, Enc.toNat_optr_add_blockWire hr]
  rw [hstream, hoptr, List.length_append, h.length]
  refine ⟨rfl, fun j hj => ?_⟩
  rcases Nat.lt_or_ge j (blocks.flatMap Block.wire).length with hlt | hge
  · rw [read_writeBlock_outside s (.inl (by rw [h.length]; exact hlt)), List.getElem?_append_left hlt]
    exact h.written j (by rw [h.length]; exact hlt)
  · obtain ⟨i, rfl⟩ := Nat.exists_eq_add_of_le hge
    rw [List.getElem?_append_right hge, Nat.add_sub_cancel_left, ← h.length]
    exact read_writeBlock_inside s (by omega)

/-- A block of eight operations, packed (R170). -/
theorem EncCovers.pack {s : State} {blocks : List Block} {ops : List Instr} (h : EncCovers s blocks ops)
    (hrun : EncRuns s .pack) : EncCovers (packStep s) (blocks ++ [s.enc.pending ops]) [] := by
  obtain ⟨-, hp, hr, -⟩ := hrun
  obtain ⟨-, h8⟩ := (Enc.inRange_pack hp).mp hr
  obtain ⟨hlength, hwritten⟩ := h.writeBlock hr
  refine ⟨?_, .empty rfl rfl rfl, ?_, h.tape, hlength, hwritten⟩
  · rw [List.forall_mem_append]
    refine ⟨h.full, List.forall_mem_singleton.mpr ⟨h.queue.kinds, ?_⟩⟩
    rw [← h8]
    exact h.queue.count
  · show Tape.start.EmitsAll _ (s.inX.take s.enc.spos.toNat)
    rw [List.append_nil, List.flatMap_append, List.flatMap_singleton]
    exact h.emits

/-! ## FLUSH -/

/-- What is written when FLUSH is done: the blocks, and the partial one (R173). -/
def flushedStream (s : State) (blocks : List Block) (ops : List Instr) : List Byte :=
  blocks.flatMap Block.wire ++ (s.enc.pending ops).flushed

theorem Enc.Queues.nil_iff {e : Enc} {ops : List Instr} (h : e.Queues ops) : ops = [] ↔ e.qn = 0 := by
  rw [← List.length_eq_zero_iff, h.count, ← BitVec.toNat_inj]
  rfl

/-- At FLUSH all of the input is covered: what is written is an encoding of it (R151, R173). -/
theorem EncCovers.encodes {s : State} {blocks : List Block} {ops : List Instr} (h : EncCovers s blocks ops)
    (hrun : EncRuns s .flush) (hwhole : s.inX.length = s.enc.n.toNat) : Encodes s.inX (flushedStream s blocks ops) := by
  obtain ⟨-, hp, hr, -⟩ := hrun
  obtain ⟨-, hq, hs⟩ := (Enc.inRange_flush hp).mp hr
  have hemits := h.emits
  rw [hs, ← hwhole, List.take_length] at hemits
  refine ⟨blocks, s.enc.pending ops, h.full, h.queue.kinds, ?_, hemits, rfl⟩
  have hcount := h.queue.count
  show ops.length ≤ 8
  omega

theorem EncCovers.flushed {s : State} {blocks : List Block} {ops : List Instr} (h : EncCovers s blocks ops)
    (hr : s.enc.inRange = true) :
    s.flushed.enc.optr.toNat = (flushedStream s blocks ops).length ∧
    ∀ j, j < s.flushed.enc.optr.toNat → s.flushed.outY.read j = (flushedStream s blocks ops)[j]? := by
  unfold flushedStream Block.flushed Enc.pending
  by_cases hq : s.enc.qn = 0
  · rw [State.flushed_of_empty hq, if_pos (h.queue.nil_iff.mpr hq), List.append_nil]
    exact ⟨h.length, h.written⟩
  · rw [State.flushed_of_partial hq, if_neg (mt h.queue.nil_iff.mp hq)]
    have hblock := h.writeBlock hr
    rwa [List.flatMap_append, List.flatMap_singleton] at hblock

end Sys2Proof.Machine
end

section
/-! SUPPORT. A run of ENC from START to DONE (R150, R173, R185), with the self-check and without it: it writes an encoding of its
input, and the shadow decoder has no effect on it. -/

namespace Sys2Proof.Machine

/-! ## What holds along the run -/

/-- ENC runs on its whole input, alone, with no fault so far: the candidate registers are those of this position where they are
used, and the shadow decoder, `start` at the start of the run, has been fed what is written. -/
structure EncRun (start : Option Shadow) (blocks : List Block) (ops : List Instr) (s : State) : Prop where
  runs : EncRuns s s.enc.ph
  whole : s.inX.length = s.enc.n.toNat
  noFault : s.enc.err = .none
  best : s.enc.ph = .select ∨ s.enc.ph = .commit → s.enc.HoldsBest s.inX
  covers : EncCovers s blocks ops
  shadow : s.enc.shadow = start.map (Shadow.feedAll s.inX (blocks.flatMap Block.wire))

/-- The steps a run still takes, at most (R185): four or five for each byte to be covered, and the last GUARD and FLUSH. -/
def Enc.stepsLeft (e : Enc) : Nat :=
  5 * (e.n.toNat - e.spos.toNat) +
  match e.ph with
  | .guard => 3
  | .search => 2
  | .select => 1
  | .commit => 0
  | .pack => 4
  | .flush => 2

/-- The block with an engine that has no self-check (log entry 8). -/
def State.withoutShadow (s : State) : State := { s with enc := { s.enc with shadow := none } }

/-- A phase that is not FLUSH: what it leads to holds of the run too, with fewer steps left, and the shadow has no part in it. -/
structure EncGoesOn (start : Option Shadow) (s t : State) : Prop where
  noFault : t.enc.err = s.enc.err
  best : t.enc.ph = .select ∨ t.enc.ph = .commit → t.enc.HoldsBest s.inX
  covers : ∃ blocks ops, EncCovers t blocks ops ∧
    t.enc.shadow = start.map (Shadow.feedAll s.inX (blocks.flatMap Block.wire))
  less : t.enc.stepsLeft < s.enc.stepsLeft
  alone : encRunPhase s.withoutShadow = .next t.withoutShadow

/-- The queue, said of the three registers it is in. -/
theorem Enc.Queues.of_eq {e e' : Enc} {ops : List Instr} (h : e.Queues ops) (hqn : e'.qn = e.qn) (hflag : e'.qflag = e.qflag)
    (hqbn : e'.qbn = e.qbn) (hqb : e'.qb = e.qb) : e'.Queues ops := by
  refine ⟨by rw [hqn]; exact h.count, ?_, by rw [hqb, hqbn]; exact h.bytes⟩
  rw [Enc.pending, hflag]
  exact h.kinds

theorem EncCovers.withEnc {s : State} {blocks : List Block} {ops : List Instr} (h : EncCovers s blocks ops) {e : Enc}
    (hqueue : e.Queues ops) (htape : e.tape = s.enc.tape) (hoptr : e.optr = s.enc.optr) :
    EncCovers { s with enc := e } blocks ops := by
  have hspos : e.spos.toNat = s.enc.spos.toNat := congrArg Tape.count htape
  refine ⟨h.full, hqueue, ?_, ?_, ?_, ?_⟩
  · show Tape.start.EmitsAll _ (s.inX.take e.spos.toNat)
    rw [hspos]; exact h.emits
  · show e.tape = Tape.start.emitAll (s.inX.take e.spos.toNat)
    rw [hspos, htape]; exact h.tape
  · show e.optr.toNat = _
    rw [hoptr]; exact h.length
  · show ∀ j, j < e.optr.toNat → _
    rw [hoptr]; exact h.written

section
variable {start : Option Shadow} {blocks : List Block} {ops : List Instr} {s : State}

/-- The two branches of GUARD (R154). -/
theorem Enc.guardStep_cases (e : Enc) :
    (e.spos = e.n ∧ e.guardStep = { e with ph := .flush }) ∨ (e.spos ≠ e.n ∧ e.guardStep = { e with ph := .search }) := by
  unfold Enc.guardStep
  by_cases hs : e.spos = e.n
  · exact .inl ⟨hs, if_pos hs⟩
  · exact .inr ⟨hs, if_neg hs⟩

theorem EncRun.guard (h : EncRun start blocks ops s) (hp : s.enc.ph = .guard) :
    EncGoesOn start s { s with enc := s.enc.guardStep } := by
  have halone : encRunPhase s.withoutShadow = .next { s.withoutShadow with enc := s.withoutShadow.enc.guardStep } := by
    have hp' : s.withoutShadow.enc.ph = .guard := hp
    simp only [encRunPhase, hp']
  rcases s.enc.guardStep_cases with ⟨hs, heq⟩ | ⟨hs, heq⟩
  · have heq' : s.withoutShadow.enc.guardStep = { s.withoutShadow.enc with ph := .flush } := if_pos hs
    rw [heq]
    refine ⟨rfl, (by rintro (hph | hph) <;> cases hph), ⟨blocks, ops, h.covers.withEnc (h.covers.queue.of_eq rfl rfl rfl rfl) rfl rfl, h.shadow⟩, ?_, ?_⟩
    · simp [Enc.stepsLeft, hp]
    · rw [halone, heq']
      rfl
  · have heq' : s.withoutShadow.enc.guardStep = { s.withoutShadow.enc with ph := .search } := if_neg hs
    rw [heq]
    refine ⟨rfl, (by rintro (hph | hph) <;> cases hph), ⟨blocks, ops, h.covers.withEnc (h.covers.queue.of_eq rfl rfl rfl rfl) rfl rfl, h.shadow⟩, ?_, ?_⟩
    · simp [Enc.stepsLeft, hp]
    · rw [halone, heq']
      rfl

theorem EncRun.search (h : EncRun start blocks ops s) (hp : s.enc.ph = .search) :
    EncGoesOn start s { s with enc := s.enc.searchStep s.inX } := by
  have hp' : s.withoutShadow.enc.ph = .search := hp
  refine ⟨rfl, fun _ => ⟨rfl, rfl⟩, ⟨blocks, ops, h.covers.withEnc (h.covers.queue.of_eq rfl rfl rfl rfl) rfl rfl, h.shadow⟩, ?_, ?_⟩
  · simp [Enc.stepsLeft, hp, Enc.searchStep]
  · simp only [encRunPhase, hp']
    rfl

theorem EncRun.select (h : EncRun start blocks ops s) (hp : s.enc.ph = .select) :
    EncGoesOn start s { s with enc := s.enc.selectStep } := by
  have hp' : s.withoutShadow.enc.ph = .select := hp
  refine ⟨rfl, fun _ => h.best (.inl hp), ⟨blocks, ops, h.covers.withEnc (h.covers.queue.of_eq rfl rfl rfl rfl) rfl rfl, h.shadow⟩, ?_, ?_⟩
  · simp [Enc.stepsLeft, hp, Enc.selectStep]
  · simp only [encRunPhase, hp']
    rfl

/-- A commit pays for the steps up to the next one. -/
theorem Enc.stepsLeft_lt_of_commit {e e' : Enc} (hp : e.ph = .commit) (hn : e'.n = e.n) {l : Nat} (hl : 1 ≤ l)
    (hspos : e'.spos.toNat = e.spos.toNat + l) (hle : e.spos.toNat < e.n.toNat)
    (hph : e'.ph = .pack ∨ e'.ph = .guard) : e'.stepsLeft < e.stepsLeft := by
  have hless : e'.stepsLeft ≤ 5 * (e.n.toNat - (e.spos.toNat + l)) + 4 := by
    rcases hph with hph | hph <;> simp only [Enc.stepsLeft, hph, hn, hspos] <;> omega
  have hmore : e.stepsLeft = 5 * (e.n.toNat - e.spos.toNat) := by simp only [Enc.stepsLeft, hp, Nat.add_zero]
  omega

theorem EncRun.commitLit (h : EncRun start blocks ops s) (hp : s.enc.ph = .commit) (hk : s.enc.kind = .lit) {b : Byte}
    {rest : List Byte} (hx : s.pixelRest = b :: rest) : EncGoesOn start s { s with enc := s.enc.commitLit b } := by
  have hrun : EncRuns s .commit := hp ▸ h.runs
  have hr := h.runs.2.2.1
  have hframe := Enc.commitLit_frame b s.enc
  have hph : (s.enc.commitLit b).ph = .pack ∨ (s.enc.commitLit b).ph = .guard := by
    rw [hframe]
    by_cases h7 : s.enc.qn = 7
    · exact .inl (if_pos h7)
    · exact .inr (if_neg h7)
  refine ⟨by rw [hframe], fun hsel => ?_, ⟨blocks, _, h.covers.commitLit hrun hx, by rw [hframe]; exact h.shadow⟩, ?_, ?_⟩
  · rcases hph with hph | hph <;> simp [hph] at hsel
  · exact Enc.stepsLeft_lt_of_commit hp (by rw [hframe]) (Nat.le_refl 1) (Enc.commitLit_inRange hp hr b).2
      ((Enc.inRange_commit hp).mp hr).2.2.1 hph
  · have hp' : s.withoutShadow.enc.ph = .commit := hp
    have hk' : s.withoutShadow.enc.kind = .lit := hk
    have hx' : s.withoutShadow.pixelRest = b :: rest := hx
    simp only [encRunPhase, hp', commitStep, hk', hx']
    rfl

/-- A commit of a REF does not look at the shadow. -/
theorem Enc.commitRef_withoutShadow (bs : List Byte) (e : Enc) :
    ({ e with shadow := none } : Enc).commitRef bs = { e.commitRef bs with shadow := none } := by
  have hring : (({ e with shadow := none } : Enc).commitRef bs).ring = (e.commitRef bs).ring := by
    have h₁ := Enc.ringWriteAll_eq_emitAll bs ((e.pushByte (refU e.bpos e.best.len)).pushByte (refL e.bpos)) 0
    have h₂ := Enc.ringWriteAll_eq_emitAll bs
      ((({ e with shadow := none } : Enc).pushByte (refU e.bpos e.best.len)).pushByte (refL e.bpos)) 0
    exact congrArg Tape.ring (h₂.trans h₁.symm)
  rw [Enc.commitRef_frame bs e, Enc.commitRef_frame, hring, Enc.commitRef_qb, Enc.commitRef_qb]

theorem EncRun.commitRef (h : EncRun start blocks ops s) (hp : s.enc.ph = .commit) (hk : s.enc.kind = .ref) :
    EncGoesOn start s { s with enc := s.enc.commitRef (s.pixelRest.take s.enc.best.len.toNat) } := by
  have hrun : EncRuns s .commit := hp ▸ h.runs
  have hr := h.runs.2.2.1
  have hframe := Enc.commitRef_frame (s.pixelRest.take s.enc.best.len.toNat) s.enc
  have hlen := (encStep_commitRef hrun hk).1
  obtain ⟨h3, hle⟩ := Enc.commitRef_len hp hk hr
  have hph : (s.enc.commitRef (s.pixelRest.take s.enc.best.len.toNat)).ph = .pack ∨
      (s.enc.commitRef (s.pixelRest.take s.enc.best.len.toNat)).ph = .guard := by
    rw [hframe]
    by_cases h7 : s.enc.qn = 7
    · exact .inl (if_pos h7)
    · exact .inr (if_neg h7)
  refine ⟨by rw [hframe], fun hsel => ?_,
    ⟨blocks, _, h.covers.commitRef hrun hk (h.best (.inr hp)), by rw [hframe]; exact h.shadow⟩, ?_, ?_⟩
  · rcases hph with hph | hph <;> simp [hph] at hsel
  · exact Enc.stepsLeft_lt_of_commit hp (by rw [hframe]) (by omega) (Enc.commitRef_inRange hp hk hr _).2 (by omega) hph
  · have hp' : s.withoutShadow.enc.ph = .commit := hp
    have hk' : s.withoutShadow.enc.kind = .ref := hk
    have hrest : ¬ s.withoutShadow.pixelRest.length < s.withoutShadow.enc.best.len.toNat := by
      rw [List.length_take] at hlen
      show ¬ s.pixelRest.length < s.enc.best.len.toNat
      omega
    simp only [encRunPhase, hp', commitStep, hk', if_neg hrest]
    exact congrArg (fun e : Enc => Host.Outcome.next { s with enc := e }) (Enc.commitRef_withoutShadow _ s.enc)

theorem EncRun.pack (h : EncRun start blocks ops s) (hp : s.enc.ph = .pack) : EncGoesOn start s (packStep s) := by
  have hrun : EncRuns s .pack := hp ▸ h.runs
  have hp' : s.withoutShadow.enc.ph = .pack := hp
  refine ⟨rfl, (by rintro (hph | hph) <;> cases hph), ⟨_, [], h.covers.pack hrun, ?_⟩, ?_, ?_⟩
  · show s.enc.shadow.map (Shadow.feedAll s.inX s.enc.blockWire) = _
    rw [h.shadow, Option.map_map, List.flatMap_append, List.flatMap_singleton, h.covers.queue.blockWire]
    refine congrArg (start.map ·) (funext fun sh => ?_)
    exact (List.foldl_append).symm
  · show (packStep s).enc.stepsLeft < s.enc.stepsLeft
    have hph : (packStep s).enc.ph = .guard := rfl
    simp only [Enc.stepsLeft, hp, hph]
    exact Nat.lt_succ_self _
  · simp only [encRunPhase, hp']
    rfl

/-- A phase step of the run: it goes on, or it is FLUSH. -/
theorem EncRun.phase (h : EncRun start blocks ops s) {t : State} (ht : encRunPhase s = .next t) :
    (EncGoesOn start s t ∧ t.enc.st = .run) ∨ (s.enc.ph = .flush ∧ t = flushStep s) := by
  rcases encRunPhase_run_or_flush h.runs.1 ht with hst | hflush
  · refine Or.imp_left (⟨·, hst⟩) ?_
    rcases encRunPhase_next ht with ⟨hp, rfl⟩ | ⟨hp, rfl⟩ | ⟨hp, rfl⟩ | ⟨hp, hk, b, rest, hx, rfl⟩ | ⟨hp, hk, -, rfl⟩ |
      ⟨hp, rfl⟩ | hflush
    · exact .inl (h.guard hp)
    · exact .inl (h.search hp)
    · exact .inl (h.select hp)
    · exact .inl (h.commitLit hp hk hx)
    · exact .inl (h.commitRef hp hk)
    · exact .inl (h.pack hp)
    · exact .inr hflush
  · exact .inr hflush

/-- Every phase of the run has a next state: a commit has the input it covers. -/
theorem EncRun.moves (h : EncRun start blocks ops s) : ∃ t, encRunPhase s = .next t := by
  have hstep := encStep_of_encRuns h.runs
  cases hp : s.enc.ph with
  | guard => exact ⟨_, hstep.symm.trans (EncRuns.guard (hp ▸ h.runs))⟩
  | search => exact ⟨_, hstep.symm.trans (EncRuns.search (hp ▸ h.runs))⟩
  | select => exact ⟨_, hstep.symm.trans (EncRuns.select (hp ▸ h.runs))⟩
  | commit =>
    have hrun : EncRuns s .commit := hp ▸ h.runs
    cases hk : s.enc.kind with
    | lit =>
      obtain ⟨b, rest, -, hx⟩ := hrun.pixelRest
      exact ⟨_, hstep.symm.trans (hrun.commitLit hk hx)⟩
    | ref => exact ⟨_, hstep.symm.trans (encStep_commitRef hrun hk).2⟩
  | pack => exact ⟨_, hstep.symm.trans (EncRuns.pack (hp ▸ h.runs))⟩
  | flush => exact ⟨_, hstep.symm.trans (EncRuns.flush (hp ▸ h.runs))⟩

/-- What a phase that is not FLUSH leads to is the run, further on. -/
theorem EncRun.next (h : EncRun start blocks ops s) {t : State} (ht : encRunPhase s = .next t) (hgo : EncGoesOn start s t)
    (hst : t.enc.st = .run) : ∃ blocks ops, EncRun start blocks ops t := by
  obtain ⟨-, -, hr, hx⟩ := h.runs
  have hX : t.inX = s.inX := by rw [encRunPhase_frame ht]
  have hn : t.enc.n = s.enc.n := (encRunPhase_parameters ht).1
  have hrange : t.enc.inRange = true := (encRunPhase_inRange hr ht).2.2.resolve_right (by rw [hst]; decide)
  obtain ⟨blocks', ops', hcovers, hshadow⟩ := hgo.covers
  exact ⟨blocks', ops', ⟨hst, rfl, hrange, by rw [hX, hn]; exact hx⟩, by rw [hX, hn]; exact h.whole,
    hgo.noFault.trans h.noFault, by rw [hX]; exact hgo.best, hcovers, by rw [hX]; exact hshadow⟩

end

end Sys2Proof.Machine
end

section
/-! SUPPORT. How a run of ENC ends (R173, R182), and `enc(X, cfg)` as a run from START on (R150, R247): it reaches DONE, with an
encoding of the input in `Y`, the same with the self-check and without it. -/

namespace Sys2Proof.Machine

/-! ## The end -/

/-- What the host takes is what `Y` holds. -/
theorem pixelsUpTo_eq_some {o : Memory} {w : List Byte} (h : ∀ j, j < w.length → o.read j = w[j]?) :
    pixelsUpTo o w.length = some w := by
  have upTo : ∀ k, k ≤ w.length → pixelsUpTo o k = some (w.take k) := by
    intro k hk
    induction k with
    | zero => rfl
    | succ k ih =>
      rw [pixelsUpTo_succ, ih (Nat.le_of_succ_le hk), h k hk, List.getElem?_eq_getElem hk, List.take_add_one,
        List.getElem?_eq_getElem hk]
      rfl
  rw [upTo _ (Nat.le_refl _), List.take_length]

/-- ENC is done: no fault, and the host takes `w`, an encoding of the input. -/
structure EncEnded (t : State) (w : List Byte) : Prop where
  st : t.enc.st = .done
  noFault : t.enc.err = .none
  size : w.length < 2 ^ 40
  encodes : Encodes t.inX w
  outcome : encOutcome t = some w

theorem EncEnded.withoutShadow {t : State} {w : List Byte} (h : EncEnded t w) : EncEnded t.withoutShadow w :=
  ⟨h.st, h.noFault, h.size, h.encodes, h.outcome⟩

theorem State.flushed_withoutShadow (s : State) : s.withoutShadow.flushed = s.flushed.withoutShadow := by
  by_cases hq : s.enc.qn = 0
  · rw [State.flushed_of_empty hq, State.flushed_of_empty (s := s.withoutShadow) hq]
  · rw [State.flushed_of_partial hq, State.flushed_of_partial (s := s.withoutShadow) hq]
    rfl

/-- A FLUSH that passes does what FLUSH does without the self-check (R182). -/
theorem flushStep_withoutShadow {s : State} (h : selfCheckPasses s.flushed = true) :
    flushStep s.withoutShadow = (flushStep s).withoutShadow := by
  have hpass : selfCheckPasses s.withoutShadow.flushed = true := by
    rw [State.flushed_withoutShadow]
    exact selfCheckPasses_none rfl
  rw [flushStep_of_passes h, flushStep_of_passes hpass, State.flushed_withoutShadow]
  rfl

theorem State.flushed_enc_err (s : State) : s.flushed.enc.err = s.enc.err := by
  unfold State.flushed
  split <;> rfl

section
variable {sh? : Option Shadow} {n : BitVec 33} {blocks : List Block} {ops : List Instr} {s : State}

/-- At FLUSH the shadow has been fed all that is written. -/
theorem EncRun.flushed_shadow {start : Option Shadow} (h : EncRun start blocks ops s) :
    s.flushed.enc.shadow = start.map (Shadow.feedAll s.inX (flushedStream s blocks ops)) := by
  have hqueue := h.covers.queue
  unfold flushedStream Block.flushed Enc.pending
  by_cases hq : s.enc.qn = 0
  · rw [State.flushed_of_empty hq, if_pos (hqueue.nil_iff.mpr hq), List.append_nil]
    exact h.shadow
  · rw [State.flushed_of_partial hq, if_neg (mt hqueue.nil_iff.mp hq)]
    show s.enc.shadow.map (Shadow.feedAll s.inX s.enc.blockWire) = _
    rw [h.shadow, Option.map_map, hqueue.blockWire]
    exact congrArg (start.map ·) (funext fun sh => (List.foldl_append).symm)

/-- R151, R182: FLUSH passes the self-check, and ends the run. -/
theorem EncRun.flush (h : EncRun (sh?.map (Shadow.init n)) blocks ops s) (hn : n.toNat = s.inX.length)
    (hp : s.enc.ph = .flush) :
    EncEnded (flushStep s) (flushedStream s blocks ops) ∧ flushStep s.withoutShadow = (flushStep s).withoutShadow := by
  have hencodes := h.covers.encodes (hp ▸ h.runs) h.whole
  obtain ⟨hlength, hwritten⟩ := h.covers.flushed h.runs.2.2.1
  have hsize : (flushedStream s blocks ops).length < 2 ^ 40 := by
    rw [← hlength]
    exact s.flushed.enc.optr.isLt.trans (by decide)
  have hshadow := h.flushed_shadow
  have hpass : selfCheckPasses s.flushed = true := by
    cases sh? with
    | none => exact selfCheckPasses_none hshadow
    | some sh =>
      rw [selfCheckPasses_flushed hshadow, hlength]
      exact Shadow.finish_of_encodes hencodes hn hsize sh
  refine ⟨?_, flushStep_withoutShadow hpass⟩
  rw [flushStep_of_passes hpass]
  refine ⟨rfl, s.flushed_enc_err.trans h.noFault, hsize, ?_, ?_⟩
  · show Encodes s.flushed.inX _
    rw [State.flushed_inX]
    exact hencodes
  · show pixelsUpTo s.flushed.outY s.flushed.enc.optr.toNat = _
    rw [hlength]
    exact pixelsUpTo_eq_some (hlength ▸ hwritten)

/-- R185: the run ends within the steps it has left; with the shadow erased it takes the same steps. -/
theorem EncRun.ends (h : EncRun (sh?.map (Shadow.init n)) blocks ops s) (hn : n.toNat = s.inX.length) (ha : s.agenda = [])
    (hd : s.dec.st.stopped = true) :
    ∃ k t w, k + 1 ≤ s.enc.stepsLeft ∧ stateAfter k s = some t ∧ stateAfter k s.withoutShadow = some t.withoutShadow ∧
      t = { s with enc := t.enc, outY := t.outY, draws := t.draws } ∧ EncEnded t w := by
  induction hleft : s.enc.stepsLeft using Nat.strong_induction_on generalizing s blocks ops with
  | _ m ih =>
    subst hleft
    obtain ⟨t, ht⟩ := h.moves
    have hframe := encRunPhase_frame ht
    have hstep : step s = .next t := by rw [step_of_decStopped ha hd, encStep_of_encRuns h.runs, ht]
    have halone : step s.withoutShadow = encRunPhase s.withoutShadow := by
      rw [step_of_decStopped (s := s.withoutShadow) ha hd]
      exact encStep_of_encRuns (ph := s.enc.ph) h.runs
    rcases h.phase ht with ⟨hgo, hst⟩ | ⟨hp, rfl⟩
    · obtain ⟨blocks', ops', hnext⟩ := h.next ht hgo hst
      obtain ⟨k, u, w, hk, hu, hu', hframe', hend⟩ := ih _ hgo.less hnext (by rw [hframe]; exact hn) (by rw [hframe]; exact ha)
        (by rw [hframe]; exact hd) rfl
      have hless := hgo.less
      refine ⟨k + 1, u, w, by omega, (stateAfter_succ hstep k).trans hu,
        (stateAfter_succ (halone.trans hgo.alone) k).trans hu', ?_, hend⟩
      rw [hframe', hframe]
    · obtain ⟨hend, hsame⟩ := h.flush hn hp
      have hstep' : step s.withoutShadow = .next (flushStep s).withoutShadow := by
        have hp' : s.withoutShadow.enc.ph = .flush := hp
        rw [halone, ← hsame]
        simp only [encRunPhase, hp']
      refine ⟨1, flushStep s, _, ?_, stateAfter_succ hstep 0, stateAfter_succ hstep' 0, hframe, hend⟩
      simp only [Enc.stepsLeft, hp]
      omega

end

/-! ## START and INIT -/

/-- The block after the two steps that `encLaunch` leads to: START, then INIT (R153, R247). -/
def encLaunched (s : State) (pixels : List Byte) (cfg : Policy) : State :=
  { s with inX := pixels, agenda := [], draws := s.draws + 1
           enc := ({ (encLaunch s pixels cfg).enc with ie := false } : Enc).init (Config.freeQueue s.draws) }

section
variable {s : State} {pixels : List Byte}

theorem encLaunch_n (s : State) (hlen : pixels.length ≤ 2 ^ 32) (cfg : Policy) :
    (encLaunch s pixels cfg).enc.n.toNat = pixels.length := by
  show (BitVec.ofNat 33 (min pixels.length (2 ^ 33 - 1))).toNat = _
  rw [BitVec.toNat_ofNat]
  omega

/-- START of a stopped ENC, and its INIT step, with DEC stopped. -/
theorem stateAfter_encLaunch (he : s.enc.st.stopped = true) (hd : s.dec.st.stopped = true) (hlen : pixels.length ≤ 2 ^ 32)
    (cfg : Policy) (k : Nat) : stateAfter (2 + k) (encLaunch s pixels cfg) = stateAfter k (encLaunched s pixels cfg) := by
  have hn := encLaunch_n s hlen cfg
  have hstart : step (encLaunch s pixels cfg) =
      .next { encLaunch s pixels cfg with
        agenda := [], enc := { (encLaunch s pixels cfg).enc with ie := false, st := .init } } := by
    rw [step_of_ctrlWrite (v := startWord) (rest := []) rfl,
      writeCtrl_of_command (decode_ctrl_start .enc (by decide) (by decide))]
    exact execStart_enc (s := { encLaunch s pixels cfg with agenda := [] }) he (hn.trans_le hlen) hn.le
      (startWord.extractLsb' 3 29) (startWord.getLsbD 2)
  have hinit : step { encLaunch s pixels cfg with
      agenda := [], enc := { (encLaunch s pixels cfg).enc with ie := false, st := .init } } =
      .next (encLaunched s pixels cfg) := step_of_decStopped rfl hd
  rw [Nat.add_comm, stateAfter_succ hstart, stateAfter_succ hinit]

/-- The launched ENC runs, with nothing written, queued or covered. -/
theorem encLaunched_run (s : State) (hlen : pixels.length ≤ 2 ^ 32) (cfg : Policy) :
    EncRun (s.enc.shadow.map (Shadow.init (encLaunch s pixels cfg).enc.n)) [] [] (encLaunched s pixels cfg) := by
  have hn := encLaunch_n s hlen cfg
  have hrange : (encLaunched s pixels cfg).enc.inRange = true :=
    ((encInit_invariant (s := { encLaunch s pixels cfg with enc := { (encLaunch s pixels cfg).enc with ie := false } })
      (hn.trans_le hlen) (Config.freeQueue s.draws) 0).1.2.1 rfl).1
  refine ⟨⟨rfl, rfl, hrange, hn.le⟩, hn.symm, rfl, (by rintro (hph | hph) <;> cases hph),
    ⟨nofun, .empty rfl rfl rfl, .nil _, rfl, rfl, fun j hj => absurd hj (Nat.not_lt_zero j)⟩, ?_⟩
  rw [List.flatMap_nil, show Shadow.feedAll (encLaunched s pixels cfg).inX [] = id from rfl, Option.map_id]
  rfl

/-- R150, R185: `encSteps` is enough for a launched ENC to end, the same with the self-check and without it. -/
theorem stateAfter_encSteps (he : s.enc.st.stopped = true) (hd : s.dec.st.stopped = true) (hlen : pixels.length ≤ 2 ^ 32)
    (cfg : Policy) :
    ∃ t w, stateAfter (encSteps pixels) (encLaunch s pixels cfg) = some t ∧
      stateAfter (encSteps pixels) (encLaunch s.withoutShadow pixels cfg) = some t.withoutShadow ∧
      t.inX = pixels ∧ EncEnded t w := by
  obtain ⟨k, t, w, hk, ht, ht', hframe, hend⟩ := (encLaunched_run s hlen cfg).ends (encLaunch_n s hlen cfg) rfl hd
  have hleft : (encLaunched s pixels cfg).enc.stepsLeft = 5 * pixels.length + 3 := by
    rw [← encLaunch_n s hlen cfg]
    rfl
  have hsplit : 5 * pixels.length + 2 = k + (5 * pixels.length + 2 - k) := by omega
  have ha : t.agenda = [] := by rw [hframe]; rfl
  have hdec : t.dec.st.stopped = true := by rw [hframe]; exact hd
  have henc : t.enc.st.stopped = true := by rw [hend.st]; rfl
  refine ⟨t, w, ?_, ?_, by rw [hframe]; rfl, hend⟩
  · rw [encSteps, stateAfter_encLaunch he hd hlen, hsplit, stateAfter_add ht]
    exact stateAfter_stopped _ ha hdec henc
  · rw [encSteps, stateAfter_encLaunch (s := s.withoutShadow) he hd hlen, hsplit]
    have ht'' : stateAfter k (encLaunched s.withoutShadow pixels cfg) = some t.withoutShadow := ht'
    rw [stateAfter_add ht'']
    exact stateAfter_stopped (s := t.withoutShadow) _ ha hdec henc

end

/-! ## enc(X, cfg) -/

/-- `enc(X, cfg)` is an encoding of `X` (R151). -/
theorem encFunction_encodes {pixels : List Byte} (cfg : Policy) (hlen : pixels.length ≤ 2 ^ 32) :
    ∃ w, encFunction pixels cfg = some w ∧ Encodes pixels w ∧ w.length < 2 ^ 40 := by
  obtain ⟨t, w, ht, -, hX, hend⟩ := stateAfter_encSteps (s := State.reset) rfl rfl hlen cfg
  refine ⟨w, ?_, hX ▸ hend.encodes, hend.size⟩
  rw [encFunction, ht]
  exact hend.outcome

/-- Settles O60: the run with the self-check ends in DONE, and with the shadow erased it is the run without it. -/
theorem selfCheckNeverFires : Obligations.SelfCheckNeverFires := by
  intro pixels cfg hlen
  obtain ⟨t, w, ht, ht', -, hend⟩ := stateAfter_encSteps (s := State.resetWith true) rfl rfl hlen cfg
  refine ⟨t, w, ht, hend.st, hend.noFault, hend.outcome, ?_⟩
  have hreset : (State.resetWith true).withoutShadow = State.reset := rfl
  rw [hreset] at ht'
  rw [encFunction, ht']
  exact hend.withoutShadow.outcome

end Sys2Proof.Machine
end

section
/-! SUPPORT. DEC on an encoded stream (R151): it goes step by step where the shadow goes, so it emits the input, consumes the
stream whole, and meets a strict state at every step. -/

namespace Sys2Proof.Machine

/-! ## The round trip -/

/-- A shadow decoder before START, which makes any shadow the same (R43). -/
def Shadow.before : Shadow := ⟨Dec.reset 0, 0, 0, false⟩

/-- 33 bits say the number of bytes, as 32 do. -/
theorem toNat_pixelCount {x : List Byte} (hx : x.length < 2 ^ 32) :
    (BitVec.ofNat 33 x.length).toNat = x.length ∧ (BitVec.ofNat 33 x.length).setWidth 32 = BitVec.ofNat 32 x.length := by
  refine ⟨?_, BitVec.setWidth_ofNat_of_le (by decide) _⟩
  rw [BitVec.toNat_ofNat]
  omega

/-- DEC launched on an encoding of `x` for as many bytes ends in DONE with `x` in `O` and the stream consumed (R151). -/
theorem decodes_of_encodes {x w : List Byte} (henc : Encodes x w) (hx : x.length < 2 ^ 32) (hw : w.length < 2 ^ 40) :
    ∃ t, stateAfter (decSteps w (BitVec.ofNat 32 x.length)) (decLaunch State.reset w (BitVec.ofNat 32 x.length)) = some t ∧
      t.dec.st = .done ∧ t.dec.iptr.toNat = w.length ∧ pixelsUpTo t.outO x.length = some x := by
  obtain ⟨hn, hp⟩ := toNat_pixelCount hx
  obtain ⟨hagrees, hdone, hiptr⟩ := Shadow.finish_of_encodes henc hn hw Shadow.before
  obtain ⟨t, ht⟩ := stateAfter_decLaunch_stops (s := State.reset) rfl rfl w (BitVec.ofNat 32 x.length)
  obtain ⟨hst, hout⟩ := shadowDecidesAsDecoder x w (BitVec.ofNat 33 x.length) Shadow.before t (hn.trans_lt hx) hw
    (by rw [hp]; exact ht)
  have hdone' := hst.mp hdone
  obtain ⟨hiptr', hsame⟩ := hout hdone'
  refine ⟨t, ht, hdone', hiptr' ▸ hiptr, pixelsUpTo_eq_some fun j hj => ?_⟩
  obtain ⟨v, hread, hv⟩ := hsame.mp hagrees j (by rw [hn]; exact hj)
  rw [hread, hv]

/-- Settles O58: what ENC writes is an encoding of the input, and DEC decodes every encoding. -/
theorem roundTrip : Obligations.RoundTrip := by
  intro pixels cfg hlen
  obtain ⟨w, hw, hencodes, hsize⟩ := encFunction_encodes cfg (Nat.le_of_lt hlen)
  obtain ⟨t, ht, hdone, -, hpixels⟩ := decodes_of_encodes hencodes hlen hsize
  refine ⟨w, hw, decFunction_eq_ok_iff.mpr ⟨t, (stateAfter_decSteps rfl rfl ht).1, hdone, ?_⟩⟩
  rw [BitVec.toNat_ofNat, Nat.mod_eq_of_lt hlen]
  exact hpixels

/-! ## DEC step by step (R151, the second half) -/

/-- Steps of the shadow, one after another. -/
def Shadow.Reaches (x : List Byte) (c c' : Shadow × List Byte) : Prop :=
  Relation.ReflTransGen (fun a b => Shadow.next x a = some b) c c'

/-- All that the shadow reaches on a way that ends lies on that way: it is strict if the way is. -/
theorem Shadow.Leads.strict {x : List Byte} {c c' e : Shadow × List Byte} (h : Shadow.Leads x c e) (he : e.1.Strict)
    (hend : Shadow.next x e = none) (hreach : Shadow.Reaches x c c') : c'.1.Strict := by
  induction h using Relation.ReflTransGen.head_induction_on with
  | refl =>
    rcases hreach.cases_head with rfl | ⟨d, hd, -⟩
    · exact he
    · rw [hend] at hd; cases hd
  | head hstep _ ih =>
    rcases hreach.cases_head with rfl | ⟨d, hd, hrest⟩
    · exact hstep.1
    · rw [hstep.2] at hd
      cases hd
      exact ih hrest

/-- The shadow with the bytes to come is where DEC is in `s`, with the rest of its stream to come. -/
def State.ShownBy (x : List Byte) (s : State) (c : Shadow × List Byte) : Prop := c.1.Follows x s ∧ s.Awaits c.2

/-- DEC takes a step: the shadow takes it too, or has no byte for it and DEC faults. -/
theorem State.ShownBy.step {x : List Byte} {s t : State} {c : Shadow × List Byte} (h : s.ShownBy x c)
    (hstep : decStep s = .next t) : t.dec.st = .fault ∨ ∃ c', Shadow.Reaches x c c' ∧ t.ShownBy x c' := by
  obtain ⟨sh, ws⟩ := c
  obtain ⟨hfollows, hawaits⟩ := h
  rcases hfollows.runs with ⟨hdone, -⟩ | hrun
  · rw [(DecReaches.single hstep).eq_of_stopped (by rw [hdone]; rfl)]
    exact .inr ⟨_, .refl, hfollows, hawaits⟩
  obtain ⟨hframe, -, hslen⟩ := decStep_frame hstep
  have hS : t.inS = s.inS := by rw [hframe]
  have hrest : s.streamRest = ws := hawaits.resolve_left (by rw [hrun.1]; decide)
  have hst : sh.dec.st = .run := hfollows.st_eq.trans hrun.1
  cases hf : s.dec.ph.fetches with
  | false =>
    obtain ⟨sh', t', hquiet, hstep', hfollows', hiptr, -⟩ := hfollows.quiet hrun hf
    cases hstep.symm.trans hstep'
    exact .inr ⟨(sh', ws), .single (Shadow.next_of_quiet hquiet ws), hfollows',
      .inr ((State.streamRest_congr hS hslen hiptr).trans hrest)⟩
  | true =>
    cases ws with
    | nil =>
      obtain ⟨t', hstep', hfault⟩ := decStep_faults hrun hf hrest
      cases hstep.symm.trans hstep'
      exact .inl hfault
    | cons raw ws =>
      obtain ⟨t', hstep', hfollows', hiptr⟩ := (hfollows.withSlen (sh.dec.slen + 1)).consume hrun hf hrest
      cases hstep.symm.trans hstep'
      exact .inr ⟨_, .single (Shadow.next_of_fetch hst (by rw [hfollows.ph_eq]; exact hf) raw ws), hfollows',
        .inr (State.streamRest_advance hrun.2.2.2 hrest hS hslen hiptr)⟩

/-- In every state that DEC reaches without a fault, the shadow shows it. -/
theorem State.ShownBy.reaches {x : List Byte} {s t : State} {c : Shadow × List Byte} (h : s.ShownBy x c)
    (hreach : DecReaches s t) : t.dec.st = .fault ∨ ∃ c', Shadow.Reaches x c c' ∧ t.ShownBy x c' := by
  refine hreach.induct (fun u => u.dec.st = .fault ∨ ∃ c', Shadow.Reaches x c c' ∧ u.ShownBy x c') (.inr ⟨c, .refl, h⟩) ?_
  rintro a b (hfault | ⟨c', hc', hshown⟩) hab
  · rw [(DecReaches.single hab).eq_of_stopped (by rw [hfault]; rfl)]
    exact .inl hfault
  · exact (hshown.step hab).imp_right fun ⟨c'', hc'', hshown'⟩ => ⟨c'', hc'.trans hc'', hshown'⟩

/-- What is strict of the shadow is strict of the DEC it shows. -/
theorem Shadow.Strict.of_follows {x : List Byte} {sh : Shadow} {s : State} (hs : sh.Strict) (h : sh.Follows x s)
    (hp : s.dec.ph = .copy) (hci : s.dec.ci = 0) :
    distance s.dec.rcur s.dec.pos ≠ 0 ∧ s.dec.ocnt.toNat + s.dec.len.toNat ≤ s.dec.p.toNat := by
  have hstart := hs.start (h.ph_eq.trans hp) ((h.agree Dec.ci fun _ => rfl).trans hci)
  rwa [h.count, h.bound, show sh.dec.rcur = s.dec.rcur from h.agree Dec.rcur fun _ => rfl,
    show sh.dec.pos = s.dec.pos from h.agree Dec.pos fun _ => rfl,
    show sh.dec.len = s.dec.len from h.agree Dec.len fun _ => rfl] at hstart

/-- A DEC that runs is past START and INIT. -/
theorem decReaches_of_running {k : Nat} {w : List Byte} {p : BitVec 32} {t : State}
    (h : stateAfter k (decLaunch State.reset w p) = some t) (hst : t.dec.st = .run) :
    DecReaches (decLaunched State.reset w p) t := by
  match k with
  | 0 =>
    cases h
    cases hst
  | 1 =>
    have hslice : (decLaunch State.reset w p).dec.slen.toNat ≤ w.length := by
      show (BitVec.ofNat 40 (min w.length (2 ^ 40 - 1))).toNat ≤ w.length
      rw [launchedSlen_toNat]
      exact Nat.min_le_left _ _
    have hstart : step (decLaunch State.reset w p) = _ :=
      (step_of_ctrlWrite (v := startWord) (rest := []) rfl).trans
        ((writeCtrl_of_command (decode_ctrl_start .dec (by decide) (by decide)) _).trans
          (execStart_dec (s := { decLaunch State.reset w p with agenda := [] }) rfl hslice (startWord.extractLsb' 3 29)
            (startWord.getLsbD 2)))
    rw [stateAfter_succ hstart] at h
    cases h
    cases hst
  | k + 2 =>
    rw [Nat.add_comm, stateAfter_decLaunch rfl] at h
    exact decReaches_of_stateAfter rfl rfl h

/-- Settles O59: DEC goes where the shadow goes, and the shadow's way over an encoded stream is strict to its end. -/
theorem encodedStreamIsStrict : Obligations.EncodedStreamIsStrict := by
  intro pixels cfg stream hlen henc
  obtain ⟨w, hw, hencodes, hsize⟩ := encFunction_encodes cfg (Nat.le_of_lt hlen)
  cases henc.symm.trans hw
  obtain ⟨t, ht, hdone, hiptr, -⟩ := decodes_of_encodes hencodes hlen hsize
  refine ⟨⟨t, ht, hdone, hiptr⟩, fun k u hu hst hp hci => ?_⟩
  obtain ⟨hn, hp32⟩ := toNat_pixelCount hlen
  -- where the shadow's way ends, and that DEC is shown by it at the start
  obtain ⟨sh', hleads, hshdone, -, hstrict, -⟩ := Shadow.init_leads hencodes hn hsize Shadow.before
  have hend : Shadow.next pixels (sh', []) = none := by
    simp only [Shadow.next, Shadow.quietStep_none (x := pixels) (sh := sh') (.inl (by rw [hshdone]; decide))]
  have hfollows := Shadow.Follows.launched pixels stream (BitVec.ofNat 33 pixels.length) Shadow.before State.reset
    (hn.trans_lt hlen)
  rw [hp32] at hfollows
  have hshown : (decLaunched State.reset stream (BitVec.ofNat 32 pixels.length)).ShownBy pixels
      (Shadow.init (BitVec.ofNat 33 pixels.length) Shadow.before, stream) :=
    ⟨hfollows, decLaunched_awaits State.reset stream _ hsize⟩
  -- the state `u` in particular
  have hreach := decReaches_of_running hu hst
  obtain ⟨c, hc, hfollowsU, -⟩ := (hshown.reaches hreach).resolve_left (by rw [hst]; decide)
  obtain ⟨hdist, hroom⟩ := (hleads.strict hstrict hend hc).of_follows hfollowsU hp hci
  rw [hreach.frame.2.1] at hroom
  refine ⟨hdist, hroom.trans_eq ?_⟩
  show (BitVec.ofNat 32 pixels.length).toNat = pixels.length
  rw [BitVec.toNat_ofNat, Nat.mod_eq_of_lt hlen]

end Sys2Proof.Machine
end

section
/-! SUPPORT. Faults at a missing byte, the reset input, and engines that stand still (60_exceptions.md R202 to R224,
70_reset_and_hazards.md R240 to R243). -/

namespace Sys2Proof.Machine

/-! ## A missing byte (R202, R203, R205, R207) -/

theorem Dec.exhausted_of_eq {d : Dec} (h : d.iptr = d.slen) : d.exhausted = true := d.exhausted_iff.mpr h

theorem exec_flag_of_eq {s : State} (h : s.dec.iptr = s.dec.slen) (kinds : Byte) :
    exec (.flag kinds) s = .next (raiseFault .dec .unexpectedEnd .atFlag s) := by
  simp only [exec, execFlag, Dec.exhausted_of_eq h, if_true]

theorem exec_lit_of_eq {s : State} (h : s.dec.iptr = s.dec.slen) (data : Byte) :
    exec (.lit data) s = .next (raiseFault .dec .corrupt .atLit s) := by
  simp only [exec, execLit, Dec.exhausted_of_eq h, if_true]

/-- `U` is missing (R203). -/
theorem exec_ref_of_eq {s : State} (h : s.dec.iptr = s.dec.slen) (position : RingAddr) (length : BitVec 5) :
    exec (.ref position length) s = .next (raiseFault .dec .corrupt .atRefU s) := by
  simp only [exec, execRef, Dec.exhausted_of_eq h, if_true]

/-- `U` is there and `L` is missing: the fault is raised after `U` is consumed and latched (R127, R207). -/
theorem exec_ref_of_succ_eq {s : State} (hu : s.dec.iptr ≠ s.dec.slen) (hl : s.dec.iptr + 1 = s.dec.slen)
    (position : RingAddr) (length : BitVec 5) :
    exec (.ref position length) s =
      .next (raiseFault .dec .corrupt .atRefL { s with dec := s.dec.latchU (refU position length) }) := by
  have hl' : (s.dec.latchU (refU position length)).exhausted = true := Dec.exhausted_of_eq hl
  simp only [exec, execRef, Dec.exhausted_of_ne hu, hl', Bool.false_eq_true, if_false, if_true]

/-- Settles O12: one branch of each operation, and for a REF the second test of exhaustion, after `U`. -/
theorem missingByteFaults : Obligations.MissingByteFaults :=
  ⟨fun kinds _ h => exec_flag_of_eq h kinds, fun data _ h => exec_lit_of_eq h data,
    fun position length _ h => exec_ref_of_eq h position length,
    fun position length _ hu hl => exec_ref_of_succ_eq hu hl position length⟩

/-! ## The reset input (R219, R240 to R243) -/

theorem step_of_hardwareReset {s : State} {rest : List Event} (h : s.agenda = .host .hardwareReset :: rest) :
    step s = .next (hardwareReset { s with agenda := rest }) := step_of_event h

/-- R43: the reset input builds no shadow decoder and removes none. -/
theorem hardwareReset_shadow (s : State) :
    (hardwareReset s).enc.shadow = s.enc.shadow.map fun _ => ⟨Dec.reset (s.draws + 3), 0, 0, false⟩ := rfl

/-- Settles O27: the registers and the spaces are read off the definition, the shadow by whether there is one. -/
theorem hardwareResetFromAnyState : Obligations.HardwareResetFromAnyState := by
  intro s rest h
  refine ⟨_, step_of_hardwareReset h, rfl, rfl, fun hnone => ?_, fun sh hsome => ?_, rfl, rfl, rfl, rfl, rfl⟩
  · rw [hardwareReset_shadow, hnone, Option.map_none]
  · refine ⟨⟨Dec.reset (s.draws + 3), 0, 0, false⟩, ?_, rfl⟩
    rw [hardwareReset_shadow, hsome, Option.map_some]

/-! ## Stopped engines (R211, R212, R224) -/

theorem decStep_of_stopped {s : State} (h : s.dec.st.stopped = true) : decStep s = .next s := by
  cases hst : s.dec.st with
  | idle | done | fault => simp only [decStep, hst]
  | init | run => rw [hst] at h; cases h

theorem encStep_of_stopped {s : State} (h : s.enc.st.stopped = true) : encStep s = .next s := by
  cases hst : s.enc.st with
  | idle | done | fault => simp only [encStep, hst]
  | init | run => rw [hst] at h; cases h

/-- Settles O45: an engine that is neither in INIT nor in RUN is stopped. -/
theorem stoppedEngineTakesNoStep : Obligations.StoppedEngineTakesNoStep :=
  ⟨fun _ hi hr => decStep_of_stopped (RunState.stopped_of_ne hi hr),
    fun _ hi hr => encStep_of_stopped (RunState.stopped_of_ne hi hr)⟩

end Sys2Proof.Machine
end

section
/-! SUPPORT. The block after power-on (70_reset_and_hazards.md R241 to R243). -/

namespace Sys2Proof.Machine

/-- R241: two resets of DEC differ in the unspecified content of the ring, and in nothing else. -/
theorem Dec.reset_eq_with_ring (m n : Nat) : Dec.reset m = { Dec.reset n with ring := (Dec.reset m).ring } := rfl

/-- R242: the self-check adds a shadow decoder, itself a reset DEC, to an ENC that is otherwise as it is without one. -/
theorem State.resetWith_true_enc :
    (State.resetWith true).enc = { State.reset.enc with shadow := some ⟨Dec.reset 2, 0, 0, false⟩ } := rfl

/-- Settles O26: the registers are read off `Dec.reset` and `Enc.reset`, and the shadow decoder is one more reset DEC. -/
theorem resetValues : Obligations.ResetValues :=
  ⟨rfl, rfl, rfl, ⟨Dec.reset 2, 0, 0, false⟩, State.resetWith_true_enc,
    congrArg (Shadow.mk · 0 0 false) (Dec.reset_eq_with_ring 2 0)⟩

end Sys2Proof.Machine
end
